-- ==== Sys2Proof/Word.lean ====
section
/-! DEFINITION. The word types of the two units (spec 00_scope.md R9, R10; 10_state.md sections 2 to 5).
Each is an abbreviation of a bit vector, so that the library's lemmas apply as they stand. -/

namespace Sys2Proof

/-- A byte: a symbol, a code length, a byte of IBUF, OBUF or a container (00_scope.md R7). -/
abbrev Byte := BitVec 8

/-- A 64-bit register: every REG register, every counter and pointer (R9, R21). -/
abbrev Word64 := BitVec 64

/-- A node handle or sequence number, 9 bits (R9, R36 to R38). -/
abbrev Handle := BitVec 9

/-- A canonical code value, 255 bits (R43). -/
abbrev CodeWord := BitVec 255

/-- The running code value RUN, 256 bits (R43). -/
abbrev RunWord := BitVec 256

end Sys2Proof
end

