-- ==== Sys2Proof/Config.lean ====
section
/-! DEFINITION. What an implementation fixes, and the free values (spec 92_eei_decisions.md section 1,
93_implementation_defined.md section 2). The capacities MAX_IN and MAX_OUT are fields of State that no step
changes; here stands only the value State.reset gives them (log entry 4). -/

namespace Sys2Proof

/-- MAGIC, the four bytes "HUF1" (30_encoding.md R81, 00_scope.md R9). -/
def Config.magic : List Byte := [0x48#8, 0x55#8, 0x46#8, 0x31#8]

/-- DESIGN CHOICE (log entry 4): the MAX_IN of both units in State.reset. R8 leaves it OPEN in
1 .. 2^56 - 1; 95_test_vectors.md asks for at least 2^16. -/
def Config.resetMaxIn : Word64 := 65536#64

/-- DESIGN CHOICE (log entry 4): the MAX_OUT of both units in State.reset (OPEN in 1 .. 2^64 - 1, R8). -/
def Config.resetMaxOut : Word64 := 65536#64

/-- FREE VALUE (log entry 3): the byte a host read returns where the spec says "unspecified value"
(R62, R278, R279; V1, V2, V4), one for each value of the counter State.free. -/
opaque Config.freeByte : Nat → Byte

/-- FREE VALUE (log entry 12): what ROOT becomes when E_MERGE finds an empty priority collection, a case
R124 does not state ("the one h with INQ[h]=1"), one for each value of the counter State.free. -/
opaque Config.freeHandle : Nat → Handle

end Sys2Proof
end

