-- ==== Sys2Proof/Syntax.lean ====
section
/-! DEFINITION. Syntax, whole: the instructions (one constructor per row of spec/opcode_table.json), their
encoded forms, and the lines of a host script (spec 00_scope.md R19, 30_encoding.md sections 1, 4, 5, 7). -/

namespace Sys2Proof

/-- The two units: E, huffman_encoder, and D, huffman_decoder (00_scope.md R2). -/
inductive UnitKind where
  | E
  | D
deriving DecidableEq, Repr

/-- One (symbol, length) pair of CanonicalCodeLengths (10_state.md R42, 30_encoding.md R84). -/
structure Entry where
  sym : Byte
  len : Byte
deriving DecidableEq, Repr

/-- The fields of a container (30_encoding.md R80), less Magic, which is constant (R81), and SymbolCount,
which is the table's length (R83). -/
structure Container where
  /-- OriginalLength (R82). -/
  origLen : Word64
  /-- CanonicalCodeLengths (R84). -/
  table   : List Entry
  /-- PayloadBitCount (R85). -/
  pbc     : Word64
  /-- Payload, pad bits included (R86). -/
  payload : List Byte
deriving DecidableEq, Repr

/-- One constructor per row of spec/opcode_table.json. The operand of a command is the unit whose CMD is
written (R95, R96); RESERVED_CMD keeps its OP. A phase operation has no operand: it is its unit's (R98);
IDLE is of both units. HUF1_CONTAINER has the container's fields (R80). -/
inductive Instr where
  | nop (u : UnitKind)
  | enc (u : UnitKind)
  | dec (u : UnitKind)
  | clr (u : UnitKind)
  | reservedCmd (u : UnitKind) (op : Byte)
  | idle (u : UnitKind)
  | eInit
  | eScan
  | eLeaf
  | eMerge
  | eSingle
  | eWalk
  | eSort
  | eCanon
  | eSize
  | eHdr
  | eTbl
  | ePbc
  | ePack
  | eFlush
  | eFin
  | dInit
  | dMagic
  | dOlen
  | dScnt
  | dTbl
  | dPbc
  | dSize
  | dCanon
  | dEmpty
  | dSingle
  | dWalk
  | dFin
  | huf1Container (c : Container)
deriving DecidableEq, Repr

/-- Where an instruction's bits stand: in a 64-bit value written to a unit's CMD (format CMD, R95), in a
unit's 5-bit PHASE register (format PHASE, R98), or in a byte sequence (format CONTAINER, R91, R102). -/
inductive Encoded where
  | cmd (u : UnitKind) (w : Word64)
  | phase (u : UnitKind) (p : BitVec 5)
  | bytes (bs : List Byte)
deriving DecidableEq, Repr

/-- One line of a host script: one host access (30_encoding.md R100, 70_reset_and_hazards.md R287). -/
inductive HostLine where
  /-- Write a REG register; at offset 0x00 a command issue (10_state.md R22). -/
  | wrReg (u : UnitKind) (off : Nat) (v : Word64)
  /-- Read a REG register. -/
  | rdReg (u : UnitKind) (off : Nat)
  /-- Write one byte of IBUF (20_memory.md R61). -/
  | wrIbuf (u : UnitKind) (i : Nat) (b : Byte)
  /-- Read one byte of IBUF back (R61). -/
  | rdIbuf (u : UnitKind) (i : Nat)
  /-- Write one byte of OBUF: ignored (R62). -/
  | wrObuf (u : UnitKind) (i : Nat) (b : Byte)
  /-- Read one byte of OBUF (R62). -/
  | rdObuf (u : UnitKind) (i : Nat)
  /-- `POLL U`: read STATUS until BUSY = 0 (R100). -/
  | poll (u : UnitKind)
  /-- `COPY E -> D` (R101). -/
  | copy
  /-- A container presented to unit D: the data part of `DECODE` (R101, log entry 9). -/
  | container (bs : List Byte)
  /-- Assert and release a unit's reset input (70_reset_and_hazards.md R270, R271). -/
  | reset (u : UnitKind)
deriving DecidableEq, Repr

/-- Who moves: the host, or a unit (00_scope.md R14). -/
inductive Agent where
  | host
  | unit (u : UnitKind)
deriving DecidableEq, Repr

/-- Why bits are no instruction. -/
inductive DecodeError where
  /-- A PHASE value that this unit never takes: 0x1C .. 0x1F, or the other unit's codes (R227, V11). -/
  | unusedPhase
  /-- Fewer bytes than the container's field about to be read (R80, R88). -/
  | truncated
  /-- The first four bytes are not MAGIC (R81). -/
  | badMagic
  /-- SymbolCount above 256 (R83). -/
  | symbolCount
  /-- An entry with length 0 (R84). -/
  | zeroLength
  /-- The entries are not strictly sorted (R84). -/
  | tableOrder
  /-- A symbol with two entries (R84). -/
  | repeatedSymbol
  /-- The payload has not exactly ceil8(PayloadBitCount) bytes (R87). -/
  | payloadLength
deriving DecidableEq, Repr

end Sys2Proof
end

