-- ==== Sys2Proof/Machine/State.lean ====
section
/-! DEFINITION. State as plain data: everything spec/10_state.md gives units E and D, the two byte memories
of each (20_memory.md), and the host's script; why a step can stop; and the state after reset. -/

namespace Sys2Proof.Machine

/-- A byte memory (IBUF or OBUF): the bytes written since reset as (index, byte) pairs, indices strictly
rising. An index not listed has NO VALUE: after reset the buffers are unspecified (10_state.md R51, log
entry 2). -/
abbrev Memory := List Host.Cell

/-- A register file with one entry per symbol (10_state.md R35, R36, R40, R41, R43). -/
abbrev SymFile (α : Type) := Vector α 256

/-- A node of the arena (10_state.md R37): `Leaf{SYM, FREQ}` or `Internal{FREQ, LEFT, RIGHT}`. -/
inductive Node where
  | leaf (sym : Byte) (freq : Word64)
  | internal (freq : Word64) (left right : Handle)
deriving DecidableEq, Repr

/-- What units E and D have in common: the host-visible registers, PHASE and the two buffers
(10_state.md section 2, R34; 20_memory.md R60). CMD holds no state (R22); UNIT_ID is a constant (R33). -/
structure Port where
  /-- The sequencer register (R34); STATUS.PHASE is its copy (R27). -/
  phase   : BitVec 5
  /-- STATUS.BUSY (R23). -/
  busy    : Bool
  /-- STATUS.DONE (R24). -/
  done    : Bool
  /-- STATUS.ERR (R25). -/
  err     : Bool
  /-- STATUS.NOGAIN (R26). -/
  nogain  : Bool
  /-- ERR.CODE (R29). -/
  errCode : Byte
  /-- ERR.SUB (R29). -/
  errSub  : Byte
  /-- IN_LEN (R30). -/
  inLen   : Word64
  /-- OUT_LEN (R31). -/
  outLen  : Word64
  /-- CAP_IN, the parameter MAX_IN (R8, R32). -/
  capIn   : Word64
  /-- CAP_OUT, the parameter MAX_OUT (R8, R32). -/
  capOut  : Word64
  /-- The input buffer (20_memory.md R61). -/
  ibuf    : Memory
  /-- The output buffer (R62). -/
  obuf    : Memory
deriving DecidableEq, Repr

/-- Unit E (10_state.md sections 2 to 4). -/
structure UnitE where
  port   : Port
  /-- IDX (R34). -/
  idx    : Word64
  /-- FREQ (R35). -/
  freq   : SymFile Word64
  /-- SEQ (R36). -/
  seq    : SymFile Handle
  /-- NSYM (R36). -/
  nsym   : BitVec 9
  /-- NODE (R37). -/
  node   : Vector Node 511
  /-- NNODE (R38). -/
  nnode  : BitVec 9
  /-- ROOT (R38). -/
  root   : Handle
  /-- INQ (R39). -/
  inq    : Vector Bool 511
  /-- LEN (R40). -/
  len    : SymFile Byte
  /-- TPAT (R41), first edge first; false is "0". -/
  tpat   : SymFile (List Bool)
  /-- CCL (R42). -/
  ccl    : Vector Entry 256
  /-- CODE (R43). -/
  code   : SymFile CodeWord
  /-- RUN (R43). -/
  run    : RunWord
  /-- PBC (R44). -/
  pbc    : Word64
  /-- OSIZE (R44). -/
  osize  : Word64
  /-- ACC (R45). -/
  acc    : Byte
  /-- NBITS (R45). -/
  nbits  : BitVec 3
  /-- WPTR (R45). -/
  wptr   : Word64
  /-- BITCNT (R45). -/
  bitcnt : Word64
deriving DecidableEq, Repr

/-- Unit D (10_state.md sections 2, 3 and 5). -/
structure UnitD where
  port    : Port
  /-- RPTR (R46). -/
  rptr    : Word64
  /-- ORIGLEN (R47). -/
  origlen : Word64
  /-- SYMCNT (R47). -/
  symcnt  : BitVec 16
  /-- PBC (R47). -/
  pbc     : Word64
  /-- PAYBASE (R47). -/
  paybase : Word64
  /-- CCL (R48). -/
  ccl     : Vector Entry 256
  /-- LEN (R48). -/
  len     : SymFile Byte
  /-- CODE (R48). -/
  code    : SymFile CodeWord
  /-- RUN (R48). -/
  run     : RunWord
  /-- CURV (R49). -/
  curv    : CodeWord
  /-- CURL (R49). -/
  curl    : Byte
  /-- BITPOS (R49). -/
  bitpos  : Word64
  /-- OCNT (R49). -/
  ocnt    : Word64
deriving DecidableEq, Repr

/-- What one host read returned (00_scope.md R15: the observable events; log entry 19). -/
inductive Seen where
  | reg (u : UnitKind) (off : Nat) (v : Word64)
  | ibuf (u : UnitKind) (i : Nat) (b : Byte)
  | obuf (u : UnitKind) (i : Nat) (b : Byte)
deriving DecidableEq, Repr

/-- The machine: one unit E, one unit D, and the host with its script (00_scope.md R14, R19). -/
structure State where
  e      : UnitE
  d      : UnitD
  /-- The lines of the host script not yet performed (the MODEL's own field, log entry 7). -/
  script : List HostLine
  /-- Who moves in the next steps; empty: a busy unit before the host (the MODEL's own field, log entry 6). -/
  sched  : List Agent
  /-- What the host has read, newest first (the MODEL's own field, log entry 19). -/
  seen   : List Seen
  /-- The number of the next free value (the MODEL's own field, log entry 3). -/
  free   : Nat
deriving DecidableEq, Repr

/-- Why the machine stops with a fault. Every one is SAFE: it stops where no rule of the spec says what
happens, and no run of a host that obeys R274 to R281 comes there (log entries 13, 14, 20). -/
inductive Fault where
  /-- A MemRead beyond IN_LEN or MAX_IN (20_memory.md R64). Raised by the phases that read IBUF. Safe. -/
  | readOutOfRange
  /-- A MemWrite beyond MAX_OUT (R65). Raised by the phases that write OBUF. Safe. -/
  | writeOutOfRange
  /-- A handle beyond NODE[510] (10_state.md R37). Raised by E_LEAF, E_MERGE, E_WALK. Safe. -/
  | arenaIndex
  /-- An index beyond CCL[255] (R42). Raised by E_CANON, E_TBL, D_TBL, D_CANON. Safe. -/
  | cclIndex
  /-- A path of more than 255 edges (41_tree_build.md R128 (e)). Raised by E_WALK. Safe. -/
  | treeTooDeep
  /-- NODE[0] has no SYM: it is Internal (R37). Raised by E_SINGLE. Safe. -/
  | notALeaf
  /-- The canonical regeneration of unit E met a descending length or a code that does not fit its length:
  the self-check, for whose failure no behaviour is defined (42_code_generation.md R148, V14).
  Raised by E_CANON. Safe. -/
  | selfCheckFailed
  /-- CCL's lengths descend, which D_TBL excludes (45_decoder.md R196). Raised by D_CANON. Safe. -/
  | lengthsDescend
  /-- PHASE holds a code this unit never takes (46_commands_sequencer.md R227, V11). Raised by step. Safe. -/
  | unusedPhase
deriving DecidableEq, Repr

/-- Why a step is refused. Every one is SAFE. -/
inductive Refusal where
  /-- The instruction has no meaning in this model yet. Raised by exec. Safe. -/
  | notModelled (mnemonic : String)
  /-- The host writes IBUF while BUSY = 1, which it must not (R277, V3: refuse). Raised by the host's IBUF
  writes and by HUF1_CONTAINER. Safe. -/
  | ibufWriteWhileBusy
  /-- The unit reads an IBUF byte that the host never wrote since reset (R274, V5: refuse). Raised by the
  phases that read IBUF. Safe. -/
  | inputByteUnwritten
  /-- A REG access that is not at a multiple of 8 in 0x00 .. 0x38 (R69, R72, V6: refuse). Raised by the
  host's REG accesses. Safe. -/
  | badRegAccess
  /-- A host access to IBUF or OBUF at an index the buffer does not have (R287, V17: refuse). Raised by the
  host's buffer accesses and by HUF1_CONTAINER. Safe. -/
  | indexOutOfRange
deriving DecidableEq, Repr

/-- The host-visible registers after reset (10_state.md R51), with the capacities given. -/
def Port.reset (capIn capOut : Word64) : Port where
  phase := 0#5
  busy := false
  done := false
  err := false
  nogain := false
  errCode := 0#8
  errSub := 0#8
  inLen := 0#64
  outLen := 0#64
  capIn := capIn
  capOut := capOut
  ibuf := []
  obuf := []

/-- Unit E after reset; the working state, which R51 leaves unspecified, is zero (log entry 1). -/
def UnitE.reset (capIn capOut : Word64) : UnitE where
  port := Port.reset capIn capOut
  idx := 0#64
  freq := Vector.replicate 256 0#64
  seq := Vector.replicate 256 0#9
  nsym := 0#9
  node := Vector.replicate 511 (Node.leaf 0#8 0#64)
  nnode := 0#9
  root := 0#9
  inq := Vector.replicate 511 false
  len := Vector.replicate 256 0#8
  tpat := Vector.replicate 256 []
  ccl := Vector.replicate 256 ⟨0#8, 0#8⟩
  code := Vector.replicate 256 0#255
  run := 0#256
  pbc := 0#64
  osize := 0#64
  acc := 0#8
  nbits := 0#3
  wptr := 0#64
  bitcnt := 0#64

/-- Unit D after reset; the working state is zero (log entry 1). -/
def UnitD.reset (capIn capOut : Word64) : UnitD where
  port := Port.reset capIn capOut
  rptr := 0#64
  origlen := 0#64
  symcnt := 0#16
  pbc := 0#64
  paybase := 0#64
  ccl := Vector.replicate 256 ⟨0#8, 0#8⟩
  len := Vector.replicate 256 0#8
  code := Vector.replicate 256 0#255
  run := 0#256
  curv := 0#255
  curl := 0#8
  bitpos := 0#64
  ocnt := 0#64

/-- The machine right after reset: both units of R51, no host script, nothing read yet. -/
def State.reset : State where
  e := UnitE.reset Config.resetMaxIn Config.resetMaxOut
  d := UnitD.reset Config.resetMaxIn Config.resetMaxOut
  script := []
  sched := []
  seen := []
  free := 0

end Sys2Proof.Machine
end

