-- ==== Sys2Proof/Machine/Flags.lean ====
section
/-! DEFINITION. STATUS, ERR and UNIT_ID as the host reads them, the error pairs, and every computation of a
flag: acceptance and CLR, NOGAIN, the refused opcode (spec 10_state.md section 2, 60_exceptions.md R241). -/

namespace Sys2Proof.Machine

/-- A flag as a 64-bit number. -/
def flagWord (b : Bool) : Word64 := if b then 1#64 else 0#64

/-- STATUS: BUSY [0], DONE [1], ERR [2], NOGAIN [3], PHASE [12:8]; every other bit reads 0 (R21, R23 to R27). -/
def statusWord (p : Port) : Word64 :=
  flagWord p.busy ||| (flagWord p.done <<< 1) ||| (flagWord p.err <<< 2) ||| (flagWord p.nogain <<< 3)
    ||| (p.phase.setWidth 64 <<< 8)

/-- ERR: CODE [7:0], SUB [15:8]; every other bit reads 0 (R21, R29). -/
def errWord (p : Port) : Word64 := p.errCode.setWidth 64 ||| (p.errSub.setWidth 64 <<< 8)

/-- UNIT_ID: KIND [7:0] = 0x45 on E, 0x44 on D; FMT [15:8] = 0x01 (R33). -/
def unitIdWord : UnitKind → Word64
  | .E => 0x0145#64
  | .D => 0x0144#64

/-- The error conditions with their sub-causes, one for each row of R241 but "none". -/
inductive Cause where
  | truncatedHeader
  | badMagic
  | inconsistentSizes
  | bitCountMismatch
  | badCodeLength
  | badTableOrder
  | invalidCode
  | inputTooLarge
  | outputTooLarge
  | unsupportedSymbolCount
  | illegalCommand
deriving DecidableEq, Repr

/-- ERR.CODE of a cause (R241). -/
def causeCode : Cause → Byte
  | .truncatedHeader => 1#8
  | .badMagic => 1#8
  | .inconsistentSizes => 1#8
  | .bitCountMismatch => 1#8
  | .badCodeLength => 1#8
  | .badTableOrder => 1#8
  | .invalidCode => 1#8
  | .inputTooLarge => 2#8
  | .outputTooLarge => 2#8
  | .unsupportedSymbolCount => 3#8
  | .illegalCommand => 4#8

/-- ERR.SUB of a cause (R241). -/
def causeSub : Cause → Byte
  | .truncatedHeader => 1#8
  | .badMagic => 2#8
  | .inconsistentSizes => 3#8
  | .bitCountMismatch => 4#8
  | .badCodeLength => 5#8
  | .badTableOrder => 6#8
  | .invalidCode => 7#8
  | .inputTooLarge => 1#8
  | .outputTooLarge => 2#8
  | .unsupportedSymbolCount => 0#8
  | .illegalCommand => 0#8

/-- What acceptance of ENC or DEC and CLR clear: DONE, ERR, NOGAIN, the ERR register, OUT_LEN
(46_commands_sequencer.md R222 to R224). -/
def clearResult (p : Port) : Port :=
  { p with done := false, err := false, nogain := false, errCode := 0#8, errSub := 0#8, outLen := 0#64 }

/-- NOGAIN at the end of ENC: 1 if the container is not shorter than the input (44_encoder.md R182). -/
def noGainFlag (osize inLen : Word64) : Bool := decide (inLen.toNat ≤ osize.toNat)

/-- The record of a refused opcode: ERR and the ERR register, nothing else (R226, 60_exceptions.md R248). -/
def recordRefused (p : Port) : Port :=
  { p with err := true, errCode := causeCode .illegalCommand, errSub := causeSub .illegalCommand }

end Sys2Proof.Machine
end

