-- ==== Sys2Proof/WellFormed.lean ====
section
/-! DEFINITION. Which terms of Instr are instructions of the hardware: a reserved opcode is one of
0x04 .. 0xFF (spec 30_encoding.md R96), a container obeys R80 to R87. -/

namespace Sys2Proof

/-- (length, symbol) strictly ascending, lexicographic (30_encoding.md R84). -/
abbrev Entry.Before (a b : Entry) : Prop :=
  a.len.toNat < b.len.toNat ∨ (a.len.toNat = b.len.toNat ∧ a.sym.toNat < b.sym.toNat)

/-- SymbolCount is at most 256 (R83). -/
def Container.countOk (c : Container) : Bool := decide (c.table.length ≤ 256)

/-- Every length is in 1 .. 255 (R84). -/
def Container.lengthsOk (c : Container) : Bool := decide (∀ e ∈ c.table, e.len ≠ 0#8)

/-- The entries are strictly sorted (R84). -/
def Container.orderOk (c : Container) : Bool := decide (c.table.Pairwise Entry.Before)

/-- No symbol occurs twice (R84). -/
def Container.symbolsOk (c : Container) : Bool := decide ((c.table.map Entry.sym).Nodup)

/-- The payload has ceil8(PayloadBitCount) bytes (R86, R87). -/
def Container.payloadOk (c : Container) : Bool := decide (c.payload.length = (c.pbc.toNat + 7) / 8)

/-- R80 to R87. -/
def Container.wf (c : Container) : Bool :=
  c.countOk && c.lengthsOk && c.orderOk && c.symbolsOk && c.payloadOk

/-- A well-formed instruction. -/
def Instr.wf : Instr → Bool
  | .nop _ => true
  | .enc _ => true
  | .dec _ => true
  | .clr _ => true
  | .reservedCmd _ op => decide (4 ≤ op.toNat)
  | .idle _ => true
  | .eInit => true
  | .eScan => true
  | .eLeaf => true
  | .eMerge => true
  | .eSingle => true
  | .eWalk => true
  | .eSort => true
  | .eCanon => true
  | .eSize => true
  | .eHdr => true
  | .eTbl => true
  | .ePbc => true
  | .ePack => true
  | .eFlush => true
  | .eFin => true
  | .dInit => true
  | .dMagic => true
  | .dOlen => true
  | .dScnt => true
  | .dTbl => true
  | .dPbc => true
  | .dSize => true
  | .dCanon => true
  | .dEmpty => true
  | .dSingle => true
  | .dWalk => true
  | .dFin => true
  | .huf1Container c => c.wf

end Sys2Proof
end

