-- ==== Sys2Proof/Decode.lean ====
section
/-! DEFINITION. Decoding, total, rejecting by name, and the encoder written from the same tables
(spec 30_encoding.md sections 1, 4, 5), with the byte-order helpers they use (00_scope.md R11, R93). -/

namespace Sys2Proof

/-! Byte order. -/

/-- `be_n(v)`: the n-byte big-endian byte sequence of v, most significant byte first (R11, R66). -/
def beBytes : Nat → Nat → List Byte
  | 0, _ => []
  | n + 1, v => BitVec.ofNat 8 (v / 256 ^ n) :: beBytes n v

/-- `from_be`: the unsigned value of a big-endian byte sequence (R11, R93). -/
def fromBe (bs : List Byte) : Nat := bs.foldl (fun acc b => acc * 256 + b.toNat) 0

/-- `ceil8(n)` = (n >> 3) + (1 if (n & 7) != 0 else 0) (R11). -/
def ceil8 (n : Nat) : Nat := n / 8 + if n % 8 ≠ 0 then 1 else 0

/-! The opcode and phase tables. -/

/-- OP of NOP, ENC, DEC, CLR (R96). -/
abbrev opNop : Byte := 0x00#8
abbrev opEnc : Byte := 0x01#8
abbrev opDec : Byte := 0x02#8
abbrev opClr : Byte := 0x03#8

/-! PHASE codes (R98). -/
abbrev phIdle   : BitVec 5 := 0x00#5
abbrev phEInit  : BitVec 5 := 0x01#5
abbrev phEScan  : BitVec 5 := 0x02#5
abbrev phELeaf  : BitVec 5 := 0x03#5
abbrev phEMerge : BitVec 5 := 0x04#5
abbrev phESingle : BitVec 5 := 0x05#5
abbrev phEWalk  : BitVec 5 := 0x06#5
abbrev phESort  : BitVec 5 := 0x07#5
abbrev phECanon : BitVec 5 := 0x08#5
abbrev phESize  : BitVec 5 := 0x09#5
abbrev phEHdr   : BitVec 5 := 0x0A#5
abbrev phETbl   : BitVec 5 := 0x0B#5
abbrev phEPbc   : BitVec 5 := 0x0C#5
abbrev phEPack  : BitVec 5 := 0x0D#5
abbrev phEFlush : BitVec 5 := 0x0E#5
abbrev phEFin   : BitVec 5 := 0x0F#5
abbrev phDInit  : BitVec 5 := 0x10#5
abbrev phDMagic : BitVec 5 := 0x11#5
abbrev phDOlen  : BitVec 5 := 0x12#5
abbrev phDScnt  : BitVec 5 := 0x13#5
abbrev phDTbl   : BitVec 5 := 0x14#5
abbrev phDPbc   : BitVec 5 := 0x15#5
abbrev phDSize  : BitVec 5 := 0x16#5
abbrev phDCanon : BitVec 5 := 0x17#5
abbrev phDEmpty : BitVec 5 := 0x18#5
abbrev phDSingle : BitVec 5 := 0x19#5
abbrev phDWalk  : BitVec 5 := 0x1A#5
abbrev phDFin   : BitVec 5 := 0x1B#5

/-- The phase codes of a unit with the operation each names (R98, R227). -/
def phaseRows : UnitKind → List (BitVec 5 × Instr)
  | .E =>
    [(phIdle, .idle .E), (phEInit, .eInit), (phEScan, .eScan), (phELeaf, .eLeaf), (phEMerge, .eMerge),
     (phESingle, .eSingle), (phEWalk, .eWalk), (phESort, .eSort), (phECanon, .eCanon), (phESize, .eSize),
     (phEHdr, .eHdr), (phETbl, .eTbl), (phEPbc, .ePbc), (phEPack, .ePack), (phEFlush, .eFlush), (phEFin, .eFin)]
  | .D =>
    [(phIdle, .idle .D), (phDInit, .dInit), (phDMagic, .dMagic), (phDOlen, .dOlen), (phDScnt, .dScnt),
     (phDTbl, .dTbl), (phDPbc, .dPbc), (phDSize, .dSize), (phDCanon, .dCanon), (phDEmpty, .dEmpty),
     (phDSingle, .dSingle), (phDWalk, .dWalk), (phDFin, .dFin)]

/-! Decoding. -/

/-- A value written to CMD: OP is bits [7:0], bits [63:8] are ignored (R95). Every OP names an instruction:
0x04 .. 0xFF are RESERVED_CMD (R96). -/
def decodeCmd (u : UnitKind) (w : Word64) : Instr :=
  let op : Byte := w.setWidth 8
  if op = opNop then .nop u
  else if op = opEnc then .enc u
  else if op = opDec then .dec u
  else if op = opClr then .clr u
  else .reservedCmd u op

/-- A unit's PHASE register (R98). -/
def decodePhase (u : UnitKind) (p : BitVec 5) : Except DecodeError Instr :=
  match (phaseRows u).lookup p with
  | some i => .ok i
  | none => .error .unusedPhase

/-- The first n bytes and the rest, if there are so many. -/
def takeBytes (n : Nat) (bs : List Byte) : Except DecodeError (List Byte × List Byte) :=
  if n ≤ bs.length then .ok (bs.take n, bs.drop n) else .error .truncated

/-- n table entries, each a symbol byte and a length byte, and the rest (R84). -/
def takeEntries : Nat → List Byte → Except DecodeError (List Entry × List Byte)
  | 0, bs => .ok ([], bs)
  | n + 1, s :: l :: bs =>
    match takeEntries n bs with
    | .ok (es, rest) => .ok (⟨s, l⟩ :: es, rest)
    | .error e => .error e
  | _ + 1, _ => .error .truncated

/-- The checks of R84 and R87 on a parsed container. -/
def checkContainer (c : Container) : Except DecodeError Container :=
  if c.lengthsOk = false then .error .zeroLength
  else if c.orderOk = false then .error .tableOrder
  else if c.symbolsOk = false then .error .repeatedSymbol
  else if c.payload.length ≠ ceil8 c.pbc.toNat then .error .payloadLength
  else .ok c

/-- A byte sequence as a container, strictly left to right (R80, R88): 4, 8, 2 bytes, the table, 8 bytes,
the payload; every deviation is rejected (R92). -/
def decodeContainer (bs : List Byte) : Except DecodeError Container :=
  match takeBytes 4 bs with
  | .error e => .error e
  | .ok (magic, bs) =>
  if magic ≠ Config.magic then .error .badMagic else
  match takeBytes 8 bs with
  | .error e => .error e
  | .ok (olen, bs) =>
  match takeBytes 2 bs with
  | .error e => .error e
  | .ok (scnt, bs) =>
  if 256 < fromBe scnt then .error .symbolCount else
  match takeEntries (fromBe scnt) bs with
  | .error e => .error e
  | .ok (table, bs) =>
  match takeBytes 8 bs with
  | .error e => .error e
  | .ok (pbc, payload) =>
    checkContainer ⟨BitVec.ofNat 64 (fromBe olen), table, BitVec.ofNat 64 (fromBe pbc), payload⟩

/-- The decoder: what stands in CMD, in PHASE or in a byte sequence, as an instruction. -/
def decode : Encoded → Except DecodeError Instr
  | .cmd u w => .ok (decodeCmd u w)
  | .phase u p => decodePhase u p
  | .bytes bs =>
    match decodeContainer bs with
    | .ok c => .ok (.huf1Container c)
    | .error e => .error e

/-! Encoding. -/

/-- The bytes of a table (R84). -/
def tableBytes : List Entry → List Byte
  | [] => []
  | e :: es => e.sym :: e.len :: tableBytes es

/-- The byte sequence of a container (R80). -/
def encodeContainer (c : Container) : List Byte :=
  Config.magic ++ beBytes 8 c.origLen.toNat ++ beBytes 2 c.table.length ++ tableBytes c.table
    ++ beBytes 8 c.pbc.toNat ++ c.payload

/-- The encoder: a command as the value to write to CMD (R95, R96), a phase operation as its unit's code
(R98), a container as its bytes (R80). -/
def encode : Instr → Encoded
  | .nop u => .cmd u (opNop.setWidth 64)
  | .enc u => .cmd u (opEnc.setWidth 64)
  | .dec u => .cmd u (opDec.setWidth 64)
  | .clr u => .cmd u (opClr.setWidth 64)
  | .reservedCmd u op => .cmd u (op.setWidth 64)
  | .idle u => .phase u phIdle
  | .eInit => .phase .E phEInit
  | .eScan => .phase .E phEScan
  | .eLeaf => .phase .E phELeaf
  | .eMerge => .phase .E phEMerge
  | .eSingle => .phase .E phESingle
  | .eWalk => .phase .E phEWalk
  | .eSort => .phase .E phESort
  | .eCanon => .phase .E phECanon
  | .eSize => .phase .E phESize
  | .eHdr => .phase .E phEHdr
  | .eTbl => .phase .E phETbl
  | .ePbc => .phase .E phEPbc
  | .ePack => .phase .E phEPack
  | .eFlush => .phase .E phEFlush
  | .eFin => .phase .E phEFin
  | .dInit => .phase .D phDInit
  | .dMagic => .phase .D phDMagic
  | .dOlen => .phase .D phDOlen
  | .dScnt => .phase .D phDScnt
  | .dTbl => .phase .D phDTbl
  | .dPbc => .phase .D phDPbc
  | .dSize => .phase .D phDSize
  | .dCanon => .phase .D phDCanon
  | .dEmpty => .phase .D phDEmpty
  | .dSingle => .phase .D phDSingle
  | .dWalk => .phase .D phDWalk
  | .dFin => .phase .D phDFin
  | .huf1Container c => .bytes (encodeContainer c)

/-! The host's numbering of table words (log entry 8). -/

/-- What completes a container's 14-byte prefix with SymbolCount m: the symbols 0 .. m - 1, each of length 8,
PayloadBitCount 0 and no payload, which R84 and R87 allow; no table above 256, where none is legal (R83). -/
def completePrefix (m : Nat) : List Byte :=
  tableBytes (if m ≤ 256 then (List.range m).map (fun i => ⟨BitVec.ofNat 8 i, 8#8⟩) else [])
    ++ List.replicate 8 0#8

/-- A word of spec/opcode_table.json, put where the hardware holds it. A row of at most 5 bits is a PHASE
code. The table gives CMD rows 8 bits and PHASE rows 5, which in whole bytes are 8 as well: of the 8-bit
words, 0 .. 3 are read as NOP, ENC, DEC, CLR, the other phase codes as PHASE, the rest as a CMD value.
The 112-bit row is the prefix of a container, its first 14 bytes as one big-endian number (R91, R102); the
table gives the bytes after it no bits, and zeros would be no container (R84), so the shortest container with this
prefix is completed. -/
def tableWord (nbits w : Nat) : Encoded :=
  let phase : Encoded := .phase (if w < 0x10 then .E else .D) (BitVec.ofNat 5 w)
  let cmd : Encoded := .cmd (if w % 256 = 2 then .D else .E) (BitVec.ofNat 64 w)
  if 64 < nbits then .bytes (beBytes 14 w ++ completePrefix (w % 65536))
  else if nbits ≤ 5 then phase
  else if nbits = 8 ∧ 4 ≤ w ∧ w ≤ 0x1B then phase
  else cmd

/-- The instruction the decoder reads from a table word. -/
def decodeTableWord (nbits w : Nat) : Option Instr :=
  match decode (tableWord nbits w) with
  | .ok i => some i
  | .error _ => none

end Sys2Proof
end

