-- ==== Sys2Proof/Machine/Operands.lean ====
section
/-! DEFINITION. The operand forms of the phase operations: entries of register files by symbol, handle and
index, the bits of a codeword, the order of table entries and of nodes, container fields
(spec 00_scope.md R10 to R12, 30_encoding.md section 3). -/

namespace Sys2Proof.Machine

/-- The 256 symbols in ascending order, the range of `for s in 0..255` (R12). -/
def allSymbols : List Byte := (List.range 256).map (BitVec.ofNat 8)

/-- `X[s]`, entry s of a register file indexed by symbol (R12). -/
def symRead {α : Type} (x : SymFile α) (s : Byte) : α := x[s.toNat]'s.isLt

/-- `X[s] <- v` (R12). -/
def symWrite {α : Type} (x : SymFile α) (s : Byte) (v : α) : SymFile α := x.set s.toNat v s.isLt

/-- `NODE[h]`; none beyond NODE[510] (10_state.md R37). -/
def nodeRead (x : Vector Node 511) (h : Handle) : Option Node := x[h.toNat]?

/-- NODE[h].FREQ of either variant (R37). -/
def nodeFreq : Node → Word64
  | .leaf _ f => f
  | .internal f _ _ => f

/-- `CCL[i]`; none beyond CCL[255] (R42). -/
def cclRead (x : Vector Entry 256) (i : Nat) : Option Entry := x[i]?

/-- `CCL[i] <- e`; nothing is written beyond CCL[255]. -/
def cclWrite (x : Vector Entry 256) (i : Nat) (e : Entry) : Vector Entry 256 := x.setIfInBounds i e

/-- CCL[0..n), or none where n exceeds the 256 entries. -/
def cclPrefix (x : Vector Entry 256) (n : Nat) : Option (List Entry) :=
  if n ≤ 256 then some (x.toList.take n) else none

/-- The (length, symbol) order of table entries, strict and lexicographic (30_encoding.md R84,
45_decoder.md R195). -/
def entryPrecedes (a b : Entry) : Bool :=
  decide (a.len.toNat < b.len.toNat) ||
    (decide (a.len.toNat = b.len.toNat) && decide (a.sym.toNat < b.sym.toNat))

/-- The codeword of code value v at length L, first bit first: v[L-1], ..., v[0]
(00_scope.md R10, 42_code_generation.md R146). -/
def codeBits (v : CodeWord) : Nat → List Bool
  | 0 => []
  | n + 1 => v.getLsbD n :: codeBits v n

/-- The least symbol from `from` on whose length and code are (l, v); the two lists are LEN and CODE from
entry `from` on. For a valid code there is at most one such symbol (45_decoder.md R202, R205). -/
def matchFrom (l : Byte) (v : CodeWord) : Nat → List Byte → List CodeWord → Option Byte
  | i, l' :: ls, v' :: vs => if l' = l ∧ v' = v then some (BitVec.ofNat 8 i) else matchFrom l v (i + 1) ls vs
  | _, _, _ => none

/-- "there is s with LEN[s] == CURL and CODE[s] == CURV" (R205); the lowest, where there are several
(log entry 15). -/
def matchSymbol (len : SymFile Byte) (code : SymFile CodeWord) (l : Byte) (v : CodeWord) : Option Byte :=
  matchFrom l v 0 len.toList code.toList

/-- The handles from `from` on whose bit is set; the list is INQ from entry `from` on. -/
def membersFrom : Nat → List Bool → List Handle
  | _, [] => []
  | i, b :: bs => if b then BitVec.ofNat 9 i :: membersFrom (i + 1) bs else membersFrom (i + 1) bs

/-- `{h : INQ[h] = 1}` in ascending order (10_state.md R39). -/
def members (inq : Vector Bool 511) : List Handle := membersFrom 0 inq.toList

/-- NODE[h].FREQ; 0 for the one handle without an entry, which is in no INQ. -/
def freqAt (node : Vector Node 511) (h : Handle) : Nat :=
  match nodeRead node h with
  | some n => (nodeFreq n).toNat
  | none => 0

/-- The priority order: (NODE[h].FREQ, h) lexicographic, smaller first (41_tree_build.md R123). -/
def keyLess (node : Vector Node 511) (a b : Handle) : Bool :=
  decide (freqAt node a < freqAt node b) ||
    (decide (freqAt node a = freqAt node b) && decide (a.toNat < b.toNat))

/-- `min_by (NODE[h].FREQ, h)` over a non-empty collection, given as one member and the others (R12, R123). -/
def minHandle (node : Vector Node 511) (best : Handle) : List Handle → Handle
  | [] => best
  | h :: hs => minHandle node (if keyLess node h best then h else best) hs

/-- `rem`: the container bytes not yet parsed, IN_LEN - RPTR (45_decoder.md R190). -/
def remBytes (u : UnitD) : Nat := u.port.inLen.toNat - u.rptr.toNat

/-- The sum over s of FREQ[s] x LEN[s] (42_code_generation.md R150). -/
def payloadBits (freq : SymFile Word64) (len : SymFile Byte) : Nat :=
  (List.zipWith (fun (f : Word64) (l : Byte) => f.toNat * l.toNat) freq.toList len.toList).sum

/-- Every present symbol once, by (length ascending, symbol ascending): for L in 1..255, for s in 0..255,
those with LEN[s] = L (R140). -/
def sortedEntries (len : SymFile Byte) : List Entry :=
  let present := (List.zipWith Entry.mk allSymbols len.toList).filter (fun e => e.len ≠ 0#8)
  (List.range 255).flatMap (fun k => present.filter (fun e => e.len.toNat = k + 1))

end Sys2Proof.Machine
end

