-- ==== Sys2Proof/Machine/Ops.lean ====
section
/-! DEFINITION. The named operations shared by the meanings: the byte memories, MemRead and MemWrite, the
acceptance of a command, the error exit (taking an exception) and the completion, the bitstream primitives,
the canonical regeneration (spec 20_memory.md section 2, 60_exceptions.md R250, 43_bitstream.md). -/

namespace Sys2Proof.Machine

/-! Byte memories. -/

/-- The canonical form: indices strictly rising. An unlisted index has no value, so no entry can equal what
an unlisted index reads as. -/
abbrev Memory.wf (m : Memory) : Prop := m.Pairwise (fun x y => x.1 < y.1)

/-- The byte at an index; none where nothing has been written since reset (10_state.md R51). -/
def Memory.read : Memory → Nat → Option Byte
  | [], _ => none
  | (k, b) :: m, a => if k = a then some b else Memory.read m a

/-- Write one byte, keeping the form. -/
def Memory.write : Memory → Nat → Byte → Memory
  | [], a, b => [(a, b)]
  | (k, c) :: m, a, b =>
    if a < k then (a, b) :: (k, c) :: m
    else if a = k then (a, b) :: m
    else (k, c) :: Memory.write m a b

/-- Write bytes at a, a + 1, ... in index order (20_memory.md R65). -/
def Memory.writeList : Memory → Nat → List Byte → Memory
  | m, _, [] => m
  | m, a, b :: bs => Memory.writeList (Memory.write m a b) (a + 1) bs

/-! Results. -/

/-- What reading an operand gives: a value, or a stop. -/
inductive Got (α : Type) where
  | val (a : α)
  | fault (f : Fault)
  | refuse (r : Refusal)
deriving Repr

/-- What a phase operation gives: the unit after it, the unit at a `raise` with its cause
(60_exceptions.md R250), or a stop. -/
inductive Res (α : Type) where
  | ok (u : α)
  | raised (u : α) (c : Cause)
  | fault (f : Fault)
  | refuse (r : Refusal)
deriving Repr

/-- Go on with the value read, or stop as the reading did. -/
def Got.andThen {α β : Type} (x : Got α) (f : α → Got β) : Got β :=
  match x with
  | .val a => f a
  | .fault e => .fault e
  | .refuse r => .refuse r

/-- Go on in a phase operation with the value read, or stop as the reading did. -/
def Got.thenDo {α β : Type} (x : Got α) (f : α → Res β) : Res β :=
  match x with
  | .val a => f a
  | .fault e => .fault e
  | .refuse r => .refuse r

/-- An optional value, or the fault that its absence is. -/
def Got.ofOption {α : Type} (f : Fault) (x : Option α) : Got α :=
  match x with
  | some a => .val a
  | none => .fault f

/-! The unit's memory primitives. -/

/-- The n bytes from index a on, in index order; refused at the first that was never written
(70_reset_and_hazards.md R274, V5). -/
def readBytes (m : Memory) : Nat → Nat → Got (List Byte)
  | _, 0 => .val []
  | a, n + 1 =>
    match Memory.read m a with
    | none => .refuse .inputByteUnwritten
    | some b => (readBytes m (a + 1) n).andThen (fun bs => .val (b :: bs))

/-- `MemRead(a, n)`: IBUF[a..a+n), with a + n <= IN_LEN <= MAX_IN (20_memory.md R64). -/
def memRead (p : Port) (a n : Nat) : Got (List Byte) :=
  if a + n ≤ p.inLen.toNat ∧ a + n ≤ p.capIn.toNat then readBytes p.ibuf a n else .fault .readOutOfRange

/-- `MemRead(a, 1)`, one byte value (00_scope.md R12). -/
def memReadByte (p : Port) (a : Nat) : Got Byte :=
  (memRead p a 1).andThen (fun bs => .val (bs.headD 0#8))

/-- `MemWrite(a, n, v)`: OBUF[a..a+n) <- v, with a + n <= MAX_OUT (R65). -/
def memWrite (p : Port) (a : Nat) (bs : List Byte) : Got Port :=
  if a + bs.length ≤ p.capOut.toNat then .val { p with obuf := Memory.writeList p.obuf a bs }
  else .fault .writeOutOfRange

/-! Entering and leaving a command. -/

/-- Acceptance of ENC or DEC (R222, R223): the old result and record cleared, BUSY set, the first phase. -/
def acceptCommand (p : Port) (first : BitVec 5) : Port :=
  { clearResult p with busy := true, phase := first }

/-- TAKING AN EXCEPTION: the error exit of `raise` (60_exceptions.md R250), one atomic step. Nothing is
saved: there is no handler, no vector and no mode (R250). -/
def errorExit (p : Port) (c : Cause) : Port :=
  { p with
    errCode := causeCode c, errSub := causeSub c, outLen := 0#64,
    err := true, done := true, busy := false, nogain := false, phase := phIdle }

/-- THE RETURN: acknowledgement of the record, by CLR (R224, R252): it clears, and the unit is idle already. -/
def acknowledge (p : Port) : Port := clearResult p

/-- The successful completion (44_encoder.md R182, 45_decoder.md R206, 46 R233), one atomic step. -/
def complete (p : Port) (outLen : Word64) (nogain : Bool) : Port :=
  { p with outLen := outLen, nogain := nogain, done := true, busy := false, phase := phIdle }

/-- `PHASE <- q` on unit E. -/
def UnitE.goto (u : UnitE) (q : BitVec 5) : UnitE := { u with port := { u.port with phase := q } }

/-- `PHASE <- q` on unit D. -/
def UnitD.goto (u : UnitD) (q : BitVec 5) : UnitD := { u with port := { u.port with phase := q } }

/-! The two units in the machine. -/

/-- The machine with unit E replaced. -/
def State.withE (s : State) (u : UnitE) : State := { s with e := u }

/-- The machine with unit D replaced. -/
def State.withD (s : State) (u : UnitD) : State := { s with d := u }

/-- The common part of a unit. -/
def State.port (s : State) : UnitKind → Port
  | .E => s.e.port
  | .D => s.d.port

/-- The machine with the common part of a unit replaced. -/
def State.withPort (s : State) (k : UnitKind) (p : Port) : State :=
  match k with
  | .E => s.withE { s.e with port := p }
  | .D => s.withD { s.d with port := p }

/-- The machine with the next free value taken. -/
def State.takeFree (s : State) : State := { s with free := s.free + 1 }

/-- The machine with one more read seen by the host. -/
def State.see (s : State) (x : Seen) : State := { s with seen := x :: s.seen }

/-- A phase operation of unit E ends: with its result, or through the error exit. -/
def State.finishE (s : State) (r : Res UnitE) : Host.Outcome State Fault Refusal :=
  match r with
  | .ok u => .next (s.withE u)
  | .raised u c => .next (s.withE { u with port := errorExit u.port c })
  | .fault f => .fault f
  | .refuse r => .refused r

/-- A phase operation of unit D ends: with its result, or through the error exit. -/
def State.finishD (s : State) (r : Res UnitD) : Host.Outcome State Fault Refusal :=
  match r with
  | .ok u => .next (s.withD u)
  | .raised u c => .next (s.withD { u with port := errorExit u.port c })
  | .fault f => .fault f
  | .refuse r => .refused r

/-! Writing to OBUF from unit E. -/

/-- `MemWrite(WPTR, n, v)` and `WPTR <- WPTR + n`. -/
def UnitE.emit (u : UnitE) (bs : List Byte) : Got UnitE :=
  (memWrite u.port u.wptr.toNat bs).andThen (fun p =>
    .val { u with port := p, wptr := u.wptr + BitVec.ofNat 64 bs.length })

/-! The bitstream writer (43_bitstream.md R156 to R159). -/

/-- `BsInit(base)` (R156). -/
def bsInit (u : UnitE) (base : Word64) : UnitE :=
  { u with acc := 0#8, nbits := 0#3, bitcnt := 0#64, wptr := base }

/-- ACC with bit b put at position 7 - NBITS (R157). -/
def accWith (acc : Byte) (nbits : BitVec 3) (b : Bool) : Byte :=
  acc ||| ((if b then 1#8 else 0#8) <<< (7 - nbits.toNat))

/-- `PutBit(b)` (R157). -/
def putBit (u : UnitE) (b : Bool) : Got UnitE :=
  let u : UnitE := { u with acc := accWith u.acc u.nbits b, bitcnt := u.bitcnt + 1#64 }
  if u.nbits = 7#3 then
    (u.emit [u.acc]).andThen (fun u => .val { u with acc := 0#8, nbits := 0#3 })
  else .val { u with nbits := u.nbits + 1#3 }

/-- The bits of a string, one PutBit each. -/
def putBitList (u : UnitE) : List Bool → Got UnitE
  | [] => .val u
  | b :: bs => (putBit u b).andThen (fun u => putBitList u bs)

/-- `PutBits(v, L)`: the L-bit string of v, most significant bit first (R158). -/
def putBits (u : UnitE) (v : CodeWord) (l : Byte) : Got UnitE := putBitList u (codeBits v l.toNat)

/-- `Flush()` (R159). -/
def flushBits (u : UnitE) : Got UnitE :=
  if u.nbits = 0#3 then .val u
  else (u.emit [u.acc]).andThen (fun u => .val { u with acc := 0#8, nbits := 0#3 })

/-! The bitstream reader (R161). -/

/-- `GetBit()`: bit 7 - (BITPOS & 7) of IBUF[PAYBASE + (BITPOS >> 3)]; BITPOS advances (R161). -/
def getBit (u : UnitD) : Got (Bool × UnitD) :=
  (memReadByte u.port (u.paybase.toNat + u.bitpos.toNat / 8)).andThen (fun byte =>
    .val (byte.getLsbD (7 - u.bitpos.toNat % 8), { u with bitpos := u.bitpos + 1#64 }))

/-! The canonical regeneration, the same on both units (42_code_generation.md R135, R142). -/

/-- How the regeneration ends. -/
inductive CanonEnd where
  /-- Every entry has its code. -/
  | done
  /-- An entry's length is below its predecessor's: the shift by a negative delta is not defined. -/
  | descends
  /-- RUN >= 2^L at an entry of length L (45_decoder.md R201). -/
  | overSubscribed
deriving DecidableEq, Repr

/-- The loop of R142 and R201 over the entries left, with the length of the entry before (none at i = 0):
CODE and RUN as written up to where it ends. -/
def canonLoop (code : SymFile CodeWord) (run : RunWord) (prev : Option Nat) :
    List Entry → SymFile CodeWord × RunWord × CanonEnd
  | [] => (code, run, .done)
  | e :: es =>
    let l := e.len.toNat
    if l < prev.getD l then (code, run, .descends)
    else
      let run := run <<< (l - prev.getD l)
      if run.toNat < 2 ^ l then
        canonLoop (symWrite code e.sym (run.setWidth 255)) (run + 1#256) (some l) es
      else (code, run, .overSubscribed)

end Sys2Proof.Machine
end

