-- ==== Sys2Proof/Machine/CodeGen.lean ====
section
/-! DEFINITION. Canonical-code generation on unit E: E_WALK, E_SORT, E_CANON
(spec 42_code_generation.md). -/

namespace Sys2Proof.Machine

/-- `visit(h, p)` (R136), with the number of edges that may still follow: a path has at most 255 edges
(41_tree_build.md R128 (e)); depth 0 stands for the edge beyond them. -/
def visit : Nat → UnitE → Handle → List Bool → Got UnitE
  | 0, _, _, _ => .fault .treeTooDeep
  | n + 1, u, h, p =>
    match nodeRead u.node h with
    | none => .fault .arenaIndex
    | some (.leaf s _) =>
      .val { u with len := symWrite u.len s (BitVec.ofNat 8 p.length), tpat := symWrite u.tpat s p }
    | some (.internal _ l r) =>
      (visit n u l (p ++ [false])).andThen (fun u => visit n u r (p ++ [true]))

/-- E_WALK (R136). -/
def phaseEWalk (u : UnitE) : Res UnitE :=
  (visit 256 u u.root []).thenDo (fun u => .ok (u.goto phESort))

/-- `CCL[k] <- e`, `CCL[k+1] <- e'`, ... (R140). -/
def cclWriteList (x : Vector Entry 256) : Nat → List Entry → Vector Entry 256
  | _, [] => x
  | k, e :: es => cclWriteList (cclWrite x k e) (k + 1) es

/-- E_SORT (R140). -/
def phaseESort (u : UnitE) : Res UnitE :=
  .ok (UnitE.goto { u with ccl := cclWriteList u.ccl 0 (sortedEntries u.len) } phECanon)

/-- How E_CANON ends: CODE and RUN written, E_SIZE next; a code that does not fit its length is a failed
self-check (R148, V14, log entry 13). -/
def canonEndE (u : UnitE) : SymFile CodeWord × RunWord × CanonEnd → Res UnitE
  | (code, run, .done) => .ok (UnitE.goto { u with code := code, run := run } phESize)
  | (_, _, .descends) => .fault .selfCheckFailed
  | (_, _, .overSubscribed) => .fault .selfCheckFailed

/-- E_CANON (R142). -/
def phaseECanon (u : UnitE) : Res UnitE :=
  (Got.ofOption .cclIndex (cclPrefix u.ccl u.nsym.toNat)).thenDo (fun es =>
    canonEndE u (canonLoop u.code 0#256 none es))

/-- E_WALK. -/
def execEWalk (s : State) : Host.Outcome State Fault Refusal := s.finishE (phaseEWalk s.e)

/-- E_SORT. -/
def execESort (s : State) : Host.Outcome State Fault Refusal := s.finishE (phaseESort s.e)

/-- E_CANON. -/
def execECanon (s : State) : Host.Outcome State Fault Refusal := s.finishE (phaseECanon s.e)

end Sys2Proof.Machine
end

