-- ==== Sys2Proof/Machine/Commands.lean ====
section
/-! DEFINITION. The host commands NOP, ENC, DEC, CLR, the refused opcodes, and IDLE
(spec 46_commands_sequencer.md). A CMD write while BUSY = 1 changes nothing (R225). -/

namespace Sys2Proof.Machine

/-- NOP: no state changes, including STATUS and ERR (R221). -/
def execNop (_ : UnitKind) (s : State) : Host.Outcome State Fault Refusal := .next s

/-- ENC: unit E accepts and starts at E_INIT (R222); unit D refuses (R226). -/
def execEnc (u : UnitKind) (s : State) : Host.Outcome State Fault Refusal :=
  if (s.port u).busy then .next s
  else match u with
    | .E => .next (s.withPort .E (acceptCommand s.e.port phEInit))
    | .D => .next (s.withPort .D (recordRefused s.d.port))

/-- DEC: unit D accepts and starts at D_INIT (R223); unit E refuses (R226). -/
def execDec (u : UnitKind) (s : State) : Host.Outcome State Fault Refusal :=
  if (s.port u).busy then .next s
  else match u with
    | .E => .next (s.withPort .E (recordRefused s.e.port))
    | .D => .next (s.withPort .D (acceptCommand s.d.port phDInit))

/-- CLR: acknowledge a result or an error (R224). -/
def execClr (u : UnitKind) (s : State) : Host.Outcome State Fault Refusal :=
  if (s.port u).busy then .next s else .next (s.withPort u (acknowledge (s.port u)))

/-- A reserved opcode is refused by the hardware: IllegalCommand is recorded (R226). -/
def execReservedCmd (u : UnitKind) (_ : Byte) (s : State) : Host.Outcome State Fault Refusal :=
  if (s.port u).busy then .next s else .next (s.withPort u (recordRefused (s.port u)))

/-- IDLE: the unit performs no operation (R220). -/
def execIdle (_ : UnitKind) (s : State) : Host.Outcome State Fault Refusal := .next s

end Sys2Proof.Machine
end

