-- ==== Sys2Proof/Machine/Decoder.lean ====
section
/-! DEFINITION. The companion decoder: D_INIT to D_FIN (spec 45_decoder.md). -/

namespace Sys2Proof.Machine

/-- D_INIT (R191). -/
def phaseDInit (u : UnitD) : Res UnitD :=
  if u.port.capIn.toNat < u.port.inLen.toNat then .raised u .inputTooLarge
  else .ok (UnitD.goto
    { u with
      len := Vector.replicate 256 0#8,
      rptr := 0#64, bitpos := 0#64, ocnt := 0#64, curv := 0#255, curl := 0#8 } phDMagic)

/-- D_MAGIC (R192). -/
def phaseDMagic (u : UnitD) : Res UnitD :=
  if remBytes u < 4 then .raised u .truncatedHeader
  else (memRead u.port 0 4).thenDo (fun bs =>
    if bs ≠ Config.magic then .raised u .badMagic
    else .ok (UnitD.goto { u with rptr := 4#64 } phDOlen))

/-- D_OLEN (R193). -/
def phaseDOlen (u : UnitD) : Res UnitD :=
  if remBytes u < 8 then .raised u .truncatedHeader
  else (memRead u.port 4 8).thenDo (fun bs =>
    .ok (UnitD.goto { u with origlen := BitVec.ofNat 64 (fromBe bs), rptr := 12#64 } phDScnt))

/-- D_SCNT (R194): SYMCNT and RPTR are written before the test. -/
def phaseDScnt (u : UnitD) : Res UnitD :=
  if remBytes u < 2 then .raised u .truncatedHeader
  else (memRead u.port 12 2).thenDo (fun bs =>
    let u : UnitD := { u with symcnt := BitVec.ofNat 16 (fromBe bs), rptr := 14#64 }
    if 256 < u.symcnt.toNat then .raised u .unsupportedSymbolCount else .ok (u.goto phDTbl))

/-- The order test of D_TBL: entry i does not strictly follow its predecessor in (length, symbol) (R195). -/
def outOfOrder (u : UnitD) (i : Nat) (e : Entry) : Bool :=
  match i with
  | 0 => false
  | j + 1 =>
    match cclRead u.ccl j with
    | some prev => !entryPrecedes prev e
    | none => false

/-- The tests and writes of D_TBL for entry i, read as e: length, order, repeated symbol (R195). -/
def tableEntry (u : UnitD) (i : Nat) (e : Entry) : Res UnitD :=
  if e.len = 0#8 then .raised u .badCodeLength
  else if outOfOrder u i e = true then .raised u .badTableOrder
  else if symRead u.len e.sym ≠ 0#8 then .raised u .badTableOrder
  else if i < 256 then
    .ok { u with
      ccl := cclWrite u.ccl i e, len := symWrite u.len e.sym e.len, rptr := u.rptr + 2#64 }
  else .fault .cclIndex

/-- D_TBL's loop: n entries left, the next is entry i (R195). -/
def tableLoop : Nat → Nat → UnitD → Res UnitD
  | 0, _, u => .ok u
  | n + 1, i, u =>
    (memRead u.port u.rptr.toNat 2).thenDo (fun bs =>
      match tableEntry u i ⟨bs.headD 0#8, bs.getD 1 0#8⟩ with
      | .ok u => tableLoop n (i + 1) u
      | r => r)

/-- D_TBL (R195). -/
def phaseDTbl (u : UnitD) : Res UnitD :=
  if remBytes u < 2 * u.symcnt.toNat then .raised u .inconsistentSizes
  else match tableLoop u.symcnt.toNat 0 u with
    | .ok u => .ok (UnitD.goto { u with paybase := BitVec.ofNat 64 (22 + 2 * u.symcnt.toNat) } phDPbc)
    | r => r

/-- D_PBC (R197). -/
def phaseDPbc (u : UnitD) : Res UnitD :=
  if remBytes u < 8 then .raised u .truncatedHeader
  else (memRead u.port u.rptr.toNat 8).thenDo (fun bs =>
    .ok (UnitD.goto { u with pbc := BitVec.ofNat 64 (fromBe bs), rptr := u.rptr + 8#64 } phDSize))

/-- D_SIZE (R198 to R200). -/
def phaseDSize (u : UnitD) : Res UnitD :=
  if remBytes u ≠ ceil8 u.pbc.toNat then .raised u .inconsistentSizes
  else if u.port.capOut.toNat < u.origlen.toNat then .raised u .outputTooLarge
  else .ok (u.goto (if u.symcnt = 0#16 then phDEmpty else if u.symcnt = 1#16 then phDSingle else phDCanon))

/-- The final test of D_CANON and its end: RUN = 2^L at the last length L, the sum of 2^(-length) being 1, or
InvalidCode (R201). With no entry the sum is 0, not 1: incomplete (log entry 14). -/
def canonEndD (u : UnitD) (es : List Entry) : SymFile CodeWord × RunWord × CanonEnd → Res UnitD
  | (code, run, .done) =>
    if some run.toNat = es.getLast?.map (fun e => 2 ^ e.len.toNat) then
      .ok (UnitD.goto { u with code := code, run := run } phDWalk)
    else .raised { u with code := code, run := run } .invalidCode
  | (code, run, .overSubscribed) => .raised { u with code := code, run := run } .invalidCode
  | (_, _, .descends) => .fault .lengthsDescend

/-- D_CANON (R201). -/
def phaseDCanon (u : UnitD) : Res UnitD :=
  (Got.ofOption .cclIndex (cclPrefix u.ccl u.symcnt.toNat)).thenDo (fun es =>
    canonEndD u es (canonLoop u.code 0#256 none es))

/-- D_EMPTY (R203). -/
def phaseDEmpty (u : UnitD) : Res UnitD :=
  if u.origlen ≠ 0#64 then .raised u .inconsistentSizes else .ok (u.goto phDFin)

/-- `MemWrite(OCNT, 1, s) ; OCNT <- OCNT + 1` (R204, R205). -/
def emitSymbol (u : UnitD) (s : Byte) : Got UnitD :=
  (memWrite u.port u.ocnt.toNat [s]).andThen (fun p =>
    .val { u with port := p, ocnt := u.ocnt + 1#64 })

/-- D_SINGLE's loop: n = ORIGLEN - OCNT symbols left (R204). -/
def singleLoop (s : Byte) : Nat → UnitD → Got UnitD
  | 0, u => .val u
  | n + 1, u => (emitSymbol u s).andThen (fun u => singleLoop s n u)

/-- D_SINGLE (R204): the payload is not examined. -/
def phaseDSingle (u : UnitD) : Res UnitD :=
  (singleLoop (symRead u.ccl 0#8).sym (u.origlen.toNat - u.ocnt.toNat) u).thenDo (fun u =>
    .ok (UnitD.goto { u with bitpos := u.pbc } phDFin))

/-- The rest of an iteration of D_WALK's loop, for the bit b just read: one edge down, and at a leaf the
symbol is emitted and the walk is back at the root (R205). -/
def walkBit (u : UnitD) (b : Bool) : Got UnitD :=
  let u : UnitD :=
    { u with curv := (u.curv <<< 1) ||| (if b then 1#255 else 0#255), curl := u.curl + 1#8 }
  match matchSymbol u.len u.code u.curl u.curv with
  | some s => (emitSymbol u s).andThen (fun u => .val { u with curv := 0#255, curl := 0#8 })
  | none => .val u

/-- D_WALK's loop (R205). n = PBC - BITPOS is how many bits are left, so that BITPOS = PBC exactly at n = 0. -/
def walkLoop : Nat → UnitD → Res UnitD
  | 0, u => if u.ocnt.toNat < u.origlen.toNat then .raised u .bitCountMismatch else .ok u
  | n + 1, u =>
    if u.ocnt.toNat < u.origlen.toNat then
      (getBit u).thenDo (fun r => (walkBit r.2 r.1).thenDo (fun u => walkLoop n u))
    else .ok u

/-- D_WALK (R205). -/
def phaseDWalk (u : UnitD) : Res UnitD :=
  match walkLoop (u.pbc - u.bitpos).toNat u with
  | .ok u => .ok (u.goto phDFin)
  | r => r

/-- D_FIN (R206): the final test and the successful completion of DEC; NOGAIN stays 0. -/
def phaseDFin (u : UnitD) : Res UnitD :=
  if u.bitpos ≠ u.pbc then .raised u .bitCountMismatch
  else .ok { u with port := complete u.port u.origlen u.port.nogain }

/-- D_INIT. -/
def execDInit (s : State) : Host.Outcome State Fault Refusal := s.finishD (phaseDInit s.d)

/-- D_MAGIC. -/
def execDMagic (s : State) : Host.Outcome State Fault Refusal := s.finishD (phaseDMagic s.d)

/-- D_OLEN. -/
def execDOlen (s : State) : Host.Outcome State Fault Refusal := s.finishD (phaseDOlen s.d)

/-- D_SCNT. -/
def execDScnt (s : State) : Host.Outcome State Fault Refusal := s.finishD (phaseDScnt s.d)

/-- D_TBL. -/
def execDTbl (s : State) : Host.Outcome State Fault Refusal := s.finishD (phaseDTbl s.d)

/-- D_PBC. -/
def execDPbc (s : State) : Host.Outcome State Fault Refusal := s.finishD (phaseDPbc s.d)

/-- D_SIZE. -/
def execDSize (s : State) : Host.Outcome State Fault Refusal := s.finishD (phaseDSize s.d)

/-- D_CANON. -/
def execDCanon (s : State) : Host.Outcome State Fault Refusal := s.finishD (phaseDCanon s.d)

/-- D_EMPTY. -/
def execDEmpty (s : State) : Host.Outcome State Fault Refusal := s.finishD (phaseDEmpty s.d)

/-- D_SINGLE. -/
def execDSingle (s : State) : Host.Outcome State Fault Refusal := s.finishD (phaseDSingle s.d)

/-- D_WALK. -/
def execDWalk (s : State) : Host.Outcome State Fault Refusal := s.finishD (phaseDWalk s.d)

/-- D_FIN. -/
def execDFin (s : State) : Host.Outcome State Fault Refusal := s.finishD (phaseDFin s.d)

end Sys2Proof.Machine
end

