-- ==== Sys2Proof/Machine/Encoder.lean ====
section
/-! DEFINITION. Emitting the container: E_SIZE, E_HDR, E_TBL, E_PBC, E_PACK, E_FLUSH, E_FIN
(spec 44_encoder.md R175 to R182). -/

namespace Sys2Proof.Machine

/-- The container's length in bytes (R175, 30_encoding.md R87). -/
def containerSize (nsym pbc : Nat) : Nat := 22 + 2 * nsym + ceil8 pbc

/-- E_SIZE (R175): PBC and OSIZE are written, then the check is made. -/
def phaseESize (u : UnitE) : Res UnitE :=
  let pbc := payloadBits u.freq u.len
  let osize := containerSize u.nsym.toNat pbc
  let u : UnitE := { u with pbc := BitVec.ofNat 64 pbc, osize := BitVec.ofNat 64 osize }
  if u.port.capOut.toNat < osize then .raised u .outputTooLarge else .ok (u.goto phEHdr)

/-- E_HDR (R177): Magic, OriginalLength, SymbolCount. -/
def phaseEHdr (u : UnitE) : Res UnitE :=
  (memWrite u.port 0 Config.magic).thenDo (fun p =>
  (memWrite p 4 (beBytes 8 u.port.inLen.toNat)).thenDo (fun p =>
  (memWrite p 12 (beBytes 2 u.nsym.toNat)).thenDo (fun p =>
    .ok (UnitE.goto { u with port := p, wptr := 14#64 } phETbl))))

/-- E_TBL's loop (R178). -/
def emitEntries (u : UnitE) : List Entry → Got UnitE
  | [] => .val u
  | e :: es => (u.emit [e.sym, e.len]).andThen (fun u => emitEntries u es)

/-- E_TBL (R178). -/
def phaseETbl (u : UnitE) : Res UnitE :=
  (Got.ofOption .cclIndex (cclPrefix u.ccl u.nsym.toNat)).thenDo (fun es =>
    (emitEntries u es).thenDo (fun u => .ok (u.goto phEPbc)))

/-- E_PBC (R179). -/
def phaseEPbc (u : UnitE) : Res UnitE :=
  (u.emit (beBytes 8 u.pbc.toNat)).thenDo (fun u => .ok (u.goto phEPack))

/-- One iteration of E_PACK's loop, for the byte b at IDX (R180). -/
def packByte (u : UnitE) (b : Byte) : Got UnitE :=
  (putBits u (symRead u.code b) (symRead u.len b)).andThen (fun u => .val { u with idx := u.idx + 1#64 })

/-- E_PACK's loop (R180). -/
def packBytes (u : UnitE) : List Byte → Got UnitE
  | [] => .val u
  | b :: bs => (packByte u b).andThen (fun u => packBytes u bs)

/-- E_PACK (R180): the second pass over IBUF[0..IN_LEN), packing the canonical codes (42 R138). -/
def phaseEPack (u : UnitE) : Res UnitE :=
  (memRead u.port 0 u.port.inLen.toNat).thenDo (fun bs =>
    (packBytes { bsInit u u.wptr with idx := 0#64 } bs).thenDo (fun u => .ok (u.goto phEFlush)))

/-- E_FLUSH (R181). -/
def phaseEFlush (u : UnitE) : Res UnitE := (flushBits u).thenDo (fun u => .ok (u.goto phEFin))

/-- E_FIN (R182): the successful completion of ENC. -/
def phaseEFin (u : UnitE) : Res UnitE :=
  .ok { u with port := complete u.port u.osize (noGainFlag u.osize u.port.inLen) }

/-- E_SIZE. -/
def execESize (s : State) : Host.Outcome State Fault Refusal := s.finishE (phaseESize s.e)

/-- E_HDR. -/
def execEHdr (s : State) : Host.Outcome State Fault Refusal := s.finishE (phaseEHdr s.e)

/-- E_TBL. -/
def execETbl (s : State) : Host.Outcome State Fault Refusal := s.finishE (phaseETbl s.e)

/-- E_PBC. -/
def execEPbc (s : State) : Host.Outcome State Fault Refusal := s.finishE (phaseEPbc s.e)

/-- E_PACK. -/
def execEPack (s : State) : Host.Outcome State Fault Refusal := s.finishE (phaseEPack s.e)

/-- E_FLUSH. -/
def execEFlush (s : State) : Host.Outcome State Fault Refusal := s.finishE (phaseEFlush s.e)

/-- E_FIN. -/
def execEFin (s : State) : Host.Outcome State Fault Refusal := s.finishE (phaseEFin s.e)

end Sys2Proof.Machine
end

