-- ==== Sys2Proof/Machine/Host.lean ====
section
/-! DEFINITION. The host's accesses that are no instruction: REG reads and writes, the buffers, POLL, COPY,
reset (spec 70_reset_and_hazards.md R287, 20_memory.md, 10_state.md section 2), and the container presented
to unit D. -/

namespace Sys2Proof.Machine

/-! REG space. -/

/-- A REG read: the register's value, no side effect (20_memory.md R63); none at an offset that is not one
of the eight (R69). -/
def readReg (k : UnitKind) (p : Port) (off : Nat) : Option Word64 :=
  if off = 0x00 then some 0#64
  else if off = 0x08 then some (statusWord p)
  else if off = 0x10 then some (errWord p)
  else if off = 0x18 then some p.inLen
  else if off = 0x20 then some p.outLen
  else if off = 0x28 then some p.capIn
  else if off = 0x30 then some p.capOut
  else if off = 0x38 then some (unitIdWord k)
  else none

/-- A REG write other than a command issue: IN_LEN is written while BUSY = 0 (10_state.md R30); a write to
a read-only register is ignored (R21), and so is one to CMD while BUSY = 1 (R225). -/
def writeReg (p : Port) (off : Nat) (v : Word64) : Option Port :=
  if off = 0x18 then some (if p.busy then p else { p with inLen := v })
  else if off = 0x00 ∨ off = 0x08 ∨ off = 0x10 ∨ off = 0x20 ∨ off = 0x28 ∨ off = 0x30 ∨ off = 0x38 then some p
  else none

/-! The buffers. -/

/-- The byte the rules give to a host read of OBUF[i]: a byte of a finished result (R62, R287); none where
the value is unspecified: while BUSY, at or above OUT_LEN, after an error or CLR (R278, R279). -/
def obufResult (p : Port) (i : Nat) : Option Byte :=
  if p.busy = false ∧ p.done = true ∧ i < p.outLen.toNat then Memory.read p.obuf i else none

/-- The byte the rules give to a host read of IBUF[i] (R61); none while the unit owns IBUF (R276) and
where nothing was written (R51). -/
def ibufResult (p : Port) (i : Nat) : Option Byte :=
  if p.busy then none else Memory.read p.ibuf i

/-- The byte a host read returns: the one given, or a free value (log entry 3). -/
def byteOrFree (s : State) : Option Byte → Byte × State
  | some b => (b, s)
  | none => (Config.freeByte s.free, s.takeFree)

/-- The host writes IBUF[i] (R61, R287; refused while BUSY, R277). -/
def writeIbuf (s : State) (u : UnitKind) (i : Nat) (b : Byte) : Host.Outcome State Fault Refusal :=
  let p := s.port u
  if p.busy then .refused .ibufWriteWhileBusy
  else if i < p.capIn.toNat then .next (s.withPort u { p with ibuf := Memory.write p.ibuf i b })
  else .refused .indexOutOfRange

/-- The host reads OBUF[i]: the byte, and the machine after. -/
def readObuf (s : State) (u : UnitKind) (i : Nat) : Got (Byte × State) :=
  if i < (s.port u).capOut.toNat then
    let r := byteOrFree s (obufResult (s.port u) i)
    .val (r.1, r.2.see (.obuf u i r.1))
  else .refuse .indexOutOfRange

/-- The host reads IBUF[i] back: the byte, and the machine after. -/
def readIbuf (s : State) (u : UnitKind) (i : Nat) : Got (Byte × State) :=
  if i < (s.port u).capIn.toNat then
    let r := byteOrFree s (ibufResult (s.port u) i)
    .val (r.1, r.2.see (.ibuf u i r.1))
  else .refuse .indexOutOfRange

/-- What a read leaves, as an outcome. -/
def afterRead (r : Got (Byte × State)) : Host.Outcome State Fault Refusal :=
  match r with
  | .val x => .next x.2
  | .fault f => .fault f
  | .refuse r => .refused r

/-! POLL, COPY, reset. -/

/-- `POLL U`: one read of STATUS; the line stays while BUSY = 1 (30_encoding.md R100). -/
def pollUnit (s : State) (u : UnitKind) : State :=
  let s' := s.see (.reg u 0x08 (statusWord (s.port u)))
  if (s.port u).busy then { s' with script := .poll u :: s'.script } else s'

/-- The bytes of `COPY E -> D`: n bytes left, from index i (R101). -/
def copyLoop : Nat → Nat → State → Host.Outcome State Fault Refusal
  | 0, _, s => .next s
  | n + 1, i, s =>
    match readObuf s .E i with
    | .val (b, s) =>
      match writeIbuf s .D i b with
      | .next s => copyLoop n (i + 1) s
      | r => r
    | .fault f => .fault f
    | .refuse r => .refused r

/-- `COPY E -> D`: E.OBUF[0..E.OUT_LEN) to D.IBUF[0], then D.IN_LEN <- E.OUT_LEN (R101). -/
def copyResult (s : State) : Host.Outcome State Fault Refusal :=
  let n := s.e.port.outLen
  match copyLoop n.toNat 0 (s.see (.reg .E 0x20 n)) with
  | .next s => .next (s.withPort .D (if s.d.port.busy then s.d.port else { s.d.port with inLen := n }))
  | r => r

/-- A unit's reset input asserted and released: the state of R51, a running command abandoned (R270, R271);
the buffers' contents become unspecified (log entry 18). -/
def resetUnit (s : State) : UnitKind → State
  | .E => s.withE (UnitE.reset s.e.port.capIn s.e.port.capOut)
  | .D => s.withD (UnitD.reset s.d.port.capIn s.d.port.capOut)

/-- The data part of the line `DECODE`: the bytes to D.IBUF from index 0 on, then their number to D.IN_LEN
(30_encoding.md R101, 70_reset_and_hazards.md R274), in one action (log entry 9). Refused while BUSY (R277) and
where IBUF has not so many bytes (V17). -/
def presentBytes (s : State) (bs : List Byte) : Host.Outcome State Fault Refusal :=
  let p := s.port .D
  if p.busy then .refused .ibufWriteWhileBusy
  else if bs.length ≤ p.capIn.toNat then
    .next (s.withPort .D
      { p with ibuf := Memory.writeList p.ibuf 0 bs, inLen := BitVec.ofNat 64 bs.length })
  else .refused .indexOutOfRange

/-- One host access that is no instruction. A CMD write comes here only while BUSY = 1, where it is ignored
(46_commands_sequencer.md R225), and a container line only where its bytes are no container; step runs both as
instructions otherwise. -/
def hostAccess (l : HostLine) (s : State) : Host.Outcome State Fault Refusal :=
  match l with
  | .wrReg u off v =>
    match writeReg (s.port u) off v with
    | some p => .next (s.withPort u p)
    | none => .refused .badRegAccess
  | .rdReg u off =>
    match readReg u (s.port u) off with
    | some v => .next (s.see (.reg u off v))
    | none => .refused .badRegAccess
  | .wrIbuf u i b => writeIbuf s u i b
  | .rdIbuf u i => afterRead (readIbuf s u i)
  | .wrObuf u i _ => if i < (s.port u).capOut.toNat then .next s else .refused .indexOutOfRange
  | .rdObuf u i => afterRead (readObuf s u i)
  | .poll u => .next (pollUnit s u)
  | .copy => copyResult s
  | .container bs => presentBytes s bs
  | .reset u => .next (resetUnit s u)

/-! HUF1_CONTAINER. -/

/-- HUF1_CONTAINER, the container format (30_encoding.md R80): the host presents a container to unit D, whose
bytes are those of its encoding (R101; log entry 9). -/
def execHuf1Container (c : Container) (s : State) : Host.Outcome State Fault Refusal :=
  presentBytes s (encodeContainer c)

end Sys2Proof.Machine
end

