-- ==== Sys2Proof/Machine/Scan.lean ====
section
/-! DEFINITION. The first two phases of ENC: E_INIT (spec 44_encoder.md R171) and the frequency scan E_SCAN
(40_frequency_scan.md R111). -/

namespace Sys2Proof.Machine

/-- E_INIT (R171). -/
def phaseEInit (u : UnitE) : Res UnitE :=
  if u.port.capIn.toNat < u.port.inLen.toNat then .raised u .inputTooLarge
  else .ok (UnitE.goto
    { u with
      freq := Vector.replicate 256 0#64, len := Vector.replicate 256 0#8,
      inq := Vector.replicate 511 false,
      nsym := 0#9, nnode := 0#9, pbc := 0#64, idx := 0#64,
      acc := 0#8, nbits := 0#3, bitcnt := 0#64, wptr := 0#64 } phEScan)

/-- One iteration of E_SCAN's loop, for the byte b at IDX (R111). -/
def scanByte (u : UnitE) (b : Byte) : UnitE :=
  let u : UnitE :=
    if symRead u.freq b = 0#64 then { u with seq := symWrite u.seq b u.nsym, nsym := u.nsym + 1#9 } else u
  { u with freq := symWrite u.freq b (symRead u.freq b + 1#64), idx := u.idx + 1#64 }

/-- E_SCAN's loop over the input bytes in ascending index order (R111). -/
def scanBytes (u : UnitE) (bs : List Byte) : UnitE := bs.foldl scanByte u

/-- E_SCAN (R111): the whole input is IBUF[0..IN_LEN). -/
def phaseEScan (u : UnitE) : Res UnitE :=
  (memRead u.port 0 u.port.inLen.toNat).thenDo (fun bs =>
    let u := scanBytes { u with idx := 0#64 } bs
    .ok (u.goto (if u.nsym = 0#9 then phESize else phELeaf)))

/-- E_INIT. -/
def execEInit (s : State) : Host.Outcome State Fault Refusal := s.finishE (phaseEInit s.e)

/-- E_SCAN. -/
def execEScan (s : State) : Host.Outcome State Fault Refusal := s.finishE (phaseEScan s.e)

end Sys2Proof.Machine
end

