-- ==== Sys2Proof/Machine/Tree.lean ====
section
/-! DEFINITION. The tree build: E_LEAF, E_MERGE, E_SINGLE (spec 41_tree_build.md). -/

namespace Sys2Proof.Machine

/-- `NODE[h] <- n` and `INQ[h] <- 1`; a fault beyond NODE[510]. -/
def putNode (u : UnitE) (h : Handle) (n : Node) : Got UnitE :=
  if h.toNat < 511 then
    .val { u with node := u.node.setIfInBounds h.toNat n, inq := u.inq.setIfInBounds h.toNat true }
  else .fault .arenaIndex

/-- One iteration of E_LEAF's loop, for symbol s (R122). -/
def leafSymbol (u : UnitE) (s : Byte) : Got UnitE :=
  if symRead u.freq s = 0#64 then .val u
  else putNode u (symRead u.seq s) (.leaf s (symRead u.freq s))

/-- E_LEAF's loop (R122). -/
def leafLoop (u : UnitE) : List Byte → Got UnitE
  | [] => .val u
  | s :: ss => (leafSymbol u s).andThen (fun u => leafLoop u ss)

/-- E_LEAF (R122). -/
def phaseELeaf (u : UnitE) : Res UnitE :=
  (leafLoop u allSymbols).thenDo (fun u =>
    .ok (UnitE.goto { u with nnode := u.nsym } (if u.nsym = 1#9 then phESingle else phEMerge)))

/-- `a <- min_by key {h : INQ[h] = 1} ; INQ[a] <- 0`, over the members given, which are not empty (R124). -/
def removeMin (u : UnitE) (h : Handle) (hs : List Handle) : Handle × UnitE :=
  let a := minHandle u.node h hs
  (a, { u with inq := u.inq.setIfInBounds a.toNat false })

/-- The new Internal node of a and b, inserted with the next handle (R124). -/
def mergeNodes (u : UnitE) (a b : Handle) : Got UnitE :=
  (Got.ofOption .arenaIndex (nodeRead u.node a)).andThen (fun na =>
    (Got.ofOption .arenaIndex (nodeRead u.node b)).andThen (fun nb =>
      (putNode u u.nnode (.internal (nodeFreq na + nodeFreq nb) a b)).andThen (fun u =>
        .val { u with nnode := u.nnode + 1#9 })))

/-- One iteration of E_MERGE's loop; none when the collection has at most one member (R124). -/
def mergeStep (u : UnitE) : Option (Got UnitE) :=
  match members u.inq with
  | h :: h' :: hs =>
    let r := removeMin u h (h' :: hs)
    match members r.2.inq with
    | k :: ks =>
      let r' := removeMin r.2 k ks
      some (mergeNodes r'.2 r.1 r'.1)
    | [] => none
  | _ => none

/-- E_MERGE's loop (R124). Every iteration removes two members and inserts one, so as many iterations as
there are members at the start are enough. -/
def mergeLoop : Nat → UnitE → Got UnitE
  | 0, u => .val u
  | n + 1, u =>
    match mergeStep u with
    | none => .val u
    | some r => r.andThen (fun u => mergeLoop n u)

/-- E_MERGE (R124). `free` is what ROOT becomes if the collection is empty, a case R124 does not state
(log entry 12). -/
def phaseEMerge (free : Handle) (u : UnitE) : Res UnitE :=
  (mergeLoop (members u.inq).length u).thenDo (fun u =>
    .ok (UnitE.goto { u with root := (members u.inq).headD free } phEWalk))

/-- E_SINGLE (R127). -/
def phaseESingle (u : UnitE) : Res UnitE :=
  match nodeRead u.node 0#9 with
  | some (.leaf s _) =>
    .ok (UnitE.goto
      { u with root := 0#9, len := symWrite u.len s 1#8, tpat := symWrite u.tpat s [false] } phESort)
  | _ => .fault .notALeaf

/-- E_LEAF. -/
def execELeaf (s : State) : Host.Outcome State Fault Refusal := s.finishE (phaseELeaf s.e)

/-- E_MERGE; the free value is taken only where the collection is empty (log entry 12). -/
def execEMerge (s : State) : Host.Outcome State Fault Refusal :=
  let s' := if (members s.e.inq).isEmpty then s.takeFree else s
  s'.finishE (phaseEMerge (Config.freeHandle s.free) s.e)

/-- E_SINGLE. -/
def execESingle (s : State) : Host.Outcome State Fault Refusal := s.finishE (phaseESingle s.e)

end Sys2Proof.Machine
end

