-- ==== Sys2Proof/Machine/Dispatch.lean ====
section
/-! DEFINITION. One arm per instruction, each a direct call of its meaning. -/

namespace Sys2Proof.Machine

/-- The meaning of an instruction. -/
def exec (i : Instr) (s : State) : Host.Outcome State Fault Refusal :=
  match i with
  | .nop u => Sys2Proof.Machine.execNop u s
  | .enc u => Sys2Proof.Machine.execEnc u s
  | .dec u => Sys2Proof.Machine.execDec u s
  | .clr u => Sys2Proof.Machine.execClr u s
  | .reservedCmd u op => Sys2Proof.Machine.execReservedCmd u op s
  | .idle u => Sys2Proof.Machine.execIdle u s
  | .eInit => Sys2Proof.Machine.execEInit s
  | .eScan => Sys2Proof.Machine.execEScan s
  | .eLeaf => Sys2Proof.Machine.execELeaf s
  | .eMerge => Sys2Proof.Machine.execEMerge s
  | .eSingle => Sys2Proof.Machine.execESingle s
  | .eWalk => Sys2Proof.Machine.execEWalk s
  | .eSort => Sys2Proof.Machine.execESort s
  | .eCanon => Sys2Proof.Machine.execECanon s
  | .eSize => Sys2Proof.Machine.execESize s
  | .eHdr => Sys2Proof.Machine.execEHdr s
  | .eTbl => Sys2Proof.Machine.execETbl s
  | .ePbc => Sys2Proof.Machine.execEPbc s
  | .ePack => Sys2Proof.Machine.execEPack s
  | .eFlush => Sys2Proof.Machine.execEFlush s
  | .eFin => Sys2Proof.Machine.execEFin s
  | .dInit => Sys2Proof.Machine.execDInit s
  | .dMagic => Sys2Proof.Machine.execDMagic s
  | .dOlen => Sys2Proof.Machine.execDOlen s
  | .dScnt => Sys2Proof.Machine.execDScnt s
  | .dTbl => Sys2Proof.Machine.execDTbl s
  | .dPbc => Sys2Proof.Machine.execDPbc s
  | .dSize => Sys2Proof.Machine.execDSize s
  | .dCanon => Sys2Proof.Machine.execDCanon s
  | .dEmpty => Sys2Proof.Machine.execDEmpty s
  | .dSingle => Sys2Proof.Machine.execDSingle s
  | .dWalk => Sys2Proof.Machine.execDWalk s
  | .dFin => Sys2Proof.Machine.execDFin s
  | .huf1Container c => Sys2Proof.Machine.execHuf1Container c s

end Sys2Proof.Machine
end

