-- ==== Sys2Proof/Machine/Fetch.lean ====
section
/-! DEFINITION. What the machine does next: which agent moves, and which instruction or host access it is
at (spec 00_scope.md R14, R15, R19; 46_commands_sequencer.md R225, R227). -/

namespace Sys2Proof.Machine

/-- What comes next, with the machine less what has been taken from the script and the schedule. -/
inductive Fetched where
  /-- An instruction: a command issued, the operation PHASE names, a container. -/
  | instr (i : Instr) (s : State)
  /-- A host access that is no instruction. -/
  | access (l : HostLine) (s : State)
  /-- The host has no further line: nothing happens. -/
  | wait (s : State)
  /-- The machine stops. -/
  | fault (f : Fault)
deriving Repr

/-- Who moves: the schedule's first; with no schedule a busy unit, E before D, and else the host
(log entry 6). -/
def nextAgent (s : State) : Agent :=
  match s.sched with
  | a :: _ => a
  | [] => if s.e.port.busy then .unit .E else if s.d.port.busy then .unit .D else .host

/-- The machine with the schedule's first entry taken. -/
def takeTurn (s : State) : State := { s with sched := s.sched.tail }

/-- A host line: a CMD write with BUSY = 0 is decoded as a command (R95, R97), a container line as a
container (R80). Any other line is an access, and so is a container line whose bytes are no container: the line
places what it is given, and whether that is a container is for unit D to find out (R92, R101; log entry 9). -/
def fetchLine (l : HostLine) (s : State) : Fetched :=
  match l with
  | .wrReg u off v =>
    if off = 0x00 ∧ (s.port u).busy = false then .instr (decodeCmd u v) s else .access l s
  | .container bs =>
    match decodeContainer bs with
    | .ok c => .instr (.huf1Container c) s
    | .error _ => .access l s
  | .rdReg _ _ => .access l s
  | .wrIbuf _ _ _ => .access l s
  | .rdIbuf _ _ => .access l s
  | .wrObuf _ _ _ => .access l s
  | .rdObuf _ _ => .access l s
  | .poll _ => .access l s
  | .copy => .access l s
  | .reset _ => .access l s

/-- The next action of the machine: a unit's is the operation its PHASE names (R227). -/
def fetch (s : State) : Fetched :=
  match nextAgent s with
  | .unit u =>
    match decodePhase u (s.port u).phase with
    | .ok i => .instr i (takeTurn s)
    | .error _ => .fault .unusedPhase
  | .host =>
    match s.script with
    | [] => .wait (takeTurn s)
    | l :: rest => fetchLine l { takeTurn s with script := rest }

end Sys2Proof.Machine
end

