-- ==== Sys2Proof/Machine/Step.lean ====
section
/-! DEFINITION. One step of the machine: one phase operation of a unit, or one host access
(spec 00_scope.md R15). -/

namespace Sys2Proof.Machine

/-- One step. -/
def step (s : State) : Host.Outcome State Fault Refusal :=
  match fetch s with
  | .instr i s => exec i s
  | .access l s => hostAccess l s
  | .wait s => .next s
  | .fault f => .fault f

/-- s with a table word where the next step finds it (log entries 7, 8): a command as the host's next line,
a container as the host's next line, a phase code in its unit's PHASE with BUSY as it then stands. -/
def State.withFetchWord (s : State) (nbits w : Nat) : State :=
  match tableWord nbits w with
  | .cmd u v => { s with script := .wrReg u 0x00 v :: s.script, sched := .host :: s.sched }
  | .bytes bs => { s with script := .container bs :: s.script, sched := .host :: s.sched }
  | .phase u p =>
    { s.withPort u { s.port u with phase := p, busy := decide (p ≠ phIdle) } with
      sched := .unit u :: s.sched }

end Sys2Proof.Machine
end

