-- ==== Sys2Proof/Safety.lean ====
section
/-! DEFINITION. What counts as a safe run, and the terms the claims use: the invariant of the machine, what
a memory holds, the shape of a tree, the Kraft sum, the unit and the successors of an instruction. -/

namespace Sys2Proof.Machine

/-! Memories. -/

/-- The memory holds the bytes bs from index a on. -/
def holdsBytes (m : Memory) (a : Nat) (bs : List Byte) : Prop :=
  ∀ i b, bs[i]? = some b → Memory.read m (a + i) = some b

/-- Outside the n bytes from index a on, m' reads as m. -/
def sameOutside (m m' : Memory) (a n : Nat) : Prop :=
  ∀ k, (k < a ∨ a + n ≤ k) → Memory.read m' k = Memory.read m k

/-- The command's input is bs: IN_LEN is its length, it fits IBUF, and IBUF[0..IN_LEN) holds it
(spec 70_reset_and_hazards.md R274). -/
def hasInput (p : Port) (bs : List Byte) : Prop :=
  p.inLen.toNat = bs.length ∧ bs.length ≤ p.capIn.toNat ∧ holdsBytes p.ibuf 0 bs

/-! The invariant. -/

/-- The pairs (ERR.CODE, ERR.SUB) of 60_exceptions.md R241. -/
def errorPairs : List (Byte × Byte) :=
  [(0#8, 0#8), (1#8, 1#8), (1#8, 2#8), (1#8, 3#8), (1#8, 4#8), (1#8, 5#8), (1#8, 6#8), (1#8, 7#8),
   (2#8, 1#8), (2#8, 2#8), (3#8, 0#8), (4#8, 0#8)]

/-- The PHASE codes of a unit: E 0x00 .. 0x0F, D 0x00 and 0x10 .. 0x1B (46_commands_sequencer.md R227). -/
def unitPhase : UnitKind → BitVec 5 → Prop
  | .E, p => p.toNat ≤ 0x0F
  | .D, p => p.toNat = 0 ∨ (0x10 ≤ p.toNat ∧ p.toNat ≤ 0x1B)

/-- What is always true of a unit's registers and buffers (10_state.md R28, R34; 00_scope.md R8). -/
structure PortInv (k : UnitKind) (p : Port) : Prop where
  /-- The memories keep their form. -/
  ibufForm : Memory.wf p.ibuf
  obufForm : Memory.wf p.obuf
  /-- The buffers have MAX_IN and MAX_OUT bytes (R60). -/
  ibufBound : ∀ c ∈ p.ibuf, c.1 < p.capIn.toNat
  obufBound : ∀ c ∈ p.obuf, c.1 < p.capOut.toNat
  /-- 1 <= MAX_IN <= 2^56 - 1 and 1 <= MAX_OUT (R8). -/
  capInRange : 1 ≤ p.capIn.toNat ∧ p.capIn.toNat < 2 ^ 56
  capOutRange : 1 ≤ p.capOut.toNat
  /-- PHASE holds a code of this unit, and IDLE exactly when BUSY = 0 (R34, R227). -/
  phaseLegal : unitPhase k p.phase
  idleIff : p.phase = 0x00#5 ↔ p.busy = false
  /-- BUSY = 1 implies DONE = ERR = NOGAIN = 0, OUT_LEN = 0 and ERR.CODE = 0 (R28). -/
  busyClear : p.busy = true →
    p.done = false ∧ p.err = false ∧ p.nogain = false ∧ p.outLen = 0#64 ∧ p.errCode = 0#8
  /-- ERR = 1 implies ERR.CODE != 0; ERR = 0 implies both fields 0 (R28). -/
  errHasCode : p.err = true → p.errCode ≠ 0#8
  noErrNoCode : p.err = false → p.errCode = 0#8 ∧ p.errSub = 0#8
  /-- A command that ran and failed: DONE = 1, NOGAIN = 0, OUT_LEN = 0 (R28). -/
  failedCommand : p.err = true → p.errCode ≠ 4#8 → p.done = true ∧ p.nogain = false ∧ p.outLen = 0#64
  /-- No other pair is ever written (R241). -/
  errPair : (p.errCode, p.errSub) ∈ errorPairs
  /-- NOGAIN = 1 implies DONE = 1 (R28); always 0 on unit D (R26). -/
  nogainDone : p.nogain = true → p.done = true
  nogainOnE : k = .D → p.nogain = false

/-- What is always true of the machine. -/
def Inv (s : State) : Prop := PortInv .E s.e.port ∧ PortInv .D s.d.port

/-- A step that does not stop with a fault. -/
def SafeStep (s : State) : Prop := ∀ f, step s ≠ .fault f

/-- The registers after the error exit of 60_exceptions.md R250 with the pair (code, sub). -/
def failedWith (p : Port) (code sub : Byte) : Port :=
  { p with
    errCode := code, errSub := sub, outLen := 0#64,
    err := true, done := true, busy := false, nogain := false, phase := 0x00#5 }

/-- The registers after a refused opcode (46_commands_sequencer.md R226). -/
def refusedOpcode (p : Port) : Port := { p with err := true, errCode := 4#8, errSub := 0#8 }

/-! Instructions. -/

/-- The unit an instruction is of: the one its CMD or PHASE belongs to; a container is D's input. -/
def instrUnit : Instr → UnitKind
  | .nop u => u
  | .enc u => u
  | .dec u => u
  | .clr u => u
  | .reservedCmd u _ => u
  | .idle u => u
  | .eInit => .E
  | .eScan => .E
  | .eLeaf => .E
  | .eMerge => .E
  | .eSingle => .E
  | .eWalk => .E
  | .eSort => .E
  | .eCanon => .E
  | .eSize => .E
  | .eHdr => .E
  | .eTbl => .E
  | .ePbc => .E
  | .ePack => .E
  | .eFlush => .E
  | .eFin => .E
  | .dInit => .D
  | .dMagic => .D
  | .dOlen => .D
  | .dScnt => .D
  | .dTbl => .D
  | .dPbc => .D
  | .dSize => .D
  | .dCanon => .D
  | .dEmpty => .D
  | .dSingle => .D
  | .dWalk => .D
  | .dFin => .D
  | .huf1Container _ => .D

/-- The phases that may follow a phase operation without an error (46_commands_sequencer.md R231, R232);
nothing for the instructions that are no phase operation, and for IDLE, which has no transition of its own. -/
def instrSuccessors : Instr → List (BitVec 5)
  | .nop _ => []
  | .enc _ => []
  | .dec _ => []
  | .clr _ => []
  | .reservedCmd _ _ => []
  | .idle _ => []
  | .eInit => [0x02#5]
  | .eScan => [0x09#5, 0x03#5]
  | .eLeaf => [0x05#5, 0x04#5]
  | .eMerge => [0x06#5]
  | .eSingle => [0x07#5]
  | .eWalk => [0x07#5]
  | .eSort => [0x08#5]
  | .eCanon => [0x09#5]
  | .eSize => [0x0A#5]
  | .eHdr => [0x0B#5]
  | .eTbl => [0x0C#5]
  | .ePbc => [0x0D#5]
  | .ePack => [0x0E#5]
  | .eFlush => [0x0F#5]
  | .eFin => [0x00#5]
  | .dInit => [0x11#5]
  | .dMagic => [0x12#5]
  | .dOlen => [0x13#5]
  | .dScnt => [0x14#5]
  | .dTbl => [0x15#5]
  | .dPbc => [0x16#5]
  | .dSize => [0x18#5, 0x19#5, 0x17#5]
  | .dCanon => [0x1A#5]
  | .dEmpty => [0x1B#5]
  | .dSingle => [0x1B#5]
  | .dWalk => [0x1B#5]
  | .dFin => [0x00#5]
  | .huf1Container _ => []

/-! Trees (41_tree_build.md, 42_code_generation.md). -/

/-- p leads from node h down to a leaf of symbol b: false is the left edge, true the right (R136). -/
inductive LeafAt (node : Vector Node 511) : Handle → List Bool → Byte → Prop where
  | here {h : Handle} {b : Byte} {f : Word64} :
      nodeRead node h = some (.leaf b f) → LeafAt node h [] b
  | left {h l r : Handle} {f : Word64} {p : List Bool} {b : Byte} :
      nodeRead node h = some (.internal f l r) → LeafAt node l p b → LeafAt node h (false :: p) b
  | right {h l r : Handle} {f : Word64} {p : List Bool} {b : Byte} :
      nodeRead node h = some (.internal f l r) → LeafAt node r p b → LeafAt node h (true :: p) b

/-- Below node h stands a tree of depth at most n, every handle of it in the arena. -/
inductive TreeWithin (node : Vector Node 511) : Nat → Handle → Prop where
  | leaf {n : Nat} {h : Handle} {b : Byte} {f : Word64} :
      nodeRead node h = some (.leaf b f) → TreeWithin node n h
  | internal {n : Nat} {h l r : Handle} {f : Word64} :
      nodeRead node h = some (.internal f l r) → TreeWithin node n l → TreeWithin node n r →
      TreeWithin node (n + 1) h

/-- c is the LEFT or the RIGHT of the Internal node h. -/
def isChild (node : Vector Node 511) (c h : Handle) : Prop :=
  ∃ f l r, nodeRead node h = some (.internal f l r) ∧ (c = l ∨ c = r)

/-- The priority order of R123 on the FREQ of two nodes and their handles. -/
def keyBefore (node : Vector Node 511) (a b : Handle) : Prop :=
  ∃ na nb, nodeRead node a = some na ∧ nodeRead node b = some nb ∧
    ((nodeFreq na).toNat < (nodeFreq nb).toNat ∨ ((nodeFreq na).toNat = (nodeFreq nb).toNat ∧ a.toNat < b.toNat))

/-- Where E_MERGE starts: the collection is not empty, its handles are below NNODE, and there is room in
the arena for the M - 1 nodes it creates (R124, R125). -/
def mergeReady (u : UnitE) : Prop :=
  members u.inq ≠ [] ∧ (∀ h ∈ members u.inq, h.toNat < u.nnode.toNat) ∧
    u.nnode.toNat + (members u.inq).length ≤ 512

/-! Canonical codes (42_code_generation.md). -/

/-- 2^255 times the sum of 2^(-length) over the entries (R137, R143). -/
def kraft (es : List Entry) : Nat := (es.map (fun e => 2 ^ (255 - e.len.toNat))).sum

/-- A table whose lengths are in 1 .. 255 and ascend (R142). -/
def lengthsAscend (es : List Entry) : Prop :=
  (∀ e ∈ es, e.len ≠ 0#8) ∧ es.Pairwise (fun a b => a.len.toNat ≤ b.len.toNat)

/-- The codeword of symbol b: the LEN[b]-bit string of CODE[b], most significant bit first (R146). -/
def codewordOf (code : SymFile CodeWord) (len : SymFile Byte) (b : Byte) : List Bool :=
  codeBits (symRead code b) (symRead len b).toNat

/-- A code the decoder can walk: no codeword of a listed symbol begins another's, and the value of every listed
symbol fits its length (R147, 45_decoder.md R202: over the listed symbols; CODE of an unlisted one may be left over
from an earlier command, R191). -/
def prefixCode (code : SymFile CodeWord) (len : SymFile Byte) : Prop :=
  (∀ a b, symRead len a ≠ 0#8 → symRead len b ≠ 0#8 →
    codewordOf code len a <+: codewordOf code len b → a = b) ∧
  ∀ a, symRead len a ≠ 0#8 → (symRead code a).toNat < 2 ^ (symRead len a).toNat

/-- The bit string E_PACK appends for the input bs: the codewords in input order (44_encoder.md R180). -/
def packedBits (u : UnitE) (bs : List Byte) : List Bool :=
  bs.flatMap (fun b => codewordOf u.code u.len b)

/-- Bit k of bytes packed MSB-first (20_memory.md R67). -/
def packedBit (bs : List Byte) (k : Nat) : Bool := (bs.getD (k / 8) 0#8).getLsbD (7 - k % 8)

end Sys2Proof.Machine
end

