-- ==== Sys2Proof/Certificates/Slice0/Obligations.lean ====
section
/-! DEFINITION. The statements about the machine, made from the numbered rules of the spec. Nothing here is
proved. A number literal is a code of the spec: PHASE codes 30_encoding.md R98, error pairs
60_exceptions.md R241. -/

open Sys2Proof Sys2Proof.Machine

/-! Encodings (30_encoding.md). -/

/-- Decoding what the encoder writes for a well-formed instruction gives the instruction back: no bit of an
encoding is dropped (R80 to R88, R95, R96, R98). -/
def Obligations.DecodeEncodeRoundTrip : Prop :=
  ∀ i : Instr, i.wf = true → decode (encode i) = .ok i

/-- A byte sequence is read as a container only where it is the encoding of a well-formed one, and it then
has 22 + 2 x SymbolCount + ceil8(PayloadBitCount) bytes (R87, R92). -/
def Obligations.ContainerBytesAreCanonical : Prop :=
  ∀ (bs : List Byte) (c : Container), decode (.bytes bs) = .ok (.huf1Container c) →
    c.wf = true ∧ encode (.huf1Container c) = .bytes bs ∧
    bs.length = 22 + 2 * c.table.length + (c.pbc.toNat + 7) / 8

/-- OP is bits [7:0] of the value written to CMD and bits [63:8] are ignored (R95); NOP, ENC, DEC, CLR are
0x00 to 0x03 and every other value is a reserved opcode (R96). -/
def Obligations.CommandOpcodeTable : Prop :=
  ∀ (u : UnitKind) (w : Word64),
    ((w.toNat % 256 = 0 → decode (.cmd u w) = .ok (.nop u)) ∧
     (w.toNat % 256 = 1 → decode (.cmd u w) = .ok (.enc u)) ∧
     (w.toNat % 256 = 2 → decode (.cmd u w) = .ok (.dec u)) ∧
     (w.toNat % 256 = 3 → decode (.cmd u w) = .ok (.clr u))) ∧
    (4 ≤ w.toNat % 256 → decode (.cmd u w) = .ok (.reservedCmd u (BitVec.ofNat 8 (w.toNat % 256))))

/-- A unit's PHASE code names at most one operation, that operation's own code is this one, and a code the
unit never takes is rejected (R98, 46_commands_sequencer.md R227). -/
def Obligations.PhaseCodesNameOneOperation : Prop :=
  ∀ (u : UnitKind) (p : BitVec 5),
    (unitPhase u p → ∃ i, decode (.phase u p) = .ok i ∧ encode i = .phase u p) ∧
    (¬ unitPhase u p → decode (.phase u p) = .error .unusedPhase)

/-- Words written out from the tables of R90, R96, R98 decode to the instructions they stand for. -/
def Obligations.WrittenOutWordsDecode : Prop :=
  decode (.cmd .E 0x0000000000000001#64) = .ok (.enc .E) ∧
  decode (.cmd .E 0x0000000000000103#64) = .ok (.clr .E) ∧
  decode (.cmd .D 0x00000000000000FF#64) = .ok (.reservedCmd .D 0xFF#8) ∧
  decode (.phase .E 0b00111#5) = .ok .eSort ∧
  decode (.phase .D 0b11010#5) = .ok .dWalk ∧
  decode (.bytes [0x48#8, 0x55#8, 0x46#8, 0x31#8, 0#8, 0#8, 0#8, 0#8, 0#8, 0#8, 0#8, 0#8, 0#8, 0#8,
    0#8, 0#8, 0#8, 0#8, 0#8, 0#8, 0#8, 0#8]) = .ok (.huf1Container ⟨0#64, [], 0#64, []⟩)

/-! The step. -/

/-- A step runs the decoded instruction: of the unit whose turn it is, the operation its PHASE names; of the
host, the command its next line writes to CMD of an idle unit (46_commands_sequencer.md R227, 30_encoding.md R95,
R97), or the container its next line presents, which as an instruction is the model's reading of the table's data
row (log entry 9). The turn, which is the model's own field (log entry 6), and the line are taken; nothing else is
added. -/
def Obligations.StepRunsTheDecodedInstruction : Prop :=
  ∀ (s : State) (i : Instr), i.wf = true →
    (∀ u, nextAgent s = .unit u → decode (.phase u (s.port u).phase) = .ok i →
      step s = exec i { s with sched := s.sched.tail }) ∧
    (∀ u v rest, nextAgent s = .host → s.script = .wrReg u 0x00 v :: rest → (s.port u).busy = false →
      decode (.cmd u v) = .ok i → step s = exec i { s with sched := s.sched.tail, script := rest }) ∧
    (∀ bs rest, nextAgent s = .host → s.script = .container bs :: rest → decode (.bytes bs) = .ok i →
      step s = exec i { s with sched := s.sched.tail, script := rest })

/-! Commands (46_commands_sequencer.md section 2). -/

/-- NOP changes nothing (R221), and a unit whose PHASE is IDLE performs no operation (R220). -/
def Obligations.NopAndIdleChangeNothing : Prop :=
  ∀ (u : UnitKind) (s : State), exec (.nop u) s = .next s ∧ exec (.idle u) s = .next s

/-- ENC on an idle unit E and DEC on an idle unit D clear the old result and record, set BUSY and start at
E_INIT and D_INIT; nothing else changes (R222, R223). -/
def Obligations.AcceptedCommandsClearAndStart : Prop :=
  ∀ s : State,
    (s.e.port.busy = false →
      exec (.enc .E) s = .next { s with e := { s.e with port := { s.e.port with
        done := false, err := false, nogain := false, errCode := 0#8, errSub := 0#8, outLen := 0#64,
        busy := true, phase := 0x01#5 } } }) ∧
    (s.d.port.busy = false →
      exec (.dec .D) s = .next { s with d := { s.d with port := { s.d.port with
        done := false, err := false, nogain := false, errCode := 0#8, errSub := 0#8, outLen := 0#64,
        busy := true, phase := 0x10#5 } } })

/-- CLR on an idle unit clears DONE, ERR, NOGAIN, the ERR register and OUT_LEN, and nothing else (R224). -/
def Obligations.ClrClearsTheRecord : Prop :=
  ∀ (u : UnitKind) (s : State), (s.port u).busy = false →
    exec (.clr u) s = .next (s.withPort u { s.port u with
      done := false, err := false, nogain := false, errCode := 0#8, errSub := 0#8, outLen := 0#64 })

/-- A reserved opcode, ENC on unit D and DEC on unit E are refused by an idle unit: ERR = 1, ERR.CODE = 4,
ERR.SUB = 0, and nothing else changes (R226). -/
def Obligations.RefusedOpcodesRecordIllegalCommand : Prop :=
  ∀ s : State,
    (∀ u op, (s.port u).busy = false →
      exec (.reservedCmd u op) s = .next (s.withPort u { s.port u with
        err := true, errCode := 4#8, errSub := 0#8 })) ∧
    (s.d.port.busy = false →
      exec (.enc .D) s = .next { s with d := { s.d with port := { s.d.port with
        err := true, errCode := 4#8, errSub := 0#8 } } }) ∧
    (s.e.port.busy = false →
      exec (.dec .E) s = .next { s with e := { s.e with port := { s.e.port with
        err := true, errCode := 4#8, errSub := 0#8 } } })

/-- A CMD write while BUSY = 1 changes nothing, whatever is written: as an instruction, and as the host's
next line, whose value is not even decoded (R225, 30_encoding.md R97). -/
def Obligations.CommandsAreIgnoredWhileBusy : Prop :=
  ∀ (u : UnitKind) (s : State), (s.port u).busy = true →
    (∀ op, exec (.enc u) s = .next s ∧ exec (.dec u) s = .next s ∧ exec (.clr u) s = .next s ∧
      exec (.reservedCmd u op) s = .next s) ∧
    ∀ v rest, nextAgent s = .host → s.script = .wrReg u 0x00 v :: rest →
      step s = .next { s with sched := s.sched.tail, script := rest }

/-! The encoder: first phases (44_encoder.md R171, 40_frequency_scan.md). -/

/-- E_INIT: InputTooLarge where IN_LEN > MAX_IN, with the working state as it was; else the working state
of R171 is cleared and E_SCAN follows; nothing else changes (R171). -/
def Obligations.EInitChecksAndClears : Prop :=
  ∀ s : State,
    (s.e.port.capIn.toNat < s.e.port.inLen.toNat →
      exec .eInit s = .next { s with e := { s.e with port := failedWith s.e.port 2#8 1#8 } }) ∧
    (s.e.port.inLen.toNat ≤ s.e.port.capIn.toNat →
      exec .eInit s = .next { s with e := { s.e with
        port := { s.e.port with phase := 0x02#5 },
        freq := Vector.replicate 256 0#64, len := Vector.replicate 256 0#8,
        inq := Vector.replicate 511 false, nsym := 0#9, nnode := 0#9, pbc := 0#64, idx := 0#64,
        acc := 0#8, nbits := 0#3, bitcnt := 0#64, wptr := 0#64 } })

/-- E_SCAN completes on a whole input of fewer than 2^56 bytes and, from cleared counts, leaves FREQ[b] the
number of occurrences of b, NSYM the number of distinct symbols, SEQ[b] the number of distinct symbols
before the first b, IDX = N; E_SIZE follows an empty input, else E_LEAF (R111, R112, 10_state.md R35, R36). -/
def Obligations.EScanCountsTheInput : Prop :=
  ∀ (s : State) (bs : List Byte), hasInput s.e.port bs → bs.length < 2 ^ 56 →
    (∀ b, symRead s.e.freq b = 0#64) → s.e.nsym = 0#9 →
    ∃ t, exec .eScan s = .next t ∧
      (∀ b, (symRead t.e.freq b).toNat = bs.count b) ∧
      t.e.nsym.toNat = bs.dedup.length ∧
      (∀ b ∈ bs, (symRead t.e.seq b).toNat = (bs.takeWhile (fun c => c ≠ b)).dedup.length) ∧
      t.e.idx.toNat = bs.length ∧
      t.e.port.phase = (if bs = [] then 0x09#5 else 0x03#5)

/-! The tree build (41_tree_build.md). -/

/-- E_LEAF completes where the sequence numbers of the present symbols are in the arena, and, where they are
distinct, makes the leaf of s at SEQ[s] with FREQ[s]; exactly those handles join the collection; all other
nodes stay; NNODE = NSYM; E_SINGLE follows one symbol, else E_MERGE (R122). -/
def Obligations.ELeafMakesTheLeaves : Prop :=
  ∀ s : State, (∀ b, symRead s.e.freq b ≠ 0#64 → (symRead s.e.seq b).toNat < 511) →
    ∃ t, exec .eLeaf s = .next t ∧
      t.e.nnode = s.e.nsym ∧
      t.e.port.phase = (if s.e.nsym = 1#9 then 0x05#5 else 0x04#5) ∧
      ((∀ b c, symRead s.e.freq b ≠ 0#64 → symRead s.e.freq c ≠ 0#64 →
          symRead s.e.seq b = symRead s.e.seq c → b = c) →
        (∀ b, symRead s.e.freq b ≠ 0#64 →
          nodeRead t.e.node (symRead s.e.seq b) = some (.leaf b (symRead s.e.freq b)))) ∧
      (∀ h, h ∈ members t.e.inq ↔
        h ∈ members s.e.inq ∨ ∃ b, symRead s.e.freq b ≠ 0#64 ∧ symRead s.e.seq b = h) ∧
      (∀ h, (∀ b, symRead s.e.freq b ≠ 0#64 → symRead s.e.seq b ≠ h) →
        nodeRead t.e.node h = nodeRead s.e.node h)

/-- E_MERGE completes from a collection of M >= 1 handles below NNODE with room for M - 1 nodes; it creates
M - 1 Internal nodes in the handles from NNODE on, each with FREQ the sum of its two distinct earlier
children's, leaves the older nodes, and ends with one member, ROOT, the last node created (for M >= 2); every
member and every created node but ROOT is the child of exactly one created node; E_WALK follows (R124, R125,
R128). A sum of FREQ is taken modulo 2^64 where it does not fit, in states no run reaches: the model's choice, log
entry 11. -/
def Obligations.EMergeBuildsTheTree : Prop :=
  ∀ s : State, mergeReady s.e →
    ∃ t, exec .eMerge s = .next t ∧
      t.e.nnode.toNat = s.e.nnode.toNat + (members s.e.inq).length - 1 ∧
      members t.e.inq = [t.e.root] ∧
      (2 ≤ (members s.e.inq).length → t.e.root.toNat = t.e.nnode.toNat - 1) ∧
      t.e.port.phase = 0x06#5 ∧
      (∀ h : Handle, h.toNat < s.e.nnode.toNat → nodeRead t.e.node h = nodeRead s.e.node h) ∧
      (∀ h : Handle, s.e.nnode.toNat ≤ h.toNat → h.toNat < t.e.nnode.toNat →
        ∃ f l r nl nr, nodeRead t.e.node h = some (.internal f l r) ∧ l ≠ r ∧
          l.toNat < h.toNat ∧ r.toNat < h.toNat ∧
          nodeRead t.e.node l = some nl ∧ nodeRead t.e.node r = some nr ∧ f = nodeFreq nl + nodeFreq nr) ∧
      ∀ c : Handle,
        (c ∈ members s.e.inq ∨ (s.e.nnode.toNat ≤ c.toNat ∧ c.toNat < t.e.nnode.toNat)) → c ≠ t.e.root →
        ∃! h : Handle, s.e.nnode.toNat ≤ h.toNat ∧ h.toNat < t.e.nnode.toNat ∧ isChild t.e.node c h

/-- E_MERGE joins the two least: of every Internal node it creates, LEFT has the least key (FREQ, handle) and
RIGHT the next among the nodes that existed and had no parent yet (R123, R124, R126). -/
def Obligations.EMergeJoinsTheTwoLeast : Prop :=
  ∀ s t : State, mergeReady s.e → exec .eMerge s = .next t →
    ∀ (h : Handle) (f : Word64) (l r : Handle), s.e.nnode.toNat ≤ h.toNat → h.toNat < t.e.nnode.toNat →
      nodeRead t.e.node h = some (.internal f l r) →
      keyBefore t.e.node l r ∧
      ∀ c : Handle,
        (c ∈ members s.e.inq ∨ (s.e.nnode.toNat ≤ c.toNat ∧ c.toNat < h.toNat)) → c ≠ l → c ≠ r →
        (∀ g : Handle, s.e.nnode.toNat ≤ g.toNat → g.toNat < h.toNat → ¬ isChild t.e.node c g) →
        keyBefore t.e.node l c ∧ keyBefore t.e.node r c

/-- E_SINGLE: with the leaf of b in NODE[0], ROOT is 0, LEN[b] = 1, TPAT[b] = "0", E_SORT follows, and
nothing else changes (R127). -/
def Obligations.ESingleGivesTheOneBitCode : Prop :=
  ∀ (s : State) (b : Byte) (f : Word64), nodeRead s.e.node 0#9 = some (.leaf b f) →
    exec .eSingle s = .next { s with e := { s.e with
      port := { s.e.port with phase := 0x07#5 }, root := 0#9,
      len := symWrite s.e.len b 1#8, tpat := symWrite s.e.tpat b [false] } }

/-! Canonical-code generation (42_code_generation.md). -/

/-- E_WALK completes on a tree of depth at most 255; a symbol with one leaf gets that leaf's depth as LEN and
its path as TPAT, a symbol without a leaf keeps both; E_SORT follows (R136, R137). -/
def Obligations.EWalkRecordsDepthsAndPaths : Prop :=
  ∀ s : State, TreeWithin s.e.node 255 s.e.root →
    ∃ t, exec .eWalk s = .next t ∧ t.e.port.phase = 0x07#5 ∧
      (∀ b p, LeafAt s.e.node s.e.root p b → (∀ q, LeafAt s.e.node s.e.root q b → q = p) →
        (symRead t.e.len b).toNat = p.length ∧ symRead t.e.tpat b = p) ∧
      (∀ b, (∀ p, ¬ LeafAt s.e.node s.e.root p b) →
        symRead t.e.len b = symRead s.e.len b ∧ symRead t.e.tpat b = symRead s.e.tpat b)

/-- E_SORT completes; CCL then begins with every symbol of non-zero length exactly once, strictly by
(length, symbol), and keeps its later entries; E_CANON follows (R139 to R141). -/
def Obligations.ESortListsEverySymbolInOrder : Prop :=
  ∀ s : State, ∃ (t : State) (es : List Entry), exec .eSort s = .next t ∧ t.e.port.phase = 0x08#5 ∧
    es.Pairwise Entry.Before ∧
    (∀ e : Entry, e ∈ es ↔ e.len ≠ 0#8 ∧ symRead s.e.len e.sym = e.len) ∧
    (∀ i e, es[i]? = some e → cclRead t.e.ccl i = some e) ∧
    (∀ i, es.length ≤ i → cclRead t.e.ccl i = cclRead s.e.ccl i)

/-- E_CANON completes on ascending lengths whose Kraft sum is at most 1, each symbol once, and gives the i-th
entry the code K_i x 2^L_i, K_i the sum of 2^(-length) before it; RUN ends at K x 2^Lmax; the codes of other
symbols stay; E_SIZE follows (R142 to R144). -/
def Obligations.ECanonAssignsTheCanonicalCodes : Prop :=
  ∀ (s : State) (es : List Entry), cclPrefix s.e.ccl s.e.nsym.toNat = some es →
    lengthsAscend es → (es.map Entry.sym).Nodup → kraft es ≤ 2 ^ 255 →
    ∃ t, exec .eCanon s = .next t ∧ t.e.port.phase = 0x09#5 ∧
      (∀ i e, es[i]? = some e →
        (symRead t.e.code e.sym).toNat * 2 ^ (255 - e.len.toNat) = kraft (es.take i)) ∧
      (∀ e, es.getLast? = some e → t.e.run.toNat * 2 ^ (255 - e.len.toNat) = kraft es) ∧
      (∀ b, b ∉ es.map Entry.sym → symRead t.e.code b = symRead s.e.code b)

/-- The canonical codes form a prefix code: where E_CANON completes, no listed codeword begins another's (R147;
DOC00's "Prefix-code validity"). That it does not complete on an over-subscribed table is the model's fault for a
failed self-check, log entry 13. -/
def Obligations.CanonicalCodesArePrefixFree : Prop :=
  ∀ (s t : State) (es : List Entry), cclPrefix s.e.ccl s.e.nsym.toNat = some es →
    lengthsAscend es → (es.map Entry.sym).Nodup → exec .eCanon s = .next t →
    ∀ a ∈ es, ∀ b ∈ es,
      codeBits (symRead t.e.code a.sym) a.len.toNat <+: codeBits (symRead t.e.code b.sym) b.len.toNat → a = b

/-- Two units given the same table produce the same codes and the same RUN (R145). -/
def Obligations.BothUnitsAssignTheSameCodes : Prop :=
  ∀ (s t t' : State) (es : List Entry), cclPrefix s.e.ccl s.e.nsym.toNat = some es →
    cclPrefix s.d.ccl s.d.symcnt.toNat = some es →
    exec .eCanon s = .next t → exec .dCanon s = .next t' →
    t.e.run = t'.d.run ∧ ∀ e ∈ es, symRead t.e.code e.sym = symRead t'.d.code e.sym

/-! Emitting the container (44_encoder.md sections 2 and 3). -/

/-- E_SIZE: PBC is the sum of FREQ x LEN, OSIZE is 22 + 2 x NSYM + ceil8(PBC); OutputTooLarge where that
exceeds MAX_OUT, else E_HDR follows; nothing else changes (R175). Where a value exceeds 64 bits, in states no run
reaches, the register holds it modulo 2^64: the model's choice, log entry 11. -/
def Obligations.ESizeComputesAndChecks : Prop :=
  ∀ (s : State) (pbc osize : Nat),
    pbc = (allSymbols.map (fun b => (symRead s.e.freq b).toNat * (symRead s.e.len b).toNat)).sum →
    osize = 22 + 2 * s.e.nsym.toNat + (pbc + 7) / 8 →
    (s.e.port.capOut.toNat < osize →
      exec .eSize s = .next { s with e := { s.e with
        port := failedWith s.e.port 2#8 2#8, pbc := BitVec.ofNat 64 pbc, osize := BitVec.ofNat 64 osize } }) ∧
    (osize ≤ s.e.port.capOut.toNat →
      exec .eSize s = .next { s with e := { s.e with
        port := { s.e.port with phase := 0x0A#5 },
        pbc := BitVec.ofNat 64 pbc, osize := BitVec.ofNat 64 osize } })

/-- E_HDR completes where OBUF has 14 bytes and writes Magic, OriginalLength and SymbolCount, big-endian, to
OBUF[0..14); WPTR = 14; E_TBL follows (R177). -/
def Obligations.EHdrWritesTheHeader : Prop :=
  ∀ s : State, 14 ≤ s.e.port.capOut.toNat →
    ∃ t, exec .eHdr s = .next t ∧ t.e.wptr = 14#64 ∧ t.e.port.phase = 0x0B#5 ∧
      holdsBytes t.e.port.obuf 0 [0x48#8, 0x55#8, 0x46#8, 0x31#8] ∧
      (∀ i, i < 8 →
        Memory.read t.e.port.obuf (4 + i) = some (BitVec.ofNat 8 (s.e.port.inLen.toNat / 2 ^ (8 * (7 - i))))) ∧
      Memory.read t.e.port.obuf 12 = some (BitVec.ofNat 8 (s.e.nsym.toNat / 256)) ∧
      Memory.read t.e.port.obuf 13 = some (BitVec.ofNat 8 s.e.nsym.toNat)

/-- E_TBL completes where CCL has NSYM entries and OBUF has room, and writes symbol and length of each entry
in order from WPTR on; WPTR advances by 2 x NSYM; E_PBC follows (R178). -/
def Obligations.ETblWritesTheTable : Prop :=
  ∀ (s : State) (es : List Entry), cclPrefix s.e.ccl s.e.nsym.toNat = some es →
    s.e.wptr.toNat + 2 * es.length ≤ s.e.port.capOut.toNat →
    ∃ t, exec .eTbl s = .next t ∧ t.e.wptr.toNat = s.e.wptr.toNat + 2 * es.length ∧
      t.e.port.phase = 0x0C#5 ∧
      ∀ i e, es[i]? = some e →
        Memory.read t.e.port.obuf (s.e.wptr.toNat + 2 * i) = some e.sym ∧
        Memory.read t.e.port.obuf (s.e.wptr.toNat + 2 * i + 1) = some e.len

/-- E_PBC completes where OBUF has room and writes PayloadBitCount, 8 bytes big-endian, at WPTR; WPTR
advances by 8; E_PACK follows (R179). -/
def Obligations.EPbcWritesTheBitCount : Prop :=
  ∀ s : State, s.e.wptr.toNat + 8 ≤ s.e.port.capOut.toNat →
    ∃ t, exec .ePbc s = .next t ∧ t.e.wptr.toNat = s.e.wptr.toNat + 8 ∧ t.e.port.phase = 0x0D#5 ∧
      ∀ i, i < 8 →
        Memory.read t.e.port.obuf (s.e.wptr.toNat + i) =
          some (BitVec.ofNat 8 (s.e.pbc.toNat / 2 ^ (8 * (7 - i))))

/-- E_PACK completes on a whole input whose full payload bytes fit OBUF: the canonical codewords of the input
bytes, in input order, are packed MSB-first from WPTR on; the bits of an incomplete byte are in ACC from bit
7 down with zeros below; BITCNT and NBITS count them; E_FLUSH follows (R180, 43_bitstream.md R156 to R160,
20_memory.md R67). BITCNT is the count modulo 2^64 where it does not fit, in states no run reaches: the model's
choice, log entry 11. -/
def Obligations.EPackPacksTheCodewords : Prop :=
  ∀ (s : State) (bs : List Byte) (bits : List Bool), hasInput s.e.port bs → bits = packedBits s.e bs →
    s.e.wptr.toNat + bits.length / 8 ≤ s.e.port.capOut.toNat →
    ∃ t, exec .ePack s = .next t ∧ t.e.port.phase = 0x0E#5 ∧
      t.e.wptr.toNat = s.e.wptr.toNat + bits.length / 8 ∧
      t.e.bitcnt = BitVec.ofNat 64 bits.length ∧ t.e.nbits = BitVec.ofNat 3 bits.length ∧
      t.e.idx.toNat = bs.length ∧
      (∀ k, k < bits.length / 8 → ∃ b, Memory.read t.e.port.obuf (s.e.wptr.toNat + k) = some b ∧
        ∀ j, j < 8 → b.getLsbD (7 - j) = bits.getD (8 * k + j) false) ∧
      (∀ j, j < 8 → t.e.acc.getLsbD (7 - j) = bits.getD (8 * (bits.length / 8) + j) false)

/-- E_FLUSH writes ACC as one byte where it holds bits, and nothing where it holds none; BITCNT stays; E_FIN
follows (R181, 43_bitstream.md R159). -/
def Obligations.EFlushWritesThePartialByte : Prop :=
  ∀ s : State,
    (s.e.nbits = 0#3 →
      exec .eFlush s = .next { s with e := { s.e with port := { s.e.port with phase := 0x0F#5 } } }) ∧
    (s.e.nbits ≠ 0#3 → s.e.wptr.toNat < s.e.port.capOut.toNat →
      ∃ t, exec .eFlush s = .next t ∧ t.e.acc = 0#8 ∧ t.e.nbits = 0#3 ∧ t.e.bitcnt = s.e.bitcnt ∧
        t.e.wptr.toNat = s.e.wptr.toNat + 1 ∧ t.e.port.phase = 0x0F#5 ∧
        Memory.read t.e.port.obuf s.e.wptr.toNat = some s.e.acc)

/-- E_FIN, one atomic update: OUT_LEN = OSIZE, NOGAIN = 1 exactly where OSIZE >= IN_LEN, DONE = 1, BUSY = 0,
IDLE; ERR and everything else stays (R182). -/
def Obligations.EFinCompletesTheCommand : Prop :=
  ∀ s : State,
    exec .eFin s = .next { s with e := { s.e with port := { s.e.port with
      outLen := s.e.osize, nogain := decide (s.e.port.inLen.toNat ≤ s.e.osize.toNat),
      done := true, busy := false, phase := 0x00#5 } } }

/-! The decoder: parsing (45_decoder.md section 2). -/

/-- D_INIT: InputTooLarge where IN_LEN > MAX_IN; else LEN and the reading state are cleared and D_MAGIC
follows; nothing else changes (R191). -/
def Obligations.DInitChecksAndClears : Prop :=
  ∀ s : State,
    (s.d.port.capIn.toNat < s.d.port.inLen.toNat →
      exec .dInit s = .next { s with d := { s.d with port := failedWith s.d.port 2#8 1#8 } }) ∧
    (s.d.port.inLen.toNat ≤ s.d.port.capIn.toNat →
      exec .dInit s = .next { s with d := { s.d with
        port := { s.d.port with phase := 0x11#5 },
        len := Vector.replicate 256 0#8, rptr := 0#64, bitpos := 0#64, ocnt := 0#64,
        curv := 0#255, curl := 0#8 } })

/-- D_MAGIC: TruncatedHeader with fewer than 4 bytes left; BadMagic where the first four bytes differ from
48 55 46 31; else RPTR = 4 and D_OLEN follows; nothing else changes (R192). -/
def Obligations.DMagicChecksTheMarker : Prop :=
  ∀ s : State,
    (s.d.port.inLen.toNat < s.d.rptr.toNat + 4 →
      exec .dMagic s = .next { s with d := { s.d with port := failedWith s.d.port 1#8 1#8 } }) ∧
    ∀ bs, s.d.rptr.toNat + 4 ≤ s.d.port.inLen.toNat → s.d.port.inLen.toNat ≤ s.d.port.capIn.toNat →
      bs.length = 4 → holdsBytes s.d.port.ibuf 0 bs →
      (bs ≠ [0x48#8, 0x55#8, 0x46#8, 0x31#8] →
        exec .dMagic s = .next { s with d := { s.d with port := failedWith s.d.port 1#8 2#8 } }) ∧
      (bs = [0x48#8, 0x55#8, 0x46#8, 0x31#8] →
        exec .dMagic s = .next { s with d := { s.d with
          port := { s.d.port with phase := 0x12#5 }, rptr := 4#64 } })

/-- D_OLEN: TruncatedHeader with fewer than 8 bytes left; else ORIGLEN is the big-endian value of IBUF[4..12),
RPTR = 12 and D_SCNT follows; nothing else changes (R193). -/
def Obligations.DOlenReadsTheLength : Prop :=
  ∀ s : State,
    (s.d.port.inLen.toNat < s.d.rptr.toNat + 8 →
      exec .dOlen s = .next { s with d := { s.d with port := failedWith s.d.port 1#8 1#8 } }) ∧
    ∀ v : Word64, s.d.rptr.toNat + 8 ≤ s.d.port.inLen.toNat → 12 ≤ s.d.port.inLen.toNat →
      s.d.port.inLen.toNat ≤ s.d.port.capIn.toNat →
      (∀ i, i < 8 → Memory.read s.d.port.ibuf (4 + i) = some (BitVec.ofNat 8 (v.toNat / 2 ^ (8 * (7 - i))))) →
      exec .dOlen s = .next { s with d := { s.d with
        port := { s.d.port with phase := 0x13#5 }, origlen := v, rptr := 12#64 } }

/-- D_SCNT: TruncatedHeader with fewer than 2 bytes left; else SYMCNT is the big-endian value of
IBUF[12..14) and RPTR = 14, and UnsupportedSymbolCount follows above 256, else D_TBL; nothing else changes
(R194). -/
def Obligations.DScntReadsTheCount : Prop :=
  ∀ s : State,
    (s.d.port.inLen.toNat < s.d.rptr.toNat + 2 →
      exec .dScnt s = .next { s with d := { s.d with port := failedWith s.d.port 1#8 1#8 } }) ∧
    ∀ hi lo : Byte, s.d.rptr.toNat + 2 ≤ s.d.port.inLen.toNat → 14 ≤ s.d.port.inLen.toNat →
      s.d.port.inLen.toNat ≤ s.d.port.capIn.toNat →
      Memory.read s.d.port.ibuf 12 = some hi → Memory.read s.d.port.ibuf 13 = some lo →
      exec .dScnt s = .next { s with d := { s.d with
        port := (if 256 < hi.toNat * 256 + lo.toNat then failedWith s.d.port 3#8 0#8
          else { s.d.port with phase := 0x14#5 }),
        symcnt := hi ++ lo, rptr := 14#64 } }

/-- D_TBL: InconsistentSizes where the table exceeds the bytes left, nothing else changed. A strictly sorted
table of SYMCNT <= 256 non-zero lengths without a repeated symbol, in a cleared LEN, is taken whole into CCL
and LEN; RPTR is past it, PAYBASE = 22 + 2 x SYMCNT, and D_PBC follows (R195). -/
def Obligations.DTblTakesASortedTable : Prop :=
  ∀ s : State,
    (s.d.port.inLen.toNat < s.d.rptr.toNat + 2 * s.d.symcnt.toNat → 0 < s.d.symcnt.toNat →
      exec .dTbl s = .next { s with d := { s.d with port := failedWith s.d.port 1#8 3#8 } }) ∧
    ∀ es : List Entry, s.d.rptr.toNat + 2 * s.d.symcnt.toNat ≤ s.d.port.inLen.toNat →
      s.d.port.inLen.toNat ≤ s.d.port.capIn.toNat →
      es.length = s.d.symcnt.toNat → es.length ≤ 256 →
      holdsBytes s.d.port.ibuf s.d.rptr.toNat (tableBytes es) →
      (∀ e ∈ es, e.len ≠ 0#8) → es.Pairwise Entry.Before → (es.map Entry.sym).Nodup →
      (∀ b, symRead s.d.len b = 0#8) →
      ∃ t, exec .dTbl s = .next t ∧ t.d.port.phase = 0x15#5 ∧
        t.d.rptr.toNat = s.d.rptr.toNat + 2 * es.length ∧
        t.d.paybase.toNat = 22 + 2 * es.length ∧
        cclPrefix t.d.ccl es.length = some es ∧
        (∀ e ∈ es, symRead t.d.len e.sym = e.len) ∧
        (∀ b, b ∉ es.map Entry.sym → symRead t.d.len b = 0#8)

/-- D_TBL reports the first offending entry: after a good part of the table, an entry of length 0 is
BadCodeLength, one that does not strictly follow its predecessor or repeats a symbol is BadTableOrder, in
this order, and the error exit is taken (R195, 60_exceptions.md R247 (8)). -/
def Obligations.DTblReportsTheFirstBadEntry : Prop :=
  ∀ (s : State) (good : List Entry) (e : Entry) (n : Nat),
    s.d.symcnt.toNat = good.length + 1 + n → s.d.symcnt.toNat ≤ 256 →
    s.d.rptr.toNat + 2 * s.d.symcnt.toNat ≤ s.d.port.inLen.toNat →
    s.d.port.inLen.toNat ≤ s.d.port.capIn.toNat →
    holdsBytes s.d.port.ibuf s.d.rptr.toNat (tableBytes (good ++ [e])) →
    (∀ g ∈ good, g.len ≠ 0#8) → good.Pairwise Entry.Before → (good.map Entry.sym).Nodup →
    (∀ b, symRead s.d.len b = 0#8) →
    (e.len = 0#8 → ∃ t, exec .dTbl s = .next t ∧ t.d.port = failedWith s.d.port 1#8 5#8) ∧
    (e.len ≠ 0#8 → ((∃ g, good.getLast? = some g ∧ ¬ Entry.Before g e) ∨ e.sym ∈ good.map Entry.sym) →
      ∃ t, exec .dTbl s = .next t ∧ t.d.port = failedWith s.d.port 1#8 6#8)

/-- What the entry checks establish: if D_TBL, from a cleared LEN, goes on to D_PBC, then CCL[0..SYMCNT) is
strictly ascending in (length, symbol), every length is in 1..255, and no symbol occurs twice (R196). -/
def Obligations.DTblEstablishesASortedTable : Prop :=
  ∀ s t : State, (∀ b, symRead s.d.len b = 0#8) →
    exec .dTbl s = .next t → t.d.port.phase = 0x15#5 →
    ∃ es, cclPrefix t.d.ccl s.d.symcnt.toNat = some es ∧ es.Pairwise Entry.Before ∧
      (∀ e ∈ es, e.len ≠ 0#8) ∧ (es.map Entry.sym).Nodup

/-- D_PBC: TruncatedHeader with fewer than 8 bytes left; else PBC is the big-endian value of the 8 bytes at
RPTR, RPTR advances by 8 and D_SIZE follows; nothing else changes (R197). -/
def Obligations.DPbcReadsTheBitCount : Prop :=
  ∀ s : State,
    (s.d.port.inLen.toNat < s.d.rptr.toNat + 8 →
      exec .dPbc s = .next { s with d := { s.d with port := failedWith s.d.port 1#8 1#8 } }) ∧
    ∀ v : Word64, s.d.rptr.toNat + 8 ≤ s.d.port.inLen.toNat →
      s.d.port.inLen.toNat ≤ s.d.port.capIn.toNat →
      (∀ i, i < 8 →
        Memory.read s.d.port.ibuf (s.d.rptr.toNat + i) = some (BitVec.ofNat 8 (v.toNat / 2 ^ (8 * (7 - i))))) →
      exec .dPbc s = .next { s with d := { s.d with
        port := { s.d.port with phase := 0x16#5 }, pbc := v, rptr := s.d.rptr + 8#64 } }

/-- D_SIZE: InconsistentSizes where the bytes left are not exactly ceil8(PBC), shorter or longer; then
OutputTooLarge where ORIGLEN > MAX_OUT; else D_EMPTY, D_SINGLE or D_CANON follows as SYMCNT is 0, 1 or more;
nothing else changes (R198 to R200). -/
def Obligations.DSizeChecksAndDispatches : Prop :=
  ∀ s : State, s.d.rptr.toNat ≤ s.d.port.inLen.toNat →
    (s.d.port.inLen.toNat ≠ s.d.rptr.toNat + (s.d.pbc.toNat + 7) / 8 →
      exec .dSize s = .next { s with d := { s.d with port := failedWith s.d.port 1#8 3#8 } }) ∧
    (s.d.port.inLen.toNat = s.d.rptr.toNat + (s.d.pbc.toNat + 7) / 8 →
      (s.d.port.capOut.toNat < s.d.origlen.toNat →
        exec .dSize s = .next { s with d := { s.d with port := failedWith s.d.port 2#8 2#8 } }) ∧
      (s.d.origlen.toNat ≤ s.d.port.capOut.toNat →
        exec .dSize s = .next { s with d := { s.d with port := { s.d.port with
          phase := if s.d.symcnt.toNat = 0 then 0x18#5 else if s.d.symcnt.toNat = 1 then 0x19#5 else 0x17#5 } } }))

/-! The decoder: the code and the output (45_decoder.md sections 3 and 4). -/

/-- D_CANON passes a table of ascending lengths exactly when the sum of 2^(-length) over its entries is 1, and
D_WALK follows with the canonical codes; any other table is InvalidCode (R201). -/
def Obligations.DCanonAcceptsExactlyCompleteCodes : Prop :=
  ∀ (s : State) (es : List Entry), cclPrefix s.d.ccl s.d.symcnt.toNat = some es → 2 ≤ es.length →
    lengthsAscend es →
    ∃ t, exec .dCanon s = .next t ∧
      (kraft es = 2 ^ 255 → t.d.port = { s.d.port with phase := 0x1A#5 } ∧
        ((es.map Entry.sym).Nodup → ∀ i e, es[i]? = some e →
          (symRead t.d.code e.sym).toNat * 2 ^ (255 - e.len.toNat) = kraft (es.take i))) ∧
      (kraft es ≠ 2 ^ 255 → t.d.port = failedWith s.d.port 1#8 7#8)

/-- D_EMPTY: InconsistentSizes where ORIGLEN is not 0, else D_FIN follows; nothing else changes (R203). -/
def Obligations.DEmptyPromisesNothing : Prop :=
  ∀ s : State,
    (s.d.origlen ≠ 0#64 →
      exec .dEmpty s = .next { s with d := { s.d with port := failedWith s.d.port 1#8 3#8 } }) ∧
    (s.d.origlen = 0#64 →
      exec .dEmpty s = .next { s with d := { s.d with port := { s.d.port with phase := 0x1B#5 } } })

/-- D_SINGLE completes where ORIGLEN <= MAX_OUT and writes the one symbol to OBUF[OCNT..ORIGLEN); OCNT ends
at ORIGLEN, BITPOS at PBC, and D_FIN follows: the payload is not examined (R204). -/
def Obligations.DSingleRepeatsTheSymbol : Prop :=
  ∀ (s : State) (e : Entry), cclRead s.d.ccl 0 = some e → s.d.ocnt.toNat ≤ s.d.origlen.toNat →
    s.d.origlen.toNat ≤ s.d.port.capOut.toNat →
    ∃ t, exec .dSingle s = .next t ∧ t.d.port.phase = 0x1B#5 ∧ t.d.ocnt = s.d.origlen ∧
      t.d.bitpos = s.d.pbc ∧
      ∀ i, s.d.ocnt.toNat ≤ i → i < s.d.origlen.toNat → Memory.read t.d.port.obuf i = some e.sym

/-- D_WALK inverts the packing: where the payload bits from BITPOS = 0 on are the codewords of the symbols
out under a prefix code, and ORIGLEN asks for exactly those, D_WALK writes them to OBUF in order, consumes
exactly their bits, is back at the root, and D_FIN follows. Where ORIGLEN asks for more and the PBC meaningful
bits are the codewords of out and then the beginning of a codeword, or nothing, it writes out, consumes all
bits and reports BitCountMismatch; so it does, at once, where no bit is left at its start (R205, R202;
43_bitstream.md R161, R163). -/
def Obligations.DWalkInvertsThePacking : Prop :=
  (∀ (s : State) (pay out : List Byte) (bits : List Bool),
    prefixCode s.d.code s.d.len → (∀ b ∈ out, symRead s.d.len b ≠ 0#8) →
    bits = out.flatMap (fun b => codewordOf s.d.code s.d.len b) →
    holdsBytes s.d.port.ibuf s.d.paybase.toNat pay →
    s.d.paybase.toNat + pay.length ≤ s.d.port.inLen.toNat → s.d.port.inLen.toNat ≤ s.d.port.capIn.toNat →
    bits.length ≤ s.d.pbc.toNat → s.d.pbc.toNat ≤ 8 * pay.length →
    (∀ k, k < bits.length → packedBit pay k = bits.getD k false) →
    s.d.bitpos = 0#64 → s.d.curv = 0#255 → s.d.curl = 0#8 →
    s.d.ocnt.toNat + out.length = s.d.origlen.toNat → s.d.origlen.toNat ≤ s.d.port.capOut.toNat →
    ∃ t, exec .dWalk s = .next t ∧ t.d.port.phase = 0x1B#5 ∧ t.d.bitpos.toNat = bits.length ∧
      t.d.ocnt = s.d.origlen ∧ t.d.curv = 0#255 ∧ t.d.curl = 0#8 ∧
      holdsBytes t.d.port.obuf s.d.ocnt.toNat out) ∧
  (∀ (s : State) (pay out : List Byte) (part bits : List Bool),
    prefixCode s.d.code s.d.len → (∀ b ∈ out, symRead s.d.len b ≠ 0#8) →
    (part = [] ∨ ∃ b, symRead s.d.len b ≠ 0#8 ∧ part <+: codewordOf s.d.code s.d.len b ∧
      part ≠ codewordOf s.d.code s.d.len b) →
    bits = out.flatMap (fun b => codewordOf s.d.code s.d.len b) ++ part →
    holdsBytes s.d.port.ibuf s.d.paybase.toNat pay →
    s.d.paybase.toNat + pay.length ≤ s.d.port.inLen.toNat → s.d.port.inLen.toNat ≤ s.d.port.capIn.toNat →
    bits.length = s.d.pbc.toNat → s.d.pbc.toNat ≤ 8 * pay.length →
    (∀ k, k < bits.length → packedBit pay k = bits.getD k false) →
    s.d.bitpos = 0#64 → s.d.curv = 0#255 → s.d.curl = 0#8 →
    s.d.ocnt.toNat + out.length < s.d.origlen.toNat → s.d.origlen.toNat ≤ s.d.port.capOut.toNat →
    ∃ t, exec .dWalk s = .next t ∧
      t.d.port = failedWith { s.d.port with obuf := t.d.port.obuf } 1#8 4#8 ∧
      t.d.bitpos = s.d.pbc ∧ t.d.ocnt.toNat = s.d.ocnt.toNat + out.length ∧
      holdsBytes t.d.port.obuf s.d.ocnt.toNat out) ∧
  ∀ s : State, s.d.bitpos = s.d.pbc → s.d.ocnt.toNat < s.d.origlen.toNat →
    exec .dWalk s = .next { s with d := { s.d with port := failedWith s.d.port 1#8 4#8 } }

/-- D_FIN: BitCountMismatch where BITPOS is not PBC; else, one atomic update, OUT_LEN = ORIGLEN, DONE = 1,
BUSY = 0, IDLE; ERR, NOGAIN and everything else stays (R206). -/
def Obligations.DFinCompletesTheCommand : Prop :=
  ∀ s : State,
    (s.d.bitpos ≠ s.d.pbc →
      exec .dFin s = .next { s with d := { s.d with port := failedWith s.d.port 1#8 4#8 } }) ∧
    (s.d.bitpos = s.d.pbc →
      exec .dFin s = .next { s with d := { s.d with port := { s.d.port with
        outLen := s.d.origlen, done := true, busy := false, phase := 0x00#5 } } })

/-- HUF1_CONTAINER, the model's reading of the table's data row (log entry 9): a well-formed container
presented to an idle unit D with room for it is in D.IBUF from index 0 on, byte for byte as R80 lays it out,
IN_LEN is its length, and nothing else changes; on a busy unit D, and where IBUF has not so many bytes, it is
refused. -/
def Obligations.ContainerIsPlacedInIbufOfD : Prop :=
  ∀ (s : State) (c : Container) (bs : List Byte), encode (.huf1Container c) = .bytes bs →
    (s.d.port.busy = true → exec (.huf1Container c) s = .refused .ibufWriteWhileBusy) ∧
    (s.d.port.busy = false → s.d.port.capIn.toNat < bs.length →
      exec (.huf1Container c) s = .refused .indexOutOfRange) ∧
    (s.d.port.busy = false → bs.length ≤ s.d.port.capIn.toNat →
      ∃ t, exec (.huf1Container c) s = .next t ∧
        t = { s with d := { s.d with port := { s.d.port with
          ibuf := t.d.port.ibuf, inLen := BitVec.ofNat 64 bs.length } } } ∧
        holdsBytes t.d.port.ibuf 0 bs ∧ sameOutside s.d.port.ibuf t.d.port.ibuf 0 bs.length)

/-- A phase that reads an IBUF byte below IN_LEN which the host never wrote since reset is refused, by name
(V5's choice, log entry 2): the two passes of unit E over the whole input, the fixed fields of unit D, the
first entry D_TBL reads and the next bit D_WALK reads (70_reset_and_hazards.md R274). -/
def Obligations.UnwrittenInputIsRefused : Prop :=
  ∀ (s : State) (i : Nat),
    (s.e.port.inLen.toNat ≤ s.e.port.capIn.toNat → i < s.e.port.inLen.toNat →
      Memory.read s.e.port.ibuf i = none →
      exec .eScan s = .refused .inputByteUnwritten ∧ exec .ePack s = .refused .inputByteUnwritten) ∧
    (s.d.port.inLen.toNat ≤ s.d.port.capIn.toNat → Memory.read s.d.port.ibuf i = none →
      (i < 4 → 4 ≤ remBytes s.d → exec .dMagic s = .refused .inputByteUnwritten) ∧
      (4 ≤ i → i < 12 → 8 ≤ remBytes s.d → 12 ≤ s.d.port.inLen.toNat →
        exec .dOlen s = .refused .inputByteUnwritten) ∧
      (12 ≤ i → i < 14 → 2 ≤ remBytes s.d → 14 ≤ s.d.port.inLen.toNat →
        exec .dScnt s = .refused .inputByteUnwritten) ∧
      (s.d.rptr.toNat ≤ i → i < s.d.rptr.toNat + 2 → 0 < s.d.symcnt.toNat →
        2 * s.d.symcnt.toNat ≤ remBytes s.d → exec .dTbl s = .refused .inputByteUnwritten) ∧
      (s.d.rptr.toNat ≤ i → i < s.d.rptr.toNat + 8 → 8 ≤ remBytes s.d →
        exec .dPbc s = .refused .inputByteUnwritten) ∧
      (i = s.d.paybase.toNat + s.d.bitpos.toNat / 8 → i < s.d.port.inLen.toNat → s.d.bitpos ≠ s.d.pbc →
        s.d.ocnt.toNat < s.d.origlen.toNat → exec .dWalk s = .refused .inputByteUnwritten))

/-! Frames (46_commands_sequencer.md R235). -/

/-- The phases of unit E that store nothing write their own working registers and PHASE, and nothing else:
no flag, no other register, no byte of memory (R235; R111, R122, R124, R136, R140, R142). On an empty
collection, which no run brings to E_MERGE, ROOT becomes a free value and the model's counter of free values
advances: the model's choice, log entry 12. -/
def Obligations.EncoderRegisterPhasesFrame : Prop :=
  ∀ s t : State,
    (exec .eScan s = .next t → t = { s with e := { s.e with
      port := { s.e.port with phase := t.e.port.phase },
      idx := t.e.idx, freq := t.e.freq, seq := t.e.seq, nsym := t.e.nsym } }) ∧
    (exec .eLeaf s = .next t → t = { s with e := { s.e with
      port := { s.e.port with phase := t.e.port.phase },
      node := t.e.node, inq := t.e.inq, nnode := t.e.nnode } }) ∧
    (exec .eMerge s = .next t → members s.e.inq ≠ [] → t = { s with e := { s.e with
      port := { s.e.port with phase := t.e.port.phase },
      node := t.e.node, inq := t.e.inq, nnode := t.e.nnode, root := t.e.root } }) ∧
    (exec .eMerge s = .next t → members s.e.inq = [] → t = { s with free := s.free + 1, e := { s.e with
      port := { s.e.port with phase := t.e.port.phase }, root := t.e.root } }) ∧
    (exec .eWalk s = .next t → t = { s with e := { s.e with
      port := { s.e.port with phase := t.e.port.phase }, len := t.e.len, tpat := t.e.tpat } }) ∧
    (exec .eSort s = .next t → t = { s with e := { s.e with
      port := { s.e.port with phase := t.e.port.phase }, ccl := t.e.ccl } }) ∧
    (exec .eCanon s = .next t → t = { s with e := { s.e with
      port := { s.e.port with phase := t.e.port.phase }, code := t.e.code, run := t.e.run } })

/-- The phases of unit E that store to OBUF write their own registers, PHASE and the bytes named: E_HDR
OBUF[0..14), E_TBL 2 x NSYM bytes from WPTR, E_PBC 8 bytes from WPTR, E_PACK one byte from WPTR on for every
eight bits of the codewords, E_FLUSH one byte at WPTR where ACC holds bits (R235; R177 to R181). -/
def Obligations.EncoderStoringPhasesFrame : Prop :=
  ∀ s t : State,
    (exec .eHdr s = .next t → t = { s with e := { s.e with
        port := { s.e.port with phase := t.e.port.phase, obuf := t.e.port.obuf }, wptr := t.e.wptr } } ∧
      sameOutside s.e.port.obuf t.e.port.obuf 0 14) ∧
    (exec .eTbl s = .next t → t = { s with e := { s.e with
        port := { s.e.port with phase := t.e.port.phase, obuf := t.e.port.obuf }, wptr := t.e.wptr } } ∧
      sameOutside s.e.port.obuf t.e.port.obuf s.e.wptr.toNat (2 * s.e.nsym.toNat)) ∧
    (exec .ePbc s = .next t → t = { s with e := { s.e with
        port := { s.e.port with phase := t.e.port.phase, obuf := t.e.port.obuf }, wptr := t.e.wptr } } ∧
      sameOutside s.e.port.obuf t.e.port.obuf s.e.wptr.toNat 8) ∧
    (exec .ePack s = .next t → t = { s with e := { s.e with
        port := { s.e.port with phase := t.e.port.phase, obuf := t.e.port.obuf },
        idx := t.e.idx, acc := t.e.acc, nbits := t.e.nbits, wptr := t.e.wptr, bitcnt := t.e.bitcnt } } ∧
      ∀ bs, hasInput s.e.port bs →
        sameOutside s.e.port.obuf t.e.port.obuf s.e.wptr.toNat ((packedBits s.e bs).length / 8)) ∧
    (exec .eFlush s = .next t → t = { s with e := { s.e with
        port := { s.e.port with phase := t.e.port.phase, obuf := t.e.port.obuf },
        acc := t.e.acc, nbits := t.e.nbits, wptr := t.e.wptr } } ∧
      sameOutside s.e.port.obuf t.e.port.obuf s.e.wptr.toNat (if s.e.nbits = 0#3 then 0 else 1))

/-- D_TBL, D_CANON, D_SINGLE and D_WALK write their own working registers, OBUF[OCNT..ORIGLEN) (D_SINGLE and
D_WALK only), and PHASE or, through the error exit, what that writes; nothing else (R235; R195, R201, R204,
R205). -/
def Obligations.DecoderLoopPhasesFrame : Prop :=
  ∀ s t : State,
    (exec .dTbl s = .next t → t = { s with d := { s.d with
        port := t.d.port, ccl := t.d.ccl, len := t.d.len, rptr := t.d.rptr, paybase := t.d.paybase } } ∧
      (t.d.port = { s.d.port with phase := 0x15#5 } ∨
        ∃ sub, t.d.port = failedWith s.d.port 1#8 sub)) ∧
    (exec .dCanon s = .next t → t = { s with d := { s.d with
        port := t.d.port, code := t.d.code, run := t.d.run } } ∧
      (t.d.port = { s.d.port with phase := 0x1A#5 } ∨ t.d.port = failedWith s.d.port 1#8 7#8)) ∧
    (exec .dSingle s = .next t → t = { s with d := { s.d with
        port := { s.d.port with phase := t.d.port.phase, obuf := t.d.port.obuf },
        ocnt := t.d.ocnt, bitpos := t.d.bitpos } } ∧
      sameOutside s.d.port.obuf t.d.port.obuf s.d.ocnt.toNat (s.d.origlen.toNat - s.d.ocnt.toNat)) ∧
    (exec .dWalk s = .next t → t = { s with d := { s.d with
        port := t.d.port, curv := t.d.curv, curl := t.d.curl, bitpos := t.d.bitpos, ocnt := t.d.ocnt } } ∧
      (t.d.port = { s.d.port with phase := 0x1B#5, obuf := t.d.port.obuf } ∨
        t.d.port = failedWith { s.d.port with obuf := t.d.port.obuf } 1#8 4#8) ∧
      sameOutside s.d.port.obuf t.d.port.obuf s.d.ocnt.toNat (s.d.origlen.toNat - s.d.ocnt.toNat))

/-! Rules of the whole machine. -/

/-- Units share nothing: an instruction of one unit leaves the other, the host's script, the schedule and
what the host has seen as they are, and what it does to its own unit, be it a next state or a stop, is the same
whatever these are (10_state.md R20, 60_exceptions.md R260). -/
def Obligations.UnitsShareNothing : Prop :=
  (∀ (i : Instr) (s t : State), exec i s = .next t →
    (instrUnit i = .E → t.d = s.d) ∧ (instrUnit i = .D → t.e = s.e) ∧
    t.script = s.script ∧ t.sched = s.sched ∧ t.seen = s.seen) ∧
  ∀ (i : Instr) (s r : State),
    (instrUnit i = .E → s.e = r.e) → (instrUnit i = .D → s.d = r.d) → s.free = r.free →
    (∀ t, exec i s = .next t → ∃ t', exec i r = .next t' ∧
      (instrUnit i = .E → t'.e = t.e) ∧ (instrUnit i = .D → t'.d = t.d) ∧ t'.free = t.free) ∧
    (∀ f, exec i s = .fault f → exec i r = .fault f) ∧
    ∀ x, exec i s = .refused x → exec i r = .refused x

/-- No command and no phase operation writes IBUF, IN_LEN, CAP_IN or CAP_OUT of any unit: only the host
places an input (20_memory.md R61, 10_state.md R30, R32). -/
def Obligations.UnitsNeverWriteTheirInput : Prop :=
  ∀ (i : Instr) (s t : State) (u : UnitKind), (∀ c, i ≠ .huf1Container c) → exec i s = .next t →
    (t.port u).ibuf = (s.port u).ibuf ∧ (t.port u).inLen = (s.port u).inLen ∧
    (t.port u).capIn = (s.port u).capIn ∧ (t.port u).capOut = (s.port u).capOut

/-- BUSY, DONE, ERR, NOGAIN, the ERR register and OUT_LEN are written by no phase except E_FIN and D_FIN, but
through the error exit (46_commands_sequencer.md R235 (c), its part on phases; what acceptance, CLR and a refused
opcode write is said of these commands). -/
def Obligations.PhasesKeepTheHostRegisters : Prop :=
  ∀ (i : Instr) (s t : State) (u : UnitKind), instrSuccessors i ≠ [] → i ≠ .eFin → i ≠ .dFin →
    exec i s = .next t →
    ((t.port u).busy = (s.port u).busy ∧ (t.port u).done = (s.port u).done ∧ (t.port u).err = (s.port u).err ∧
      (t.port u).nogain = (s.port u).nogain ∧ (t.port u).errCode = (s.port u).errCode ∧
      (t.port u).errSub = (s.port u).errSub ∧ (t.port u).outLen = (s.port u).outLen) ∨
    ∃ code sub, t.port u = failedWith { s.port u with obuf := (t.port u).obuf } code sub

/-- Every phase operation goes on to one of its successors in the tables of R231 and R232, or takes the error
exit with one of the ten pairs of a running command (R231, R232, 60_exceptions.md R241, R250). -/
def Obligations.PhasesFollowTheTransitionTables : Prop :=
  ∀ (i : Instr) (s t : State), instrSuccessors i ≠ [] → exec i s = .next t →
    (t.port (instrUnit i)).phase ∈ instrSuccessors i ∨
    ∃ code sub, (code, sub) ∈ errorPairs ∧ code ≠ 0#8 ∧ code ≠ 4#8 ∧
      t.port (instrUnit i) = failedWith { s.port (instrUnit i) with
        obuf := (t.port (instrUnit i)).obuf } code sub

/-- The machine after reset meets the invariant (the capacities it has are the model's choice, log entry 4). -/
def Obligations.ResetMeetsTheInvariant : Prop := Inv State.reset

/-- Every step keeps the invariant: the memories keep their canonical form and their bounds, PHASE holds a
code of its unit and IDLE exactly when BUSY = 0, the STATUS invariants of R28 hold, only the pairs of R241 are
ever recorded, the capacities stay in range, NOGAIN is 0 on unit D (R8, R26, R28, R34, R227, R241). -/
def Obligations.EveryStepKeepsTheInvariant : Prop :=
  ∀ s t : State, Inv s → step s = .next t → Inv t

/-- A busy unit comes to rest in the model's default order of turns (log entry 6: no schedule, a busy unit
before the host, E before D): unit E is idle after at most 15 steps, and, while E is idle, unit D after at most
12, unless the machine stops (R228, 70_reset_and_hazards.md R288; one step is one whole phase, log entry 5). -/
def Obligations.BusyUnitsComeToRest : Prop :=
  ∀ s : State, Inv s → s.sched = [] →
    (s.e.port.busy = true → ∃ k, k ≤ 15 ∧ ∀ t, Sys2Proof.core.run k s = .next t → t.e.port.busy = false) ∧
    (s.e.port.busy = false → s.d.port.busy = true →
      ∃ k, k ≤ 12 ∧ ∀ t, Sys2Proof.core.run k s = .next t → t.d.port.busy = false)

/-! The host (10_state.md section 2, 20_memory.md, 70_reset_and_hazards.md). -/

/-- STATUS has BUSY in bit 0, DONE in 1, ERR in 2, NOGAIN in 3, PHASE in [12:8], ERR has CODE in [7:0] and SUB
in [15:8]; every other bit reads as 0 (R21, R23 to R27, R29). That PHASE is the exact copy also while BUSY = 1,
where the spec lets a host depend on no value, is the model's choice, log entry 16. -/
def Obligations.StatusAndErrLayout : Prop :=
  ∀ (p : Port) (i : Nat),
    (statusWord p).getLsbD i =
      (if i = 0 then p.busy else if i = 1 then p.done else if i = 2 then p.err else if i = 3 then p.nogain
        else if 8 ≤ i ∧ i ≤ 12 then p.phase.getLsbD (i - 8) else false) ∧
    (errWord p).getLsbD i =
      (if i < 8 then p.errCode.getLsbD i else if i < 16 then p.errSub.getLsbD (i - 8) else false)

/-- The REG space but for writes to CMD, which issue commands and have statements of their own
(StepRunsTheDecodedInstruction, CommandsAreIgnoredWhileBusy): a host read of a register returns its value and has
no side effect, only what the host has seen grows (20_memory.md R63); a host write to IN_LEN of an idle unit sets
it and nothing else; one to IN_LEN of a busy unit, and one to a read-only register, changes nothing (10_state.md
R21, R30); a read or write at any other offset is refused (R69; V6). That a read of STATUS while BUSY = 1 shows
PHASE itself is the model's choice, log entry 16. -/
def Obligations.RegAccessesReachOnlyInLen : Prop :=
  ∀ (s : State) (u : UnitKind) (off : Nat) (rest : List HostLine), nextAgent s = .host →
    (s.script = .rdReg u off :: rest →
      step s =
        (match [0#64, statusWord (s.port u), errWord (s.port u), (s.port u).inLen, (s.port u).outLen,
            (s.port u).capIn, (s.port u).capOut, unitIdWord u][off / 8]? with
          | some v => if off % 8 = 0 then .next { s with
              sched := s.sched.tail, script := rest, seen := .reg u off v :: s.seen } else .refused .badRegAccess
          | none => .refused .badRegAccess)) ∧
    ∀ v, s.script = .wrReg u off v :: rest →
      (off = 0x18 → (s.port u).busy = false →
        step s = .next (({ s with sched := s.sched.tail, script := rest }).withPort u
          { s.port u with inLen := v })) ∧
      (off = 0x18 → (s.port u).busy = true →
        step s = .next { s with sched := s.sched.tail, script := rest }) ∧
      (off ∈ [0x08, 0x10, 0x20, 0x28, 0x30, 0x38] →
        step s = .next { s with sched := s.sched.tail, script := rest }) ∧
      (off ∉ [0x00, 0x08, 0x10, 0x18, 0x20, 0x28, 0x30, 0x38] → step s = .refused .badRegAccess)

/-- A host write to IBUF[i] of an idle unit changes that byte and no other; while BUSY it is refused, and so
is one beyond MAX_IN (20_memory.md R61, 70_reset_and_hazards.md R277, R287). -/
def Obligations.IbufWritesReachOneByte : Prop :=
  ∀ (s : State) (u : UnitKind) (i : Nat) (b : Byte) (rest : List HostLine),
    nextAgent s = .host → s.script = .wrIbuf u i b :: rest →
    ((s.port u).busy = true → step s = .refused .ibufWriteWhileBusy) ∧
    ((s.port u).busy = false → (s.port u).capIn.toNat ≤ i → step s = .refused .indexOutOfRange) ∧
    ((s.port u).busy = false → i < (s.port u).capIn.toNat →
      ∃ m, step s = .next (({ s with sched := s.sched.tail, script := rest }).withPort u
          { s.port u with ibuf := m }) ∧
        Memory.read m i = some b ∧ ∀ k, k ≠ i → Memory.read m k = Memory.read (s.port u).ibuf k)

/-- A host read of OBUF[i] below OUT_LEN of a finished command returns byte i of the result, also after a
refused opcode, and changes only what the host has seen (20_memory.md R62, R287, 46 R226). -/
def Obligations.ResultBytesAreReadBack : Prop :=
  ∀ (s : State) (u : UnitKind) (i : Nat) (b : Byte) (rest : List HostLine),
    nextAgent s = .host → s.script = .rdObuf u i :: rest →
    (s.port u).busy = false → (s.port u).done = true → i < (s.port u).outLen.toNat →
    i < (s.port u).capOut.toNat → Memory.read (s.port u).obuf i = some b →
    step s = .next { s with sched := s.sched.tail, script := rest, seen := .obuf u i b :: s.seen }

/-- After reset both units' STATUS, ERR, IN_LEN and OUT_LEN are 0 and PHASE is IDLE (10_state.md R51); the
reset line of the host brings a unit there, busy or not, with the same capacities, and leaves the other unit,
the rest of the script and what the host has seen as they are (70_reset_and_hazards.md R270, R271). -/
def Obligations.ResetReturnsAUnitToIdle : Prop :=
  (∀ u : UnitKind, statusWord (State.reset.port u) = 0#64 ∧ errWord (State.reset.port u) = 0#64 ∧
    (State.reset.port u).inLen = 0#64 ∧ (State.reset.port u).outLen = 0#64 ∧
    (State.reset.port u).phase = 0x00#5) ∧
  ∀ (s : State) (u : UnitKind) (rest : List HostLine), nextAgent s = .host → s.script = .reset u :: rest →
    ∃ t, step s = .next t ∧
      statusWord (t.port u) = 0#64 ∧ errWord (t.port u) = 0#64 ∧ (t.port u).inLen = 0#64 ∧
      (t.port u).outLen = 0#64 ∧ (t.port u).phase = 0x00#5 ∧
      (t.port u).capIn = (s.port u).capIn ∧ (t.port u).capOut = (s.port u).capOut ∧
      (u = .E → t.d = s.d) ∧ (u = .D → t.e = s.e) ∧ t.script = rest ∧ t.seen = s.seen
end

