-- ==== Sys2Proof/Laws/State.lean ====
section
/-! SUPPORT. One small lemma per field and update of the machine and of its two units, true by rfl, so that
no proof unfolds a record update. -/

namespace Sys2Proof.Machine

/-! The machine with a unit replaced. -/

@[simp] theorem withE_e (s : State) (u : UnitE) : (s.withE u).e = u := rfl
@[simp] theorem withE_d (s : State) (u : UnitE) : (s.withE u).d = s.d := rfl
@[simp] theorem withE_script (s : State) (u : UnitE) : (s.withE u).script = s.script := rfl
@[simp] theorem withE_sched (s : State) (u : UnitE) : (s.withE u).sched = s.sched := rfl
@[simp] theorem withE_seen (s : State) (u : UnitE) : (s.withE u).seen = s.seen := rfl
@[simp] theorem withE_free (s : State) (u : UnitE) : (s.withE u).free = s.free := rfl
@[simp] theorem withD_e (s : State) (u : UnitD) : (s.withD u).e = s.e := rfl
@[simp] theorem withD_d (s : State) (u : UnitD) : (s.withD u).d = u := rfl
@[simp] theorem withD_script (s : State) (u : UnitD) : (s.withD u).script = s.script := rfl
@[simp] theorem withD_sched (s : State) (u : UnitD) : (s.withD u).sched = s.sched := rfl
@[simp] theorem withD_seen (s : State) (u : UnitD) : (s.withD u).seen = s.seen := rfl
@[simp] theorem withD_free (s : State) (u : UnitD) : (s.withD u).free = s.free := rfl

@[simp] theorem port_E (s : State) : s.port .E = s.e.port := rfl
@[simp] theorem port_D (s : State) : s.port .D = s.d.port := rfl
@[simp] theorem withPort_E (s : State) (p : Port) : s.withPort .E p = s.withE { s.e with port := p } := rfl
@[simp] theorem withPort_D (s : State) (p : Port) : s.withPort .D p = s.withD { s.d with port := p } := rfl

/-- Replacing a unit's common part is seen there and nowhere else. -/
@[simp] theorem port_withPort_same (s : State) (k : UnitKind) (p : Port) : (s.withPort k p).port k = p := by
  cases k <;> rfl

theorem port_withPort_other (s : State) (k k' : UnitKind) (p : Port) (h : k' ≠ k) :
    (s.withPort k p).port k' = s.port k' := by
  cases k <;> cases k' <;> first | rfl | exact absurd rfl h

@[simp] theorem withPort_script (s : State) (k : UnitKind) (p : Port) : (s.withPort k p).script = s.script := by
  cases k <;> rfl
@[simp] theorem withPort_sched (s : State) (k : UnitKind) (p : Port) : (s.withPort k p).sched = s.sched := by
  cases k <;> rfl
@[simp] theorem withPort_seen (s : State) (k : UnitKind) (p : Port) : (s.withPort k p).seen = s.seen := by
  cases k <;> rfl
@[simp] theorem withPort_free (s : State) (k : UnitKind) (p : Port) : (s.withPort k p).free = s.free := by
  cases k <;> rfl

/-! A free value taken, a read seen, a turn taken. -/

@[simp] theorem takeFree_e (s : State) : s.takeFree.e = s.e := rfl
@[simp] theorem takeFree_d (s : State) : s.takeFree.d = s.d := rfl
@[simp] theorem takeFree_script (s : State) : s.takeFree.script = s.script := rfl
@[simp] theorem takeFree_sched (s : State) : s.takeFree.sched = s.sched := rfl
@[simp] theorem takeFree_seen (s : State) : s.takeFree.seen = s.seen := rfl
@[simp] theorem takeFree_free (s : State) : s.takeFree.free = s.free + 1 := rfl
@[simp] theorem see_e (s : State) (x : Seen) : (s.see x).e = s.e := rfl
@[simp] theorem see_d (s : State) (x : Seen) : (s.see x).d = s.d := rfl
@[simp] theorem see_script (s : State) (x : Seen) : (s.see x).script = s.script := rfl
@[simp] theorem see_sched (s : State) (x : Seen) : (s.see x).sched = s.sched := rfl
@[simp] theorem see_seen (s : State) (x : Seen) : (s.see x).seen = x :: s.seen := rfl
@[simp] theorem see_free (s : State) (x : Seen) : (s.see x).free = s.free := rfl
@[simp] theorem takeTurn_e (s : State) : (takeTurn s).e = s.e := rfl
@[simp] theorem takeTurn_d (s : State) : (takeTurn s).d = s.d := rfl
@[simp] theorem takeTurn_script (s : State) : (takeTurn s).script = s.script := rfl
@[simp] theorem takeTurn_sched (s : State) : (takeTurn s).sched = s.sched.tail := rfl
@[simp] theorem takeTurn_seen (s : State) : (takeTurn s).seen = s.seen := rfl
@[simp] theorem takeTurn_free (s : State) : (takeTurn s).free = s.free := rfl

/-! `PHASE <- q` on unit E. -/

@[simp] theorem gotoE_port (u : UnitE) (q : BitVec 5) : (u.goto q).port = { u.port with phase := q } := rfl
@[simp] theorem gotoE_idx (u : UnitE) (q : BitVec 5) : (u.goto q).idx = u.idx := rfl
@[simp] theorem gotoE_freq (u : UnitE) (q : BitVec 5) : (u.goto q).freq = u.freq := rfl
@[simp] theorem gotoE_seq (u : UnitE) (q : BitVec 5) : (u.goto q).seq = u.seq := rfl
@[simp] theorem gotoE_nsym (u : UnitE) (q : BitVec 5) : (u.goto q).nsym = u.nsym := rfl
@[simp] theorem gotoE_node (u : UnitE) (q : BitVec 5) : (u.goto q).node = u.node := rfl
@[simp] theorem gotoE_nnode (u : UnitE) (q : BitVec 5) : (u.goto q).nnode = u.nnode := rfl
@[simp] theorem gotoE_root (u : UnitE) (q : BitVec 5) : (u.goto q).root = u.root := rfl
@[simp] theorem gotoE_inq (u : UnitE) (q : BitVec 5) : (u.goto q).inq = u.inq := rfl
@[simp] theorem gotoE_len (u : UnitE) (q : BitVec 5) : (u.goto q).len = u.len := rfl
@[simp] theorem gotoE_tpat (u : UnitE) (q : BitVec 5) : (u.goto q).tpat = u.tpat := rfl
@[simp] theorem gotoE_ccl (u : UnitE) (q : BitVec 5) : (u.goto q).ccl = u.ccl := rfl
@[simp] theorem gotoE_code (u : UnitE) (q : BitVec 5) : (u.goto q).code = u.code := rfl
@[simp] theorem gotoE_run (u : UnitE) (q : BitVec 5) : (u.goto q).run = u.run := rfl
@[simp] theorem gotoE_pbc (u : UnitE) (q : BitVec 5) : (u.goto q).pbc = u.pbc := rfl
@[simp] theorem gotoE_osize (u : UnitE) (q : BitVec 5) : (u.goto q).osize = u.osize := rfl
@[simp] theorem gotoE_acc (u : UnitE) (q : BitVec 5) : (u.goto q).acc = u.acc := rfl
@[simp] theorem gotoE_nbits (u : UnitE) (q : BitVec 5) : (u.goto q).nbits = u.nbits := rfl
@[simp] theorem gotoE_wptr (u : UnitE) (q : BitVec 5) : (u.goto q).wptr = u.wptr := rfl
@[simp] theorem gotoE_bitcnt (u : UnitE) (q : BitVec 5) : (u.goto q).bitcnt = u.bitcnt := rfl

/-! `PHASE <- q` on unit D. -/

@[simp] theorem gotoD_port (u : UnitD) (q : BitVec 5) : (u.goto q).port = { u.port with phase := q } := rfl
@[simp] theorem gotoD_rptr (u : UnitD) (q : BitVec 5) : (u.goto q).rptr = u.rptr := rfl
@[simp] theorem gotoD_origlen (u : UnitD) (q : BitVec 5) : (u.goto q).origlen = u.origlen := rfl
@[simp] theorem gotoD_symcnt (u : UnitD) (q : BitVec 5) : (u.goto q).symcnt = u.symcnt := rfl
@[simp] theorem gotoD_pbc (u : UnitD) (q : BitVec 5) : (u.goto q).pbc = u.pbc := rfl
@[simp] theorem gotoD_paybase (u : UnitD) (q : BitVec 5) : (u.goto q).paybase = u.paybase := rfl
@[simp] theorem gotoD_ccl (u : UnitD) (q : BitVec 5) : (u.goto q).ccl = u.ccl := rfl
@[simp] theorem gotoD_len (u : UnitD) (q : BitVec 5) : (u.goto q).len = u.len := rfl
@[simp] theorem gotoD_code (u : UnitD) (q : BitVec 5) : (u.goto q).code = u.code := rfl
@[simp] theorem gotoD_run (u : UnitD) (q : BitVec 5) : (u.goto q).run = u.run := rfl
@[simp] theorem gotoD_curv (u : UnitD) (q : BitVec 5) : (u.goto q).curv = u.curv := rfl
@[simp] theorem gotoD_curl (u : UnitD) (q : BitVec 5) : (u.goto q).curl = u.curl := rfl
@[simp] theorem gotoD_bitpos (u : UnitD) (q : BitVec 5) : (u.goto q).bitpos = u.bitpos := rfl
@[simp] theorem gotoD_ocnt (u : UnitD) (q : BitVec 5) : (u.goto q).ocnt = u.ocnt := rfl

end Sys2Proof.Machine
end

