-- ==== Sys2Proof/Laws/Memory.lean ====
section
/-! SUPPORT. The laws of the byte memories: read after write, and that every operation keeps the canonical
form (indices strictly rising) and stays within a bound. -/

namespace Sys2Proof.Machine

/-- A byte written is read back. -/
@[simp] theorem read_write_same (m : Memory) (a : Nat) (b : Byte) :
    Memory.read (Memory.write m a b) a = some b := by
  induction m with
  | nil => simp [Memory.write, Memory.read]
  | cons c m ih =>
    obtain ⟨k, v⟩ := c
    by_cases h₁ : a < k
    · simp [Memory.write, Memory.read, h₁]
    · by_cases h₂ : a = k
      · simp [Memory.write, Memory.read, h₂]
      · simp [Memory.write, Memory.read, h₁, h₂, Ne.symm h₂, ih]

/-- A write leaves every other byte alone. -/
theorem read_write_other (m : Memory) (a k : Nat) (b : Byte) (h : k ≠ a) :
    Memory.read (Memory.write m a b) k = Memory.read m k := by
  induction m with
  | nil => simp [Memory.write, Memory.read, Ne.symm h]
  | cons c m ih =>
    obtain ⟨j, v⟩ := c
    by_cases h₁ : a < j
    · simp [Memory.write, Memory.read, h₁, Ne.symm h]
    · by_cases h₂ : a = j
      · subst h₂
        simp [Memory.write, Memory.read, Ne.symm h]
      · simp only [Memory.write, if_neg h₁, if_neg h₂, Memory.read, ih]

/-- What a run of writes leaves at an index outside it. -/
theorem read_writeList_other (m : Memory) (a : Nat) (bs : List Byte) (k : Nat)
    (h : k < a ∨ a + bs.length ≤ k) : Memory.read (Memory.writeList m a bs) k = Memory.read m k := by
  induction bs generalizing m a with
  | nil => rfl
  | cons b bs ih =>
    simp only [List.length_cons] at h
    rw [Memory.writeList, ih _ _ (by omega), read_write_other _ _ _ _ (by omega)]

/-- What a run of writes leaves at the index of its i-th byte. -/
theorem read_writeList_at (m : Memory) (a : Nat) (bs : List Byte) (i : Nat) (b : Byte)
    (h : bs[i]? = some b) : Memory.read (Memory.writeList m a bs) (a + i) = some b := by
  induction bs generalizing m a i with
  | nil => simp at h
  | cons c bs ih =>
    cases i with
    | zero =>
      obtain rfl : c = b := by simpa using h
      rw [Memory.writeList, read_writeList_other _ _ _ _ (by omega)]
      simp
    | succ i =>
      rw [Memory.writeList, show a + (i + 1) = (a + 1) + i by omega]
      exact ih _ _ _ (by simpa using h)

/-- A run of writes holds its bytes. -/
theorem holdsBytes_writeList (m : Memory) (a : Nat) (bs : List Byte) :
    holdsBytes (Memory.writeList m a bs) a bs := fun i b h => read_writeList_at m a bs i b h

/-- A run of writes changes nothing outside it. -/
theorem sameOutside_writeList (m : Memory) (a : Nat) (bs : List Byte) :
    sameOutside m (Memory.writeList m a bs) a bs.length := fun k h => read_writeList_other m a bs k h

/-- Writing two runs one after the other is writing them as one. -/
theorem writeList_append (m : Memory) (a : Nat) (xs ys : List Byte) :
    Memory.writeList m a (xs ++ ys) = Memory.writeList (Memory.writeList m a xs) (a + xs.length) ys := by
  induction xs generalizing m a with
  | nil => rfl
  | cons x xs ih =>
    simp only [List.cons_append, Memory.writeList, ih, List.length_cons]
    congr 1
    omega

/-- The indices after a write: the old ones and the one written. -/
theorem mem_write {m : Memory} {a : Nat} {b : Byte} {c : Host.Cell} (h : c ∈ Memory.write m a b) :
    c = (a, b) ∨ c ∈ m := by
  induction m with
  | nil => simpa [Memory.write] using h
  | cons d m ih =>
    obtain ⟨k, v⟩ := d
    simp only [Memory.write] at h
    split at h
    · simpa using h
    · split at h
      · rcases List.mem_cons.1 h with h | h
        · exact .inl h
        · exact .inr (List.mem_cons_of_mem _ h)
      · rcases List.mem_cons.1 h with h | h
        · exact .inr (by simp [h])
        · exact (ih h).imp id (List.mem_cons_of_mem _)

/-- A write keeps the canonical form. -/
theorem wf_write {m : Memory} (h : Memory.wf m) (a : Nat) (b : Byte) : Memory.wf (Memory.write m a b) := by
  induction m with
  | nil => simp [Memory.wf, Memory.write]
  | cons c m ih =>
    obtain ⟨k, v⟩ := c
    obtain ⟨hk, hm⟩ := List.pairwise_cons.1 h
    simp only [Memory.write]
    split
    next h₁ =>
      refine List.pairwise_cons.2 ⟨?_, h⟩
      intro x hx
      rcases List.mem_cons.1 hx with rfl | hx
      · exact h₁
      · exact Nat.lt_trans h₁ (hk x hx)
    next h₁ =>
      split
      next h₂ => subst h₂; exact List.pairwise_cons.2 ⟨hk, hm⟩
      next h₂ =>
        refine List.pairwise_cons.2 ⟨?_, ih hm⟩
        intro x hx
        rcases mem_write hx with rfl | hx
        · show k < a
          omega
        · exact hk x hx

/-- A run of writes keeps the canonical form. -/
theorem wf_writeList {m : Memory} (h : Memory.wf m) (a : Nat) (bs : List Byte) :
    Memory.wf (Memory.writeList m a bs) := by
  induction bs generalizing m a with
  | nil => exact h
  | cons b bs ih => exact ih (wf_write h a b) (a + 1)

/-- A run of writes below a bound keeps every index below it. -/
theorem bound_writeList {m : Memory} {n a : Nat} {bs : List Byte} (h : ∀ c ∈ m, c.1 < n)
    (hb : a + bs.length ≤ n) : ∀ c ∈ Memory.writeList m a bs, c.1 < n := by
  induction bs generalizing m a with
  | nil => exact h
  | cons b bs ih =>
    simp only [List.length_cons] at hb
    refine ih ?_ (by omega)
    intro c hc
    rcases mem_write hc with rfl | hc
    · show a < n
      omega
    · exact h c hc

/-- The memories of the machine after reset have the form. -/
theorem wf_reset : Memory.wf State.reset.e.port.ibuf ∧ Memory.wf State.reset.e.port.obuf ∧
    Memory.wf State.reset.d.port.ibuf ∧ Memory.wf State.reset.d.port.obuf := by
  refine ⟨?_, ?_, ?_, ?_⟩ <;> exact List.Pairwise.nil

/-- Reading n bytes from index a on gives bs exactly where the memory holds bs there. -/
theorem readBytes_eq_val {m : Memory} {a n : Nat} {bs : List Byte} :
    readBytes m a n = .val bs ↔ bs.length = n ∧ holdsBytes m a bs := by
  induction n generalizing a bs with
  | zero =>
    constructor
    · intro h
      obtain rfl : [] = bs := by simpa [readBytes] using h
      exact ⟨rfl, fun i b hb => by simp at hb⟩
    · rintro ⟨h, -⟩
      rw [List.length_eq_zero_iff.1 h, readBytes]
  | succ n ih =>
    rw [readBytes]
    constructor
    · intro h
      split at h
      · cases h
      next b hb =>
        cases hr : readBytes m (a + 1) n with
        | fault f => rw [hr] at h; cases h
        | refuse r => rw [hr] at h; cases h
        | val cs =>
          rw [hr] at h
          obtain rfl : b :: cs = bs := by simpa [Got.andThen] using h
          obtain ⟨hl, hh⟩ := ih.1 hr
          refine ⟨by simp [hl], fun i c hc => ?_⟩
          cases i with
          | zero => obtain rfl : b = c := by simpa using hc
                    exact hb
          | succ i =>
            rw [show a + (i + 1) = (a + 1) + i by omega]
            exact hh i c (by simpa using hc)
    · rintro ⟨hl, hh⟩
      cases bs with
      | nil => simp at hl
      | cons b bs =>
        have hb : Memory.read m a = some b := by simpa using hh 0 b rfl
        have hr : readBytes m (a + 1) n = .val bs := by
          refine ih.2 ⟨by simpa using hl, fun i c hc => ?_⟩
          rw [show a + 1 + i = a + (i + 1) by omega]
          exact hh (i + 1) c (by simpa using hc)
        simp [hb, hr, Got.andThen]

/-- A read that takes in a byte never written is refused (V5, log entry 2). -/
theorem readBytes_unwritten {m : Memory} {a n i : Nat} (h : Memory.read m i = none) (h1 : a ≤ i)
    (h2 : i < a + n) : readBytes m a n = .refuse .inputByteUnwritten := by
  induction n generalizing a with
  | zero => omega
  | succ n ih =>
    unfold readBytes
    by_cases ha : a = i
    · subst ha; rw [h]
    · cases hr : Memory.read m a with
      | none => rfl
      | some b => simp only; rw [ih (a := a + 1) (by omega) (by omega)]; rfl

theorem memRead_unwritten {p : Port} {a n i : Nat} (h : Memory.read p.ibuf i = none) (h1 : a ≤ i)
    (h2 : i < a + n) (h3 : a + n ≤ p.inLen.toNat) (h4 : p.inLen.toNat ≤ p.capIn.toNat) :
    memRead p a n = .refuse .inputByteUnwritten := by
  unfold memRead
  rw [if_pos ⟨h3, by omega⟩]
  exact readBytes_unwritten h h1 h2

/-- MemRead gives bs exactly where the precondition of R64 holds and IBUF holds bs. -/
theorem memRead_eq_val {p : Port} {a n : Nat} {bs : List Byte} :
    memRead p a n = .val bs ↔
      (a + n ≤ p.inLen.toNat ∧ a + n ≤ p.capIn.toNat) ∧ bs.length = n ∧ holdsBytes p.ibuf a bs := by
  unfold memRead
  split
  next h => simp [h, readBytes_eq_val]
  next h => simp [h]

/-- The whole input is read exactly as it is. -/
theorem memRead_input {p : Port} {bs : List Byte} (h : hasInput p bs) :
    memRead p 0 p.inLen.toNat = .val bs := by
  obtain ⟨h₁, h₂, h₃⟩ := h
  exact memRead_eq_val.2 ⟨⟨by omega, by omega⟩, h₁.symm, h₃⟩

/-- Reading one byte. -/
theorem memReadByte_eq_val {p : Port} {a : Nat} {b : Byte}
    (h₁ : a < p.inLen.toNat) (h₂ : a < p.capIn.toNat) (h₃ : Memory.read p.ibuf a = some b) :
    memReadByte p a = .val b := by
  have h : memRead p a 1 = .val [b] := by
    refine memRead_eq_val.2 ⟨⟨by omega, by omega⟩, rfl, fun i c hc => ?_⟩
    cases i with
    | zero => obtain rfl : b = c := by simpa using hc
              exact h₃
    | succ i => simp at hc
  simp [memReadByte, h, Got.andThen]

/-- MemWrite writes exactly where the precondition of R65 holds, and is a fault elsewhere. -/
theorem memWrite_eq_val {p q : Port} {a : Nat} {bs : List Byte} :
    memWrite p a bs = .val q ↔
      a + bs.length ≤ p.capOut.toNat ∧ q = { p with obuf := Memory.writeList p.obuf a bs } := by
  unfold memWrite
  split
  next h => simp [h, eq_comm]
  next h => simp [h]

end Sys2Proof.Machine
end

