-- ==== Sys2Proof/Laws/Registers.lean ====
section
/-! SUPPORT. The laws of the register files: read after write, the symbols, the handles of a collection, the
prefix of CCL, the bits of a codeword. -/

namespace Sys2Proof.Machine

/-! Files indexed by symbol. -/

/-- An entry written is read back. -/
@[simp] theorem symRead_symWrite_same {α : Type} (x : SymFile α) (s : Byte) (v : α) :
    symRead (symWrite x s v) s = v := by
  simp [symRead, symWrite]

/-- A write leaves every other entry alone. -/
theorem symRead_symWrite_other {α : Type} (x : SymFile α) (s r : Byte) (v : α) (h : r ≠ s) :
    symRead (symWrite x s v) r = symRead x r := by
  have h' : ¬ s.toNat = r.toNat := fun e => h (BitVec.eq_of_toNat_eq e.symm)
  simp [symRead, symWrite, h']

/-- Every entry of a file of equal entries. -/
@[simp] theorem symRead_replicate {α : Type} (v : α) (s : Byte) :
    symRead (Vector.replicate 256 v) s = v := by
  simp [symRead]

/-- Two files with equal entries are equal. -/
theorem symFile_ext {α : Type} {x y : SymFile α} (h : ∀ s, symRead x s = symRead y s) : x = y := by
  apply Vector.ext
  intro i hi
  have := h (BitVec.ofNat 8 i)
  simpa [symRead, Nat.mod_eq_of_lt hi] using this

/-- Every symbol is in the range of `for s in 0..255`. -/
@[simp] theorem mem_allSymbols (s : Byte) : s ∈ allSymbols := by
  refine List.mem_map.2 ⟨s.toNat, List.mem_range.2 s.isLt, by simp⟩

/-- No symbol is there twice. -/
theorem nodup_allSymbols : allSymbols.Nodup := by
  refine List.Nodup.map_on ?_ List.nodup_range
  intro a ha b hb h
  have := congrArg BitVec.toNat h
  simp only [List.mem_range] at ha hb
  simpa [Nat.mod_eq_of_lt ha, Nat.mod_eq_of_lt hb] using this

/-- A file as a list is its entries in symbol order. -/
theorem toList_eq_map {α : Type} (x : SymFile α) : x.toList = allSymbols.map (symRead x) := by
  apply List.ext_getElem
  · simp [allSymbols]
  · intro i h₁ h₂
    have hi : i < 256 := by simpa using h₁
    simp [allSymbols, symRead, Nat.mod_eq_of_lt hi]

/-! The node arena and the priority collection. -/

/-- A node written is read back. -/
theorem nodeRead_set_same (x : Vector Node 511) (h : Handle) (n : Node) (hh : h.toNat < 511) :
    nodeRead (x.setIfInBounds h.toNat n) h = some n := by
  simp [nodeRead, hh]

/-- A write leaves every other node alone. -/
theorem nodeRead_set_other (x : Vector Node 511) (h g : Handle) (n : Node) (hg : g ≠ h) :
    nodeRead (x.setIfInBounds h.toNat n) g = nodeRead x g := by
  have h' : ¬ h.toNat = g.toNat := fun e => hg (BitVec.eq_of_toNat_eq e.symm)
  simp [nodeRead, h']

/-- The members found from an index on. -/
theorem mem_membersFrom {h : Handle} {i : Nat} {bs : List Bool} (hb : i + bs.length ≤ 512) :
    h ∈ membersFrom i bs ↔ i ≤ h.toNat ∧ bs[h.toNat - i]? = some true := by
  induction bs generalizing i with
  | nil => simp [membersFrom]
  | cons b bs ih =>
    simp only [List.length_cons] at hb
    have key : h ∈ membersFrom (i + 1) bs ↔ i + 1 ≤ h.toNat ∧ bs[h.toNat - (i + 1)]? = some true :=
      ih (by omega)
    have hi : (BitVec.ofNat 9 i).toNat = i := by simp; omega
    have hh : h = BitVec.ofNat 9 i ↔ h.toNat = i := by rw [← BitVec.toNat_inj, hi]
    rcases Nat.lt_trichotomy h.toNat i with h' | h' | h'
    · have h1 : ¬ i ≤ h.toNat := by omega
      have h2 : ¬ i + 1 ≤ h.toNat := by omega
      cases b <;> simp [membersFrom, key, hh, h1, h2]
      omega
    · have h2 : ¬ i + 1 ≤ h.toNat := by omega
      cases b <;> simp [membersFrom, key, hh, h']
    · have h1 : i ≤ h.toNat := by omega
      have h2 : i + 1 ≤ h.toNat := by omega
      have h3 : h.toNat - i = (h.toNat - (i + 1)) + 1 := by omega
      cases b <;> simp [membersFrom, key, hh, h1, h2, h3]
      omega

/-- A handle is a member where its INQ bit is set. -/
theorem mem_members {x : Vector Bool 511} {h : Handle} :
    h ∈ members x ↔ x[h.toNat]? = some true := by
  rw [members, mem_membersFrom (by simp)]
  simp [← Vector.getElem?_toList]

/-- The members from an index on are strictly rising. -/
theorem membersFrom_sorted {i : Nat} {bs : List Bool} (hb : i + bs.length ≤ 512) :
    (membersFrom i bs).Pairwise (fun a b => a.toNat < b.toNat) := by
  induction bs generalizing i with
  | nil => exact List.Pairwise.nil
  | cons b bs ih =>
    simp only [List.length_cons] at hb
    have ih' := ih (i := i + 1) (by omega)
    cases b
    · simpa [membersFrom] using ih'
    · simp only [membersFrom, if_true, List.pairwise_cons]
      refine ⟨fun a ha => ?_, ih'⟩
      have := ((mem_membersFrom (by omega)).1 ha).1
      simp
      omega

/-- The members are strictly rising. -/
theorem members_sorted (x : Vector Bool 511) : (members x).Pairwise (fun a b => a.toNat < b.toNat) :=
  membersFrom_sorted (by simp)

/-- No member is there twice. -/
theorem members_nodup (x : Vector Bool 511) : (members x).Nodup :=
  (members_sorted x).imp (fun h e => by subst e; omega)

/-- The members after one bit is written. -/
theorem mem_members_set {x : Vector Bool 511} {h g : Handle} {b : Bool} :
    g ∈ members (x.setIfInBounds h.toNat b) ↔
      (g = h ∧ b = true ∧ h.toNat < 511) ∨ (g ≠ h ∧ g ∈ members x) := by
  rw [mem_members, mem_members, Vector.getElem?_setIfInBounds]
  by_cases e : g = h
  · subst e
    by_cases h' : g.toNat < 511 <;> simp [h']
  · have h' : ¬ h.toNat = g.toNat := fun e' => e (BitVec.eq_of_toNat_eq e'.symm)
    simp [e, h']

/-! CCL. -/

/-- The prefix of CCL, entry by entry. -/
theorem cclPrefix_eq_some {x : Vector Entry 256} {n : Nat} {es : List Entry} :
    cclPrefix x n = some es ↔ es.length = n ∧ ∀ i e, es[i]? = some e → cclRead x i = some e := by
  unfold cclPrefix cclRead
  constructor
  · intro h
    split at h
    · obtain rfl : _ = es := by simpa using h
      refine ⟨by simp; omega, fun i e hi => ?_⟩
      rw [List.getElem?_take] at hi
      split at hi
      · simpa [← Vector.getElem?_toList] using hi
      · simp at hi
    · simp at h
  · rintro ⟨rfl, h⟩
    have hl : es.length ≤ 256 := by
      by_contra hc
      have h2 := h 256 es[256] (by simp)
      simp at h2
    rw [if_pos hl]
    congr 1
    apply List.ext_getElem?
    intro i
    rw [List.getElem?_take]
    split
    · next hi =>
      rw [List.getElem?_eq_getElem hi, ← h i es[i] (by simp), Vector.getElem?_toList]
    · next hi => rw [List.getElem?_eq_none (by omega)]

/-- The prefix's length. -/
theorem length_of_cclPrefix {x : Vector Entry 256} {n : Nat} {es : List Entry}
    (h : cclPrefix x n = some es) : es.length = n := (cclPrefix_eq_some.1 h).1

/-- An entry of CCL after a write. -/
theorem cclRead_cclWrite (x : Vector Entry 256) (i j : Nat) (e : Entry) :
    cclRead (cclWrite x i e) j = if i = j then (if i < 256 then some e else none) else cclRead x j := by
  simp only [cclRead, cclWrite, Vector.getElem?_setIfInBounds]

/-! Codewords. -/

/-- A codeword of length L has L bits. -/
@[simp] theorem length_codeBits (v : CodeWord) (n : Nat) : (codeBits v n).length = n := by
  induction n with
  | zero => rfl
  | succ n ih => simp [codeBits, ih]

/-- Bit i of the codeword of v at length n is bit n - 1 - i of v. -/
theorem getElem?_codeBits (v : CodeWord) (n i : Nat) (h : i < n) :
    (codeBits v n)[i]? = some (v.getLsbD (n - 1 - i)) := by
  induction n generalizing i with
  | zero => omega
  | succ n ih =>
    cases i with
    | zero => simp [codeBits]
    | succ i =>
      rw [codeBits, List.getElem?_cons_succ, ih i (by omega)]
      congr 2
      omega

end Sys2Proof.Machine
end

