-- ==== Sys2Proof/Laws/Ops.lean ====
section
/-! SUPPORT. One lemma per shared operation that says everything it can do: the readings and endings of a
phase, the error exit, the bitstream writer and reader. -/

namespace Sys2Proof.Machine

/-! Going on with what was read. -/

/-- A chain of readings gives a value where both do. -/
theorem andThen_eq_val {α β : Type} {x : Got α} {f : α → Got β} {b : β} :
    x.andThen f = .val b ↔ ∃ a, x = .val a ∧ f a = .val b := by
  cases x <;> simp [Got.andThen]

@[simp] theorem andThen_val {α β : Type} (a : α) (f : α → Got β) : (Got.val a).andThen f = f a := rfl

@[simp] theorem thenDo_val {α β : Type} (a : α) (f : α → Res β) : (Got.val a).thenDo f = f a := rfl

/-- A phase that begins with a reading ends well where the reading gives a value and the rest ends well. -/
theorem thenDo_eq_ok {α β : Type} {x : Got α} {f : α → Res β} {b : β} :
    x.thenDo f = .ok b ↔ ∃ a, x = .val a ∧ f a = .ok b := by
  cases x <;> simp [Got.thenDo]

/-- It raises an error where the reading gives a value and the rest raises it. -/
theorem thenDo_eq_raised {α β : Type} {x : Got α} {f : α → Res β} {b : β} {c : Cause} :
    x.thenDo f = .raised b c ↔ ∃ a, x = .val a ∧ f a = .raised b c := by
  cases x <;> simp [Got.thenDo]

/-- An optional value that is there. -/
theorem ofOption_eq_val {α : Type} {f : Fault} {x : Option α} {a : α} :
    Got.ofOption f x = .val a ↔ x = some a := by
  cases x <;> simp [Got.ofOption]

@[simp] theorem ofOption_some {α : Type} (f : Fault) (a : α) : Got.ofOption f (some a) = .val a := rfl

/-! How a phase ends. -/

/-- The error exit is failedWith, with the pair of its cause. -/
theorem errorExit_eq (p : Port) (c : Cause) : errorExit p c = failedWith p (causeCode c) (causeSub c) := rfl

/-- Everything a phase of unit E can leave when it answers a next state. -/
theorem finishE_eq_next {s t : State} {r : Res UnitE} :
    s.finishE r = .next t ↔
      (∃ u, r = .ok u ∧ t = s.withE u) ∨
      (∃ u c, r = .raised u c ∧ t = s.withE { u with port := errorExit u.port c }) := by
  cases r <;> simp [State.finishE, eq_comm]

/-- Everything a phase of unit D can leave when it answers a next state. -/
theorem finishD_eq_next {s t : State} {r : Res UnitD} :
    s.finishD r = .next t ↔
      (∃ u, r = .ok u ∧ t = s.withD u) ∨
      (∃ u c, r = .raised u c ∧ t = s.withD { u with port := errorExit u.port c }) := by
  cases r <;> simp [State.finishD, eq_comm]

/-- What a phase operation of unit E leaves of it does not depend on the rest of the machine. -/
theorem finishE_same {s r : State} (q : Res UnitE) (hf : s.free = r.free) :
    (∀ t, s.finishE q = .next t → ∃ t', r.finishE q = .next t' ∧ t'.e = t.e ∧ t'.free = t.free) ∧
    (∀ f, s.finishE q = .fault f → r.finishE q = .fault f) ∧
    ∀ x, s.finishE q = .refused x → r.finishE q = .refused x := by
  cases q <;> simp [State.finishE, State.withE, hf]

/-- The same of unit D. -/
theorem finishD_same {s r : State} (q : Res UnitD) (hf : s.free = r.free) :
    (∀ t, s.finishD q = .next t → ∃ t', r.finishD q = .next t' ∧ t'.d = t.d ∧ t'.free = t.free) ∧
    (∀ f, s.finishD q = .fault f → r.finishD q = .fault f) ∧
    ∀ x, s.finishD q = .refused x → r.finishD q = .refused x := by
  cases q <;> simp [State.finishD, State.withD, hf]

/-! Writing to OBUF. -/

/-- Everything emit can do when it answers a unit. -/
theorem emit_eq_val {u v : UnitE} {bs : List Byte} :
    u.emit bs = .val v ↔
      u.wptr.toNat + bs.length ≤ u.port.capOut.toNat ∧
      v = { u with
        port := { u.port with obuf := Memory.writeList u.port.obuf u.wptr.toNat bs },
        wptr := u.wptr + BitVec.ofNat 64 bs.length } := by
  unfold UnitE.emit
  rw [andThen_eq_val]
  constructor
  · rintro ⟨p, hp, hv⟩
    obtain ⟨h, rfl⟩ := memWrite_eq_val.1 hp
    exact ⟨h, by simpa using hv.symm⟩
  · rintro ⟨h, rfl⟩
    exact ⟨_, memWrite_eq_val.2 ⟨h, rfl⟩, rfl⟩

/-! The bitstream writer. -/

/-- ACC after one more bit. -/
theorem getLsbD_accWith (acc : Byte) (n : BitVec 3) (b : Bool) (j : Nat) (h : j < 8) :
    (accWith acc n b).getLsbD (7 - j) = (acc.getLsbD (7 - j) || (b && decide (j = n.toNat))) := by
  have hn : n.toNat < 8 := n.isLt
  have h1 : ((if b then 1#8 else 0#8) <<< (7 - n.toNat)).getLsbD (7 - j) = (b && decide (j = n.toNat)) := by
    generalize n.toNat = m at hn
    interval_cases j <;> interval_cases m <;> cases b <;> decide
  rw [accWith, BitVec.getLsbD_or, h1]

/-- What unit E is after the bits `bits` have been put, one by one, into the stream that BsInit opened at
`base` (43_bitstream.md R156, R157, R160). -/
structure Writer (u₀ : UnitE) (base : Nat) (bits : List Bool) (u : UnitE) : Prop where
  wptr   : u.wptr.toNat = base + bits.length / 8
  nbits  : u.nbits = BitVec.ofNat 3 bits.length
  bitcnt : u.bitcnt = BitVec.ofNat 64 bits.length
  acc    : ∀ j, j < 8 → u.acc.getLsbD (7 - j) = bits.getD (8 * (bits.length / 8) + j) false
  bytes  : ∀ k, k < bits.length / 8 → ∃ b, Memory.read u.port.obuf (base + k) = some b ∧
    ∀ j, j < 8 → b.getLsbD (7 - j) = bits.getD (8 * k + j) false
  others : sameOutside u₀.port.obuf u.port.obuf base (bits.length / 8)
  /-- IDX belongs to E_PACK's loop, not to the stream. -/
  frame  : u = { u₀ with
    port := { u₀.port with obuf := u.port.obuf }, idx := u.idx,
    acc := u.acc, nbits := u.nbits, wptr := u.wptr, bitcnt := u.bitcnt }

/-- BsInit opens the stream. -/
theorem writer_bsInit (u : UnitE) (base : Word64) : Writer u base.toNat [] (bsInit u base) where
  wptr := rfl
  nbits := rfl
  bitcnt := rfl
  acc := fun j hj => by simp [bsInit]
  bytes := fun k hk => by simp at hk
  others := fun k hk => rfl
  frame := rfl

/-- PutBit, where it answers a unit: the bit is the next of the stream. -/
theorem writer_putBit {u₀ u v : UnitE} {base : Nat} {bits : List Bool} {b : Bool}
    (w : Writer u₀ base bits u) (h : putBit u b = .val v) : Writer u₀ base (bits ++ [b]) v := by
  obtain ⟨w1, w2, w3, w4, w5, w6, w7⟩ := w
  have hn : u.nbits.toNat = bits.length % 8 := by rw [w2]; simp
  have hacc : ∀ j, j < 8 → (accWith u.acc u.nbits b).getLsbD (7 - j) =
      (bits ++ [b]).getD (8 * (bits.length / 8) + j) false := by
    intro j hj
    rw [getLsbD_accWith _ _ _ _ hj, w4 j hj, hn]
    have e : bits.length = 8 * (bits.length / 8) + bits.length % 8 := by omega
    rcases Nat.lt_trichotomy j (bits.length % 8) with hj' | hj' | hj'
    · have : 8 * (bits.length / 8) + j < bits.length := by omega
      simp [List.getElem?_append, this, Nat.ne_of_lt hj']
    · have h1 : 8 * (bits.length / 8) + j = bits.length := by omega
      simp [h1, ← hj']
    · have h1 : ¬ 8 * (bits.length / 8) + j < bits.length := by omega
      have h2 : ∃ m, 8 * (bits.length / 8) + j - bits.length = m + 1 := ⟨8 * (bits.length / 8) + j - bits.length - 1, by omega⟩
      obtain ⟨m, hm⟩ := h2
      rw [List.getD_eq_getElem?_getD, List.getD_eq_getElem?_getD, List.getElem?_append_right (by omega), hm]
      simp [h1, Nat.ne_of_gt hj']
  have hold : ∀ k j, 8 * k + j < bits.length → (bits ++ [b]).getD (8 * k + j) false = bits.getD (8 * k + j) false := by
    intro k j hk
    simp [List.getElem?_append, hk]
  have hcnt : u.bitcnt + 1#64 = BitVec.ofNat 64 (bits ++ [b]).length := by
    rw [w3]; simp [BitVec.ofNat_add]
  unfold putBit at h
  simp only at h
  split at h
  next h7 =>
    have h7' : bits.length % 8 = 7 := by rw [← hn, h7]; rfl
    rw [andThen_eq_val] at h
    obtain ⟨x, hx, hv⟩ := h
    obtain ⟨hcap, rfl⟩ := emit_eq_val.1 hx
    obtain rfl : _ = v := by simpa using hv
    simp only [List.length_singleton] at hcap
    have hlen : (bits ++ [b]).length / 8 = bits.length / 8 + 1 := by simp; omega
    have hcap' := u.port.capOut.isLt
    refine ⟨?_, ?_, hcnt, ?_, ?_, ?_, ?_⟩
    · simp [BitVec.toNat_add] at hcap ⊢
      omega
    · apply BitVec.eq_of_toNat_eq
      simp
      omega
    · intro j hj
      rw [hlen, List.getD_eq_getElem?_getD, List.getElem?_eq_none (by simp; omega)]
      simp
    · intro k hk
      rw [hlen] at hk
      simp only [Memory.writeList]
      by_cases hk' : k = bits.length / 8
      · subst hk'
        refine ⟨_, by rw [← w1]; exact read_write_same _ _ _, hacc⟩
      · obtain ⟨c, hc, hc'⟩ := w5 k (by omega)
        refine ⟨c, by rw [read_write_other _ _ _ _ (by omega)]; exact hc, fun j hj => ?_⟩
        rw [hc' j hj, hold]
        omega
    · intro k hk
      rw [hlen] at hk
      simp only [Memory.writeList]
      rw [read_write_other _ _ _ _ (by omega)]
      exact w6 k (by omega)
    · rw [w7]
  next h7 =>
    have h7' : bits.length % 8 ≠ 7 := by
      intro e
      exact h7 (BitVec.eq_of_toNat_eq (by rw [hn, e]; rfl))
    obtain rfl : _ = v := by simpa using h
    have hlen : (bits ++ [b]).length / 8 = bits.length / 8 := by simp; omega
    refine ⟨by rw [hlen]; exact w1, ?_, hcnt, by rw [hlen]; exact hacc, ?_, by rw [hlen]; exact w6, ?_⟩
    · show u.nbits + 1#3 = _
      rw [w2]; simp [BitVec.ofNat_add]
    · intro k hk
      rw [hlen] at hk
      obtain ⟨c, hc, hc'⟩ := w5 k hk
      refine ⟨c, hc, fun j hj => ?_⟩
      rw [hc' j hj, hold]
      omega
    · rw [w7]

/-- PutBit answers a unit where the byte it may complete fits OBUF. -/
theorem putBit_completes {u₀ u : UnitE} {base : Nat} {bits : List Bool} (b : Bool)
    (w : Writer u₀ base bits u) (h : base + (bits.length + 1) / 8 ≤ u₀.port.capOut.toNat) :
    ∃ v, putBit u b = .val v := by
  unfold putBit
  simp only
  split
  next h7 =>
    have hn : u.nbits.toNat = bits.length % 8 := by rw [w.nbits]; simp
    have h7' : bits.length % 8 = 7 := by rw [← hn, h7]; rfl
    have hcap : u.port.capOut = u₀.port.capOut := by rw [w.frame]
    refine ⟨_, andThen_eq_val.2 ⟨_, emit_eq_val.2 ⟨?_, rfl⟩, rfl⟩⟩
    simp only [List.length_singleton]
    rw [w.wptr, hcap]
    omega
  next => exact ⟨_, rfl⟩

/-- A run of PutBit, where it answers a unit: its bits are the next of the stream. -/
theorem writer_putBitList {u₀ u v : UnitE} {base : Nat} {bits more : List Bool}
    (w : Writer u₀ base bits u) (h : putBitList u more = .val v) : Writer u₀ base (bits ++ more) v := by
  induction more generalizing u bits with
  | nil =>
    obtain rfl : u = v := by simpa [putBitList] using h
    simpa using w
  | cons b more ih =>
    obtain ⟨x, hx, hv⟩ := andThen_eq_val.1 h
    have := ih (writer_putBit w hx) hv
    rwa [List.append_assoc] at this

/-- A run of PutBit answers a unit where the bytes it completes fit OBUF. -/
theorem putBitList_completes {u₀ u : UnitE} {base : Nat} {bits more : List Bool}
    (w : Writer u₀ base bits u) (h : base + (bits.length + more.length) / 8 ≤ u₀.port.capOut.toNat) :
    ∃ v, putBitList u more = .val v := by
  induction more generalizing u bits with
  | nil => exact ⟨u, rfl⟩
  | cons b more ih =>
    simp only [List.length_cons] at h
    obtain ⟨x, hx⟩ := putBit_completes b w (by
      have : (bits.length + 1) / 8 ≤ (bits.length + (more.length + 1)) / 8 := Nat.div_le_div_right (by omega)
      omega)
    obtain ⟨v, hv⟩ := ih (writer_putBit w hx) (by
      rw [List.length_append, List.length_singleton, Nat.add_assoc, Nat.add_comm 1]; exact h)
    exact ⟨v, andThen_eq_val.2 ⟨x, hx, hv⟩⟩

/-- PutBit leaves IDX alone. -/
theorem putBit_idx {u v : UnitE} {b : Bool} (h : putBit u b = .val v) : v.idx = u.idx := by
  unfold putBit at h
  simp only at h
  split at h
  · obtain ⟨x, hx, hv⟩ := andThen_eq_val.1 h
    obtain ⟨-, rfl⟩ := emit_eq_val.1 hx
    obtain rfl : _ = v := by simpa using hv
    rfl
  · obtain rfl : _ = v := by simpa using h
    rfl

theorem putBitList_idx {u v : UnitE} {bits : List Bool} (h : putBitList u bits = .val v) : v.idx = u.idx := by
  induction bits generalizing u with
  | nil =>
    obtain rfl : u = v := by simpa [putBitList] using h
    rfl
  | cons b bits ih =>
    obtain ⟨x, hx, hv⟩ := andThen_eq_val.1 h
    rw [ih hv, putBit_idx hx]

/-- IDX is no part of the stream. -/
theorem Writer.setIdx {u₀ u : UnitE} {base : Nat} {bits : List Bool} (w : Writer u₀ base bits u) (i : Word64) :
    Writer u₀ base bits { u with idx := i } := by
  obtain ⟨w1, w2, w3, w4, w5, w6, w7⟩ := w
  exact ⟨w1, w2, w3, w4, w5, w6, by rw [w7]⟩

/-- Everything Flush can do when it answers a unit (43_bitstream.md R159). -/
theorem flushBits_eq_val {u v : UnitE} :
    flushBits u = .val v ↔
      (u.nbits = 0#3 ∧ v = u) ∨
      (u.nbits ≠ 0#3 ∧ u.wptr.toNat + 1 ≤ u.port.capOut.toNat ∧
        v = { u with
          port := { u.port with obuf := Memory.write u.port.obuf u.wptr.toNat u.acc },
          wptr := u.wptr + 1#64, acc := 0#8, nbits := 0#3 }) := by
  unfold flushBits
  split
  next h => simp [h, eq_comm]
  next h =>
    rw [andThen_eq_val]
    constructor
    · rintro ⟨x, hx, hv⟩
      obtain ⟨hc, rfl⟩ := emit_eq_val.1 hx
      exact .inr ⟨h, hc, by simpa [Memory.writeList] using hv.symm⟩
    · rintro (⟨h', -⟩ | ⟨-, hc, rfl⟩)
      · exact absurd h' h
      · exact ⟨_, emit_eq_val.2 ⟨hc, rfl⟩, rfl⟩

/-! The bitstream reader. -/

/-- GetBit within the input: bit 7 - (BITPOS & 7) of the byte, and BITPOS advances (R161). -/
theorem getBit_eq_val {u : UnitD} {b : Byte}
    (h₁ : u.paybase.toNat + u.bitpos.toNat / 8 < u.port.inLen.toNat)
    (h₂ : u.paybase.toNat + u.bitpos.toNat / 8 < u.port.capIn.toNat)
    (h₃ : Memory.read u.port.ibuf (u.paybase.toNat + u.bitpos.toNat / 8) = some b) :
    getBit u = .val (b.getLsbD (7 - u.bitpos.toNat % 8), { u with bitpos := u.bitpos + 1#64 }) := by
  simp [getBit, memReadByte_eq_val h₁ h₂ h₃]

/-- GetBit changes BITPOS only. -/
theorem getBit_frame {u : UnitD} {r : Bool × UnitD} (h : getBit u = .val r) :
    r.2 = { u with bitpos := u.bitpos + 1#64 } := by
  obtain ⟨b, -, hb⟩ := andThen_eq_val.1 h
  obtain rfl : _ = r := by simpa using hb
  rfl

end Sys2Proof.Machine
end

