-- ==== Sys2Proof/Laws/Canon.lean ====
section
/-! SUPPORT. The canonical regeneration (spec 42_code_generation.md R142 to R147, 45_decoder.md R201): what
its loop leaves, and when it ends how, in terms of the sum of 2^(-length). -/

namespace Sys2Proof.Machine

/-- Every entry adds at least 1 to the scaled sum. -/
theorem kraft_cons (e : Entry) (es : List Entry) : kraft (e :: es) = 2 ^ (255 - e.len.toNat) + kraft es := by
  simp [kraft]

@[simp] theorem kraft_nil : kraft [] = 0 := rfl

/-- The sum over a longer prefix is not smaller. -/
theorem kraft_take_succ (es : List Entry) (i : Nat) (e : Entry) (h : es[i]? = some e) :
    kraft (es.take (i + 1)) = kraft (es.take i) + 2 ^ (255 - e.len.toNat) := by
  rw [List.take_add_one, h]
  simp [kraft]

theorem kraft_take_mono (es : List Entry) {i j : Nat} (h : i ≤ j) :
    kraft (es.take i) ≤ kraft (es.take j) := by
  obtain ⟨k, rfl⟩ := Nat.exists_eq_add_of_le h
  rw [List.take_add]
  simp [kraft]

/-- The shift of RUN from one length to a longer one keeps RUN x 2^(-length). -/
theorem run_shift {run : RunWord} {p l : Nat} (h₁ : run.toNat ≤ 2 ^ p) (h₂ : p ≤ l) (h₃ : l ≤ 255) :
    (run <<< (l - p)).toNat = run.toNat * 2 ^ (l - p) := by
  rw [BitVec.toNat_shiftLeft, Nat.shiftLeft_eq, Nat.mod_eq_of_lt]
  calc run.toNat * 2 ^ (l - p) ≤ 2 ^ p * 2 ^ (l - p) := Nat.mul_le_mul_right _ h₁
    _ = 2 ^ l := by rw [← Nat.pow_add]; congr 1; omega
    _ < 2 ^ 256 := Nat.pow_lt_pow_right (by omega) (by omega)

/-- What one run of the loop leaves, from an entry on: kraft0 is the scaled sum of the entries before. -/
structure CanonFacts (code : SymFile CodeWord) (k₀ : Nat) (es : List Entry)
    (r : SymFile CodeWord × RunWord × CanonEnd) : Prop where
  /-- It passes exactly where the sum stays within 1, and never meets a descending length. -/
  ends   : r.2.2 = if k₀ + kraft es ≤ 2 ^ 255 then .done else .overSubscribed
  /-- RUN at the end, at the last length. -/
  run    : k₀ + kraft es ≤ 2 ^ 255 → ∀ e, es.getLast? = some e →
    r.2.1.toNat * 2 ^ (255 - e.len.toNat) = k₀ + kraft es
  /-- The codes, where no symbol repeats. -/
  codes  : k₀ + kraft es ≤ 2 ^ 255 → (es.map Entry.sym).Nodup → ∀ i e, es[i]? = some e →
    (symRead r.1 e.sym).toNat * 2 ^ (255 - e.len.toNat) = k₀ + kraft (es.take i)
  /-- Every code fits its length. -/
  fits   : k₀ + kraft es ≤ 2 ^ 255 → (es.map Entry.sym).Nodup → ∀ e ∈ es,
    (symRead r.1 e.sym).toNat < 2 ^ e.len.toNat
  others : ∀ b, b ∉ es.map Entry.sym → symRead r.1 b = symRead code b

theorem canonLoop_facts (es : List Entry) (code : SymFile CodeWord) (run : RunWord) (p k₀ : Nat)
    (hp : p ≤ 255) (hrun : run.toNat ≤ 2 ^ p) (hk : run.toNat * 2 ^ (255 - p) = k₀)
    (hge : ∀ e ∈ es, p ≤ e.len.toNat) (hasc : es.Pairwise (fun a b => a.len.toNat ≤ b.len.toNat)) :
    CanonFacts code k₀ es (canonLoop code run (some p) es) := by
  induction es generalizing code run p k₀ with
  | nil =>
    have hk' : k₀ ≤ 2 ^ 255 := by
      rw [← hk]
      calc run.toNat * 2 ^ (255 - p) ≤ 2 ^ p * 2 ^ (255 - p) := Nat.mul_le_mul_right _ hrun
        _ = 2 ^ 255 := by rw [← Nat.pow_add]; congr 1; omega
    refine ⟨?_, ?_, ?_, ?_, ?_⟩
    · rw [if_pos (show k₀ + kraft [] ≤ 2 ^ 255 by simpa using hk')]; rfl
    · intro _ e he; simp at he
    · intro _ _ i e he; simp at he
    · intro _ _ e he; simp at he
    · intro _ _; rfl
  | cons e es ih =>
    obtain ⟨hasc1, hasc2⟩ := List.pairwise_cons.1 hasc
    have hpl : p ≤ e.len.toNat := hge e (by simp)
    have hl : e.len.toNat ≤ 255 := by have := e.len.isLt; omega
    have hsh := run_shift hrun hpl hl
    have hk₀ : (run <<< (e.len.toNat - p)).toNat * 2 ^ (255 - e.len.toNat) = k₀ := by
      rw [hsh, Nat.mul_assoc, ← Nat.pow_add, ← hk]
      congr 2; omega
    have h255 : 2 ^ e.len.toNat * 2 ^ (255 - e.len.toNat) = 2 ^ 255 := by
      rw [← Nat.pow_add]; congr 1; omega
    have hpos : 0 < 2 ^ (255 - e.len.toNat) := Nat.two_pow_pos _
    generalize hr : run <<< (e.len.toNat - p) = run' at hk₀
    have hloop : canonLoop code run (some p) (e :: es) =
        if run'.toNat < 2 ^ e.len.toNat then
          canonLoop (symWrite code e.sym (run'.setWidth 255)) (run' + 1#256) (some e.len.toNat) es
        else (code, run', .overSubscribed) := by
      simp only [canonLoop, Option.getD_some]
      rw [if_neg (by omega), hr]
    by_cases hlt : run'.toNat < 2 ^ e.len.toNat
    · have hle : 2 ^ e.len.toNat ≤ 2 ^ 255 := Nat.pow_le_pow_right (by omega) hl
      have hinc : (run' + 1#256).toNat = run'.toNat + 1 := by
        rw [BitVec.toNat_add, Nat.mod_eq_of_lt]
        · rfl
        · have : (2 : Nat) ^ 255 < 2 ^ 256 - 1 := by norm_num
          simp
          omega
      have hk1 : (run' + 1#256).toNat * 2 ^ (255 - e.len.toNat) = k₀ + 2 ^ (255 - e.len.toNat) := by
        rw [hinc, Nat.add_mul, hk₀, Nat.one_mul]
      have F := ih (symWrite code e.sym (run'.setWidth 255)) (run' + 1#256) e.len.toNat _ hl
        (by rw [hinc]; omega) hk1 hasc1 hasc2
      have hsum : k₀ + kraft (e :: es) = k₀ + 2 ^ (255 - e.len.toNat) + kraft es := by
        rw [kraft_cons]; omega
      rw [hloop, if_pos hlt]
      have hcode : (run'.setWidth 255).toNat = run'.toNat := by
        rw [BitVec.toNat_setWidth, Nat.mod_eq_of_lt]; omega
      have hkept : (es.map Entry.sym).Nodup → e.sym ∉ es.map Entry.sym →
          symRead (canonLoop (symWrite code e.sym (run'.setWidth 255)) (run' + 1#256)
            (some e.len.toNat) es).1 e.sym = run'.setWidth 255 := by
        intro _ hne
        rw [F.others _ hne, symRead_symWrite_same]
      refine ⟨?_, ?_, ?_, ?_, ?_⟩
      · rw [hsum]; exact F.ends
      · intro hs x hx
        rw [hsum] at hs ⊢
        cases es with
        | nil =>
          obtain rfl : e = x := by simpa using hx
          simp only [canonLoop, kraft_nil, Nat.add_zero]
          exact hk1
        | cons y ys => exact F.run hs x (by simpa using hx)
      · intro hs hnd i x hx
        rw [hsum] at hs
        obtain ⟨hne, hnd'⟩ := List.nodup_cons.1 (List.map_cons ▸ hnd)
        cases i with
        | zero =>
          obtain rfl : e = x := by simpa using hx
          rw [hkept hnd' hne, hcode]
          simpa using hk₀
        | succ i =>
          have := F.codes hs hnd' i x (by simpa using hx)
          rw [this, List.take_succ_cons, kraft_cons]
          omega
      · intro hs hnd x hx
        rw [hsum] at hs
        obtain ⟨hne, hnd'⟩ := List.nodup_cons.1 (List.map_cons ▸ hnd)
        rcases List.mem_cons.1 hx with rfl | hx
        · rw [hkept hnd' hne, hcode]; exact hlt
        · exact F.fits hs hnd' x hx
      · intro b hb
        simp only [List.map_cons, List.mem_cons, not_or] at hb
        rw [F.others b hb.2, symRead_symWrite_other _ _ _ _ hb.1]
    · have hover : 2 ^ 255 ≤ k₀ := by
        rw [← hk₀, ← h255]; exact Nat.mul_le_mul_right _ (by omega)
      have hnot : ¬ k₀ + kraft (e :: es) ≤ 2 ^ 255 := by rw [kraft_cons]; omega
      rw [hloop, if_neg hlt]
      refine ⟨?_, ?_, ?_, ?_, ?_⟩
      · rw [if_neg hnot]
      · intro h; exact absurd h hnot
      · intro h; exact absurd h hnot
      · intro h; exact absurd h hnot
      · intro _ _; rfl

/-- The whole loop, from no entry before. -/
theorem canon_facts (es : List Entry) (code : SymFile CodeWord) (h : lengthsAscend es) :
    CanonFacts code 0 es (canonLoop code 0#256 none es) := by
  cases es with
  | nil =>
    refine ⟨rfl, ?_, ?_, ?_, ?_⟩
    · intro _ e he; simp at he
    · intro _ _ i e he; simp at he
    · intro _ _ e he; simp at he
    · intro _ _; rfl
  | cons e es =>
    have hl : e.len.toNat ≤ 255 := by have := e.len.isLt; omega
    have key : canonLoop code 0#256 none (e :: es) = canonLoop code 0#256 (some e.len.toNat) (e :: es) := by
      simp [canonLoop]
    rw [key]
    refine canonLoop_facts (e :: es) code 0#256 e.len.toNat 0 hl (by simp) (by simp) ?_ h.2
    intro x hx
    rcases List.mem_cons.1 hx with rfl | hx
    · exact Nat.le_refl _
    · exact (List.pairwise_cons.1 h.2).1 x hx

/-- The codes do not depend on what CODE held before. -/
theorem canonLoop_code_irrelevant (es : List Entry) (code code' : SymFile CodeWord) (run : RunWord)
    (prev : Option Nat) :
    (canonLoop code run prev es).2 = (canonLoop code' run prev es).2 ∧
    ((canonLoop code run prev es).2.2 = .done → ∀ b, (b ∈ es.map Entry.sym ∨ symRead code b = symRead code' b) →
      symRead (canonLoop code run prev es).1 b = symRead (canonLoop code' run prev es).1 b) := by
  induction es generalizing code code' run prev with
  | nil =>
    refine ⟨rfl, fun _ b hb => ?_⟩
    simpa [canonLoop] using hb
  | cons e es ih =>
    simp only [canonLoop]
    split
    · exact ⟨rfl, fun h => by cases h⟩
    · split
      · obtain ⟨i1, i2⟩ := ih (symWrite code e.sym _) (symWrite code' e.sym _) _ _
        refine ⟨i1, fun h b hb => i2 h b ?_⟩
        by_cases hbe : b = e.sym
        · subst hbe; exact .inr (by simp)
        · rcases hb with hb | hb
          · rw [List.map_cons, List.mem_cons] at hb
            exact .inl (hb.resolve_left hbe)
          · right
            rw [symRead_symWrite_other _ _ _ _ hbe, symRead_symWrite_other _ _ _ _ hbe, hb]
      · exact ⟨rfl, fun h => by cases h⟩

/-- A codeword that begins another is the other's value shifted down. -/
theorem codeBits_prefix {a b : CodeWord} {la lb : Nat} (h : codeBits a la <+: codeBits b lb) :
    la ≤ lb ∧ ∀ j, j < la → a.getLsbD j = b.getLsbD (lb - la + j) := by
  have hle : la ≤ lb := by simpa using h.length_le
  refine ⟨hle, fun j hj => ?_⟩
  obtain ⟨t, ht⟩ := h
  have h1 := getElem?_codeBits a la (la - 1 - j) (by omega)
  have h2 := getElem?_codeBits b lb (la - 1 - j) (by omega)
  rw [← ht, List.getElem?_append_left (by simp; omega), h1] at h2
  have e1 : la - 1 - (la - 1 - j) = j := by omega
  have e2 : lb - 1 - (la - 1 - j) = lb - la + j := by omega
  rw [e1, e2] at h2
  simpa using h2

/-- The same on numbers, for values that fit their lengths. -/
theorem div_of_codeBits_prefix {a b : CodeWord} {la lb : Nat} (h : codeBits a la <+: codeBits b lb)
    (ha : a.toNat < 2 ^ la) (hb : b.toNat < 2 ^ lb) : a.toNat = b.toNat / 2 ^ (lb - la) := by
  obtain ⟨hle, hbits⟩ := codeBits_prefix h
  apply Nat.eq_of_testBit_eq
  intro j
  rw [Nat.testBit_div_two_pow]
  by_cases hj : j < la
  · have := hbits j hj
    rw [Nat.add_comm] at this
    simpa [BitVec.testBit_toNat] using this
  · rw [Nat.testBit_lt_two_pow (Nat.lt_of_lt_of_le ha (Nat.pow_le_pow_right (by omega) (by omega))),
      Nat.testBit_lt_two_pow (Nat.lt_of_lt_of_le hb (Nat.pow_le_pow_right (by omega) (by omega)))]

end Sys2Proof.Machine
end

