-- ==== Sys2Proof/Laws/Loops.lean ====
section
/-! SUPPORT. The loops of the encoder's scanning and emitting phases and the byte sequences they write
(spec 40_frequency_scan.md, 44_encoder.md R177 to R180, 30_encoding.md R66, R84). -/

namespace Sys2Proof.Machine

/-! Big-endian numbers. -/

/-- be_n gives n bytes. -/
theorem length_beBytes (n v : Nat) : (beBytes n v).length = n := by
  induction n generalizing v with
  | zero => rfl
  | succ n ih => simp [beBytes, ih]

/-- Byte i of the n-byte big-endian form of v (R66). -/
theorem get_beBytes (n v i : Nat) (h : i < n) :
    (beBytes n v)[i]? = some (BitVec.ofNat 8 (v / 2 ^ (8 * (n - 1 - i)))) := by
  induction n generalizing i with
  | zero => omega
  | succ n ih =>
    cases i with
    | zero => simp [beBytes, Nat.pow_mul]
    | succ i =>
      rw [beBytes, List.getElem?_cons_succ, ih i (by omega)]
      congr 5
      omega

theorem foldl_beBytes (n v acc : Nat) :
    (beBytes n v).foldl (fun (acc : Nat) (b : Byte) => acc * 256 + b.toNat) acc =
      acc * 256 ^ n + v % 256 ^ n := by
  induction n generalizing acc with
  | zero => simp [beBytes, Nat.mod_one]
  | succ n ih =>
    rw [beBytes, List.foldl_cons, ih, BitVec.toNat_ofNat]
    have h := Nat.mod_mul (x := v) (a := 256 ^ n) (b := 256)
    rw [← Nat.pow_succ] at h
    rw [h, Nat.add_mul, Nat.pow_succ]
    ring

/-- from_be undoes be_n on a number of n bytes (R93). -/
theorem fromBe_beBytes (n v : Nat) (h : v < 256 ^ n) : fromBe (beBytes n v) = v := by
  rw [fromBe, foldl_beBytes, Nat.mod_eq_of_lt h]
  omega

/-- A memory with the right byte at every index holds the big-endian form. -/
theorem holds_be (m : Memory) (a n v : Nat)
    (h : ∀ i, i < n → Memory.read m (a + i) = some (BitVec.ofNat 8 (v / 2 ^ (8 * (n - 1 - i))))) :
    holdsBytes m a (beBytes n v) := by
  intro i b hb
  have hi : i < n := by
    by_contra hc
    rw [List.getElem?_eq_none (by simp [length_beBytes]; omega)] at hb
    simp at hb
  rw [get_beBytes n v i hi] at hb
  rw [h i hi, hb]

/-! The table. -/

/-- A table of n entries has 2 n bytes. -/
theorem length_tableBytes (es : List Entry) : (tableBytes es).length = 2 * es.length := by
  induction es with
  | nil => rfl
  | cons e es ih =>
    simp [tableBytes, ih]
    omega

/-- The two bytes of entry i (R84). -/
theorem get_tableBytes (es : List Entry) (i : Nat) (e : Entry) (h : es[i]? = some e) :
    (tableBytes es)[2 * i]? = some e.sym ∧ (tableBytes es)[2 * i + 1]? = some e.len := by
  induction es generalizing i with
  | nil => simp at h
  | cons x es ih =>
    cases i with
    | zero =>
      obtain rfl : x = e := by simpa using h
      simp [tableBytes]
    | succ i =>
      have := ih i (by simpa using h)
      rw [show 2 * (i + 1) = 2 * i + 1 + 1 by omega]
      simpa [tableBytes] using this

/-- E_TBL's loop where there is room (R178). -/
theorem emitEntries_spec (u : UnitE) (es : List Entry)
    (h : u.wptr.toNat + 2 * es.length ≤ u.port.capOut.toNat) :
    emitEntries u es = .val { u with
      port := { u.port with obuf := Memory.writeList u.port.obuf u.wptr.toNat (tableBytes es) },
      wptr := u.wptr + BitVec.ofNat 64 (2 * es.length) } := by
  induction es generalizing u with
  | nil => simp [emitEntries, tableBytes, Memory.writeList]
  | cons e es ih =>
    simp only [List.length_cons] at h
    simp only [emitEntries]
    have hcap := u.port.capOut.isLt
    rw [(emit_eq_val (u := u) (bs := [e.sym, e.len])).2 ⟨by simp; omega, rfl⟩, andThen_val, ih]
    · simp [tableBytes, Memory.writeList]
      have e1 : (BitVec.toNat u.wptr + 2) % 18446744073709551616 = u.wptr.toNat + 2 := by omega
      rw [e1]
      refine ⟨rfl, ?_⟩
      rw [BitVec.add_assoc]
      congr 1
      apply BitVec.eq_of_toNat_eq
      simp
      omega
    · simp
      omega

/-- E_TBL's loop, where it answers a unit: only OBUF from WPTR on and WPTR change. -/
theorem emitEntries_frame {u v : UnitE} {es : List Entry} (h : emitEntries u es = .val v) :
    v = { u with port := { u.port with obuf := v.port.obuf }, wptr := v.wptr } ∧
      sameOutside u.port.obuf v.port.obuf u.wptr.toNat (2 * es.length) := by
  induction es generalizing u with
  | nil =>
    obtain rfl : u = v := by simpa [emitEntries] using h
    exact ⟨rfl, fun _ _ => rfl⟩
  | cons e es ih =>
    obtain ⟨x, hx, hv⟩ := andThen_eq_val.1 h
    obtain ⟨hc, rfl⟩ := emit_eq_val.1 hx
    obtain ⟨i1, i2⟩ := ih hv
    refine ⟨by rw [i1], ?_⟩
    intro k hk
    have hcap := u.port.capOut.isLt
    simp at hk hc
    rw [i2 k (by simp; omega)]
    simp [Memory.writeList]
    rw [read_write_other, read_write_other] <;> omega

/-! The payload. -/

/-- E_PACK's loop, where it answers a unit: the codewords are the next bits of the stream (R180). -/
theorem writer_packBytes {u₀ u v : UnitE} {base : Nat} {bits : List Bool} {bs : List Byte}
    (w : Writer u₀ base bits u) (h : packBytes u bs = .val v) :
    Writer u₀ base (bits ++ packedBits u₀ bs) v ∧ v.idx = u.idx + BitVec.ofNat 64 bs.length := by
  induction bs generalizing u bits with
  | nil =>
    obtain rfl : u = v := by simpa [packBytes] using h
    simpa [packedBits] using w
  | cons b bs ih =>
    obtain ⟨x, hx, hv⟩ := andThen_eq_val.1 h
    obtain ⟨y, hy, hxy⟩ := andThen_eq_val.1 hx
    obtain rfl : _ = x := by simpa using hxy
    obtain ⟨a, b'⟩ := ih ((writer_putBitList w hy).setIdx (y.idx + 1#64)) hv
    have e1 : symRead u.code b = symRead u₀.code b := by rw [w.frame]
    have e2 : symRead u.len b = symRead u₀.len b := by rw [w.frame]
    refine ⟨?_, ?_⟩
    · simpa [packedBits, codewordOf, e1, e2] using a
    · rw [b']
      simp only [putBitList_idx hy, List.length_cons]
      rw [BitVec.add_assoc]
      congr 1
      simp [BitVec.ofNat_add, BitVec.add_comm]

/-- E_PACK's loop answers a unit where the bytes it completes fit OBUF. -/
theorem packBytes_completes {u₀ u : UnitE} {base : Nat} {bits : List Bool} {bs : List Byte}
    (w : Writer u₀ base bits u)
    (h : base + (bits.length + (packedBits u₀ bs).length) / 8 ≤ u₀.port.capOut.toNat) :
    ∃ v, packBytes u bs = .val v := by
  induction bs generalizing u bits with
  | nil => exact ⟨u, rfl⟩
  | cons b bs ih =>
    have e1 : symRead u.code b = symRead u₀.code b := by rw [w.frame]
    have e2 : symRead u.len b = symRead u₀.len b := by rw [w.frame]
    have hl : (packedBits u₀ (b :: bs)).length =
        (codewordOf u₀.code u₀.len b).length + (packedBits u₀ bs).length := by simp [packedBits]
    rw [hl] at h
    obtain ⟨y, hy⟩ := putBitList_completes (more := codewordOf u₀.code u₀.len b) w (by
      have := Nat.div_le_div_right (c := 8) (show bits.length + (codewordOf u₀.code u₀.len b).length ≤
        bits.length + ((codewordOf u₀.code u₀.len b).length + (packedBits u₀ bs).length) by omega)
      omega)
    have hp : packByte u b = .val { y with idx := y.idx + 1#64 } := by
      unfold packByte putBits
      rw [e1, e2]
      show (putBitList u (codewordOf u₀.code u₀.len b)).andThen _ = _
      rw [hy]
      rfl
    obtain ⟨v, hv⟩ := ih ((writer_putBitList w hy).setIdx (y.idx + 1#64)) (by
      rw [List.length_append, Nat.add_assoc]
      exact h)
    exact ⟨v, andThen_eq_val.2 ⟨_, hp, hv⟩⟩

/-! The frequency scan. -/

/-- What unit E is after E_SCAN's loop has read `pre`, from cleared counts (R111). -/
structure Counted (u₀ : UnitE) (pre : List Byte) (u : UnitE) : Prop where
  freq  : ∀ b, symRead u.freq b = BitVec.ofNat 64 (pre.count b)
  nsym  : u.nsym = BitVec.ofNat 9 pre.dedup.length
  seq   : ∀ b ∈ pre, symRead u.seq b = BitVec.ofNat 9 (pre.takeWhile (fun c => c ≠ b)).dedup.length
  idx   : u.idx = BitVec.ofNat 64 pre.length
  frame : u = { u₀ with idx := u.idx, freq := u.freq, seq := u.seq, nsym := u.nsym }

theorem takeWhile_append_mem {b : Byte} {pre post : List Byte} (h : b ∈ pre) :
    (pre ++ post).takeWhile (fun c => decide (c ≠ b)) = pre.takeWhile (fun c => decide (c ≠ b)) := by
  induction pre with
  | nil => simp at h
  | cons x pre ih =>
    by_cases hx : x = b
    · simp [hx]
    · have : b ∈ pre := (List.mem_cons.1 h).resolve_left (fun e => hx e.symm)
      simp only [List.cons_append, List.takeWhile_cons]
      rw [ih this]

theorem takeWhile_not_mem {b : Byte} {pre post : List Byte} (h : b ∉ pre) :
    (pre ++ b :: post).takeWhile (fun c => decide (c ≠ b)) = pre := by
  induction pre with
  | nil => simp
  | cons x pre ih =>
    simp only [List.mem_cons, not_or] at h
    simp only [List.cons_append, List.takeWhile_cons]
    rw [ih h.2]
    simp [Ne.symm h.1]

/-- One byte more. -/
theorem counted_step {u₀ u : UnitE} {pre : List Byte} {b : Byte} (w : Counted u₀ pre u)
    (hl : pre.length < 2 ^ 56) : Counted u₀ (pre ++ [b]) (scanByte u b) := by
  have hc : pre.count b < 2 ^ 56 := Nat.lt_of_le_of_lt List.count_le_length hl
  have hz : symRead u.freq b = 0#64 ↔ b ∉ pre := by
    rw [w.freq, ← BitVec.toNat_inj, ← List.count_eq_zero]
    simp
    omega
  have hidx : u.idx + 1#64 = BitVec.ofNat 64 (pre ++ [b]).length := by
    rw [w.idx]
    simp [BitVec.ofNat_add]
  have hfreq : ∀ c, symRead (symWrite u.freq b (symRead u.freq b + 1#64)) c =
      BitVec.ofNat 64 ((pre ++ [b]).count c) := by
    intro c
    by_cases hcb : c = b
    · subst hcb
      simp [w.freq, List.count_append, BitVec.ofNat_add]
    · rw [symRead_symWrite_other _ _ _ _ hcb, w.freq]
      simp [List.count_append, Ne.symm hcb]
  by_cases hb : b ∈ pre
  · have h0 : ¬ symRead u.freq b = 0#64 := fun h => hz.1 h hb
    have hd : (pre ++ [b]).dedup.length = pre.dedup.length := by
      rw [← List.card_toFinset, ← List.card_toFinset]
      congr 1
      ext x
      simp
      rintro rfl
      exact hb
    simp only [scanByte, if_neg h0]
    refine ⟨hfreq, by rw [hd]; exact w.nsym, ?_, hidx, by rw [w.frame]⟩
    intro c hcm
    have hcm' : c ∈ pre := by
      rcases List.mem_append.1 hcm with h | h
      · exact h
      · obtain rfl : c = b := by simpa using h
        exact hb
    rw [takeWhile_append_mem hcm']
    exact w.seq c hcm'
  · have h0 : symRead u.freq b = 0#64 := hz.2 hb
    have hd : (pre ++ [b]).dedup.length = pre.dedup.length + 1 := by
      rw [← List.card_toFinset, ← List.card_toFinset]
      have : (pre ++ [b]).toFinset = insert b pre.toFinset := by
        ext x
        simp
      rw [this, Finset.card_insert_of_notMem (by simpa using hb)]
    simp only [scanByte, if_pos h0]
    refine ⟨hfreq, ?_, ?_, hidx, by rw [w.frame]⟩
    · rw [hd, w.nsym]
      simp [BitVec.ofNat_add]
    · intro c hcm
      by_cases hcb : c = b
      · subst hcb
        rw [symRead_symWrite_same, takeWhile_not_mem hb]
        exact w.nsym
      · have hcm' : c ∈ pre := by
          rcases List.mem_append.1 hcm with h | h
          · exact h
          · exact absurd (by simpa using h) hcb
        rw [takeWhile_append_mem hcm', symRead_symWrite_other _ _ _ _ hcb]
        exact w.seq c hcm'

/-- The whole loop. -/
theorem counted_scan {u₀ u : UnitE} {pre bs : List Byte} (w : Counted u₀ pre u)
    (hl : (pre ++ bs).length < 2 ^ 56) : Counted u₀ (pre ++ bs) (scanBytes u bs) := by
  induction bs generalizing u pre with
  | nil => simpa [scanBytes] using w
  | cons b bs ih =>
    simp only [List.length_append, List.length_cons] at hl
    have := ih (counted_step (b := b) w (by omega)) (by simp; omega)
    simpa [scanBytes] using this

/-- There are at most 256 distinct bytes. -/
theorem dedup_le (bs : List Byte) : bs.dedup.length ≤ 256 := by
  rw [← List.card_toFinset]
  calc bs.toFinset.card ≤ Fintype.card Byte := Finset.card_le_univ _
    _ = 256 := by
      rw [Fintype.card_congr
        (⟨fun x : Byte => x.toFin, fun x => BitVec.ofFin x, fun _ => rfl, fun _ => rfl⟩ : Byte ≃ Fin 256)]
      simp

end Sys2Proof.Machine
end

