-- ==== Sys2Proof/Laws/Frames.lean ====
section
/-! SUPPORT. What each loop and each phase operation can write: its own working registers, OBUF and PHASE
(spec 46_commands_sequencer.md R235), and how each ends (R231, R232). -/

namespace Sys2Proof.Machine

/-! The encoder's loops. -/

/-- E_SCAN's loop writes IDX, FREQ, SEQ and NSYM. -/
theorem scanBytes_frame (u : UnitE) (bs : List Byte) :
    scanBytes u bs = { u with
      idx := (scanBytes u bs).idx, freq := (scanBytes u bs).freq,
      seq := (scanBytes u bs).seq, nsym := (scanBytes u bs).nsym } := by
  induction bs generalizing u with
  | nil => rfl
  | cons b bs ih =>
    have h := ih (scanByte u b)
    have e : scanBytes u (b :: bs) = scanBytes (scanByte u b) bs := rfl
    rw [e, h]
    unfold scanByte
    simp only
    split <;> rfl

/-- A node put into the arena: NODE and INQ. -/
theorem putNode_frame {u v : UnitE} {h : Handle} {n : Node} (e : putNode u h n = .val v) :
    v = { u with node := v.node, inq := v.inq } := by
  unfold putNode at e
  split at e
  · obtain rfl : _ = v := by simpa using e
    rfl
  · cases e

/-- E_LEAF's loop writes NODE and INQ. -/
theorem leafLoop_frame {u v : UnitE} {bs : List Byte} (e : leafLoop u bs = .val v) :
    v = { u with node := v.node, inq := v.inq } := by
  induction bs generalizing u with
  | nil =>
    obtain rfl : u = v := by simpa [leafLoop] using e
    rfl
  | cons b bs ih =>
    obtain ⟨w, hw, hv⟩ := andThen_eq_val.1 e
    have h := ih hv
    unfold leafSymbol at hw
    split at hw
    · obtain rfl : u = w := by simpa using hw
      exact h
    · rw [h, putNode_frame hw]

/-- An iteration of E_MERGE writes NODE, INQ and NNODE. -/
theorem mergeStep_frame {u v : UnitE} (e : mergeStep u = some (.val v)) :
    v = { u with node := v.node, inq := v.inq, nnode := v.nnode } := by
  unfold mergeStep at e
  split at e
  · simp only at e
    split at e
    · simp only [Option.some.injEq] at e
      obtain ⟨na, -, e⟩ := andThen_eq_val.1 e
      obtain ⟨nb, -, e⟩ := andThen_eq_val.1 e
      obtain ⟨w, hw, e⟩ := andThen_eq_val.1 e
      obtain rfl : _ = v := by simpa using e
      rw [putNode_frame hw]
      rfl
    · cases e
  · cases e

/-- E_MERGE's loop writes NODE, INQ and NNODE. -/
theorem mergeLoop_frame {n : Nat} {u v : UnitE} (e : mergeLoop n u = .val v) :
    v = { u with node := v.node, inq := v.inq, nnode := v.nnode } := by
  induction n generalizing u with
  | zero =>
    obtain rfl : u = v := by simpa [mergeLoop] using e
    rfl
  | succ n ih =>
    rw [mergeLoop] at e
    cases hs : mergeStep u with
    | none =>
      rw [hs] at e
      obtain rfl : u = v := by simpa using e
      rfl
    | some r =>
      rw [hs] at e
      obtain ⟨w, rfl, hv⟩ := andThen_eq_val.1 e
      rw [ih hv, mergeStep_frame hs]

/-- E_MERGE's loop has nothing to do on at most one member. -/
theorem mergeLoop_empty {n : Nat} {u v : UnitE} (h : members u.inq = []) (e : mergeLoop n u = .val v) :
    v = u := by
  have hs : mergeStep u = none := by
    unfold mergeStep
    rw [h]
  cases n with
  | zero => simpa [mergeLoop, eq_comm] using e
  | succ n =>
    rw [mergeLoop, hs] at e
    simpa [eq_comm] using e

/-- E_WALK's visit writes LEN and TPAT. -/
theorem visit_frame {n : Nat} {u v : UnitE} {h : Handle} {p : List Bool} (e : visit n u h p = .val v) :
    v = { u with len := v.len, tpat := v.tpat } := by
  induction n generalizing u v h p with
  | zero => cases e
  | succ n ih =>
    rw [visit] at e
    split at e
    · cases e
    · obtain rfl : _ = v := by simpa using e
      rfl
    · obtain ⟨w, hw, hv⟩ := andThen_eq_val.1 e
      rw [ih hv, ih hw]

/-! The decoder's loops. -/

/-- D_TBL's loop writes CCL, LEN and RPTR, also where it raises an error. -/
theorem tableEntry_frame {u v : UnitD} {i : Nat} {e : Entry}
    (h : tableEntry u i e = .ok v ∨ ∃ c, tableEntry u i e = .raised v c) :
    v = { u with ccl := v.ccl, len := v.len, rptr := v.rptr } := by
  unfold tableEntry at h
  rcases h with h | ⟨c, h⟩ <;> split_ifs at h <;>
    first
    | (obtain rfl : _ = v := by simpa using h
       rfl)
    | (obtain ⟨rfl, -⟩ : u = v ∧ _ := by simpa using h
       rfl)

theorem tableLoop_frame {n i : Nat} {u v : UnitD}
    (h : tableLoop n i u = .ok v ∨ ∃ c, tableLoop n i u = .raised v c) :
    v = { u with ccl := v.ccl, len := v.len, rptr := v.rptr } := by
  induction n generalizing i u with
  | zero =>
    rcases h with h | ⟨c, h⟩
    · obtain rfl : u = v := by simpa [tableLoop] using h
      rfl
    · cases h
  | succ n ih =>
    simp only [tableLoop] at h
    have h' : ∃ bs, memRead u.port u.rptr.toNat 2 = .val bs := by
      rcases h with h | ⟨c, h⟩
      · obtain ⟨bs, hb, -⟩ := thenDo_eq_ok.1 h
        exact ⟨bs, hb⟩
      · obtain ⟨bs, hb, -⟩ := thenDo_eq_raised.1 h
        exact ⟨bs, hb⟩
    obtain ⟨bs, hb⟩ := h'
    simp only [hb, thenDo_val] at h
    cases hr : tableEntry u i ⟨bs.headD 0#8, bs.getD 1 0#8⟩ with
    | ok w =>
      simp only [hr] at h
      rw [ih h, tableEntry_frame (.inl hr)]
    | raised w c' =>
      simp only [hr] at h
      rcases h with h | ⟨c, h⟩
      · cases h
      · obtain ⟨rfl, -⟩ : w = v ∧ _ := by simpa using h
        exact tableEntry_frame (.inr ⟨c', hr⟩)
    | fault f =>
      simp only [hr] at h
      rcases h with h | ⟨c, h⟩ <;> cases h
    | refuse r =>
      simp only [hr] at h
      rcases h with h | ⟨c, h⟩ <;> cases h

/-- The error D_TBL's loop raises is BadCodeLength or BadTableOrder. -/
theorem tableLoop_cause {n i : Nat} {u v : UnitD} {c : Cause} (h : tableLoop n i u = .raised v c) :
    c = .badCodeLength ∨ c = .badTableOrder := by
  induction n generalizing i u with
  | zero => cases h
  | succ n ih =>
    rw [tableLoop] at h
    obtain ⟨bs, -, h⟩ := thenDo_eq_raised.1 h
    cases hr : tableEntry u i ⟨bs.headD 0#8, bs.getD 1 0#8⟩ with
    | ok w =>
      rw [hr] at h
      exact ih h
    | raised w c' =>
      rw [hr] at h
      obtain ⟨-, rfl⟩ : w = v ∧ c' = c := by simpa using h
      unfold tableEntry at hr
      split_ifs at hr <;>
        (obtain ⟨-, rfl⟩ : u = w ∧ _ = c' := by simpa using hr
         simp)
    | fault f => rw [hr] at h; cases h
    | refuse r => rw [hr] at h; cases h

/-- What a run of output writes leaves: OBUF from OCNT on, OCNT, and what keeps the memory's form. -/
structure Emitted (u v : UnitD) : Prop where
  port  : v.port = { u.port with obuf := v.port.obuf }
  form  : Memory.wf u.port.obuf → Memory.wf v.port.obuf
  bound : (∀ c ∈ u.port.obuf, c.1 < u.port.capOut.toNat) → ∀ c ∈ v.port.obuf, c.1 < u.port.capOut.toNat

theorem Emitted.refl (u : UnitD) : Emitted u u := ⟨rfl, id, id⟩

theorem Emitted.trans {u v w : UnitD} (a : Emitted u v) (b : Emitted v w) : Emitted u w := by
  have hc : v.port.capOut = u.port.capOut := by rw [a.port]
  refine ⟨by rw [b.port, a.port], fun h => b.form (a.form h), fun h => ?_⟩
  have := b.bound (by rw [hc]; exact a.bound h)
  rwa [hc] at this

/-- One symbol out: everything emitSymbol can do when it answers a unit. -/
theorem emitSymbol_eq_val {u v : UnitD} {s : Byte} :
    emitSymbol u s = .val v ↔
      u.ocnt.toNat + 1 ≤ u.port.capOut.toNat ∧
      v = { u with
        port := { u.port with obuf := Memory.write u.port.obuf u.ocnt.toNat s }, ocnt := u.ocnt + 1#64 } := by
  unfold emitSymbol
  rw [andThen_eq_val]
  constructor
  · rintro ⟨p, hp, hv⟩
    obtain ⟨h, rfl⟩ := memWrite_eq_val.1 hp
    exact ⟨h, by simpa [Memory.writeList] using hv.symm⟩
  · rintro ⟨h, rfl⟩
    exact ⟨_, memWrite_eq_val.2 ⟨h, rfl⟩, rfl⟩

theorem emitSymbol_emitted {u v : UnitD} {s : Byte} (h : emitSymbol u s = .val v) : Emitted u v := by
  obtain ⟨hc, rfl⟩ := emitSymbol_eq_val.1 h
  refine ⟨rfl, fun hf => wf_write hf _ _, fun hb c hcm => ?_⟩
  rcases mem_write hcm with rfl | hm
  · show u.ocnt.toNat < _
    omega
  · exact hb c hm

/-- D_SINGLE's loop. -/
theorem singleLoop_frame {s : Byte} {n : Nat} {u v : UnitD} (h : singleLoop s n u = .val v) :
    Emitted u v ∧ v = { u with port := v.port, ocnt := v.ocnt } ∧
    sameOutside u.port.obuf v.port.obuf u.ocnt.toNat n := by
  induction n generalizing u with
  | zero =>
    obtain rfl : u = v := by simpa [singleLoop] using h
    exact ⟨Emitted.refl u, rfl, fun _ _ => rfl⟩
  | succ n ih =>
    obtain ⟨w, hw, hv⟩ := andThen_eq_val.1 h
    obtain ⟨a, b, c⟩ := ih hv
    refine ⟨(emitSymbol_emitted hw).trans a, ?_, ?_⟩
    · obtain ⟨-, rfl⟩ := emitSymbol_eq_val.1 hw
      rw [b]
    · obtain ⟨hcap, rfl⟩ := emitSymbol_eq_val.1 hw
      have hlt := u.port.capOut.isLt
      intro k hk
      rw [c k (by simp; omega)]
      exact read_write_other _ _ _ _ (by omega)

/-- The rest of an iteration of D_WALK. -/
theorem walkBit_frame {u v : UnitD} {b : Bool} (h : walkBit u b = .val v) :
    Emitted u v ∧ v = { u with port := v.port, curv := v.curv, curl := v.curl, ocnt := v.ocnt } ∧
    ((v.ocnt = u.ocnt ∧ v.port.obuf = u.port.obuf) ∨
      (v.ocnt.toNat = u.ocnt.toNat + 1 ∧ sameOutside u.port.obuf v.port.obuf u.ocnt.toNat 1)) := by
  unfold walkBit at h
  simp only at h
  split at h
  · obtain ⟨w, hw, hv⟩ := andThen_eq_val.1 h
    obtain rfl : _ = v := by simpa using hv
    obtain ⟨p1, p2, p3⟩ := emitSymbol_emitted hw
    obtain ⟨hcap, rfl⟩ := emitSymbol_eq_val.1 hw
    have hlt := u.port.capOut.isLt
    refine ⟨⟨p1, p2, p3⟩, rfl, .inr ⟨?_, ?_⟩⟩
    · simp at hcap ⊢
      omega
    · intro k hk
      exact read_write_other _ _ _ _ (by simp; omega)
  · obtain rfl : _ = v := by simpa using h
    exact ⟨⟨rfl, id, id⟩, rfl, .inl ⟨rfl, rfl⟩⟩

/-- D_WALK's loop, also where it raises an error, which is BitCountMismatch. -/
theorem walkLoop_frame {n : Nat} {u v : UnitD}
    (h : walkLoop n u = .ok v ∨ ∃ c, walkLoop n u = .raised v c) :
    Emitted u v ∧
    v = { u with
      port := v.port, curv := v.curv, curl := v.curl, bitpos := v.bitpos, ocnt := v.ocnt } ∧
    sameOutside u.port.obuf v.port.obuf u.ocnt.toNat (u.origlen.toNat - u.ocnt.toNat) := by
  induction n generalizing u with
  | zero =>
    rw [walkLoop] at h
    split_ifs at h <;> rcases h with h | ⟨c, h⟩ <;> cases h <;>
      exact ⟨Emitted.refl _, rfl, fun _ _ => rfl⟩
  | succ n ih =>
    rw [walkLoop] at h
    split_ifs at h with hlt
    · have h' : ∃ r w, getBit u = .val r ∧ walkBit r.2 r.1 = .val w ∧
          (walkLoop n w = .ok v ∨ ∃ c, walkLoop n w = .raised v c) := by
        rcases h with h | ⟨c, h⟩
        · obtain ⟨r, hr, h⟩ := thenDo_eq_ok.1 h
          obtain ⟨w, hw, h⟩ := thenDo_eq_ok.1 h
          exact ⟨r, w, hr, hw, .inl h⟩
        · obtain ⟨r, hr, h⟩ := thenDo_eq_raised.1 h
          obtain ⟨w, hw, h⟩ := thenDo_eq_raised.1 h
          exact ⟨r, w, hr, hw, .inr ⟨c, h⟩⟩
      obtain ⟨r, w, hr, hw, hv⟩ := h'
      have hu := getBit_frame hr
      obtain ⟨a1, a2, a3⟩ := walkBit_frame hw
      obtain ⟨b1, b2, b3⟩ := ih hv
      have e1 : r.2.ocnt = u.ocnt := by rw [hu]
      have e2 : r.2.port = u.port := by rw [hu]
      have e3 : w.origlen = u.origlen := by rw [a2, hu]
      rw [e1, e2] at a3
      refine ⟨Emitted.trans ⟨by rw [a1.port, e2], ?_, ?_⟩ b1, by rw [b2, a2, hu], ?_⟩
      · have := a1.form
        rwa [e2] at this
      · have := a1.bound
        rwa [e2] at this
      · intro k hk
        rw [e3] at b3
        rcases a3 with ⟨c1, c2⟩ | ⟨c1, c2⟩
        · rw [b3 k (by rw [c1]; exact hk), c2]
        · rw [b3 k (by omega), c2 k (by omega)]
    · rcases h with h | ⟨c, h⟩
      · obtain rfl : u = v := by simpa using h
        exact ⟨Emitted.refl u, rfl, fun _ _ => rfl⟩
      · cases h

theorem walkLoop_cause {n : Nat} {u v : UnitD} {c : Cause} (h : walkLoop n u = .raised v c) :
    c = .bitCountMismatch := by
  induction n generalizing u with
  | zero =>
    rw [walkLoop] at h
    split_ifs at h
    obtain ⟨-, rfl⟩ : u = v ∧ _ = c := by simpa using h
    rfl
  | succ n ih =>
    rw [walkLoop] at h
    split_ifs at h
    obtain ⟨r, -, h⟩ := thenDo_eq_raised.1 h
    obtain ⟨w, -, h⟩ := thenDo_eq_raised.1 h
    exact ih h

end Sys2Proof.Machine
end

