-- ==== Sys2Proof/Laws/Decoder.lean ====
section
/-! SUPPORT. The decoder's table loop and tree walk: what the checks of D_TBL establish, and that the walk
undoes the packing (spec 45_decoder.md R195, R196, R202, R205). -/

namespace Sys2Proof.Machine

/-! The table (R195). -/

theorem before_trans {a b c : Entry} (h₁ : Entry.Before a b) (h₂ : Entry.Before b c) : Entry.Before a c := by
  unfold Entry.Before at *; omega

theorem entryPrecedes_iff {a b : Entry} : entryPrecedes a b = true ↔ Entry.Before a b := by
  simp [entryPrecedes, Entry.Before]

/-- What unit D is after D_TBL's loop has taken the entries `done`, from a cleared LEN. -/
structure Taken (u₀ : UnitD) (done : List Entry) (u : UnitD) : Prop where
  ccl : ∀ k e, done[k]? = some e → cclRead u.ccl k = some e
  len : ∀ e ∈ done, symRead u.len e.sym = e.len
  rest : ∀ b, b ∉ done.map Entry.sym → symRead u.len b = 0#8
  rptr : u.rptr = u₀.rptr + BitVec.ofNat 64 (2 * done.length)
  sorted : done.Pairwise Entry.Before
  nonzero : ∀ e ∈ done, e.len ≠ 0#8
  nodup : (done.map Entry.sym).Nodup
  frame : u = { u₀ with ccl := u.ccl, len := u.len, rptr := u.rptr }

/-- It holds at the start. -/
theorem taken_nil {u : UnitD} (h : ∀ b, symRead u.len b = 0#8) : Taken u [] u where
  ccl := by simp
  len := by simp
  rest := fun b _ => h b
  rptr := by simp
  sorted := List.Pairwise.nil
  nonzero := by simp
  nodup := by simp
  frame := rfl

/-- The order test looks at the last entry taken. -/
theorem outOfOrder_iff {u₀ u : UnitD} {done e} (w : Taken u₀ done u) :
    outOfOrder u done.length e = true ↔ ∃ g, done.getLast? = some g ∧ ¬ Entry.Before g e := by
  rcases List.eq_nil_or_concat done with rfl | ⟨ys, y, rfl⟩
  · simp [outOfOrder]
  · have := w.ccl ys.length y (by simp)
    simp only [List.concat_eq_append, List.length_append, List.length_singleton, outOfOrder]
    rw [this]
    simp [← entryPrecedes_iff]

/-- The test for a repeated symbol looks at the entries taken. -/
theorem seen_iff {u₀ u : UnitD} {done b} (w : Taken u₀ done u) : symRead u.len b ≠ 0#8 ↔
    b ∈ done.map Entry.sym := by
  constructor
  · intro h; by_contra hc; exact h (w.rest b hc)
  · intro h; obtain ⟨e, he, rfl⟩ := List.mem_map.1 h; rw [w.len e he]; exact w.nonzero e he

/-- A good entry is taken. -/
theorem tableEntry_ok {u₀ u : UnitD} {done e} (w : Taken u₀ done u) (hi : done.length < 256) (h1 :
    e.len ≠ 0#8)
   (h2 : ∀ g, done.getLast? = some g → Entry.Before g e) (h3 : e.sym ∉ done.map Entry.sym) :
   tableEntry u done.length e = .ok { u with ccl := cclWrite u.ccl done.length e, len := symWrite u.len e.sym e.len, rptr := u.rptr + 2#64 } := by
  have a : ¬ outOfOrder u done.length e = true := by
    rw [outOfOrder_iff w]; rintro ⟨g, hg, hb⟩; exact hb (h2 g hg)
  have b : ¬ symRead u.len e.sym ≠ 0#8 := by rw [seen_iff w]; exact h3
  rw [tableEntry, if_neg h1, if_neg a, if_neg b, if_pos hi]

/-- An entry taken was good. -/
theorem tableEntry_taken {u₀ u v : UnitD} {done e} (w : Taken u₀ done u)
   (h : tableEntry u done.length e = .ok v) : Taken u₀ (done ++ [e]) v := by
  unfold tableEntry at h
  split at h
  · cases h
  next h1 =>
  split at h
  · cases h
  next h2 =>
  split at h
  · cases h
  next h3 =>
  split at h
  swap
  · cases h
  next h4 =>
  obtain rfl : _ = v := by simpa using h
  rw [outOfOrder_iff w] at h2
  rw [seen_iff w] at h3
  have hlast : ∀ g ∈ done, Entry.Before g e := by
    rcases List.eq_nil_or_concat done with rfl | ⟨ys, y, rfl⟩
    · simp
    · intro g hg
      have hy : Entry.Before y e := by
        by_contra hc; exact h2 ⟨y, by simp, hc⟩
      rw [List.concat_eq_append, List.mem_append] at hg
      rcases hg with hg | hg
      · have hs := w.sorted
        rw [List.concat_eq_append, List.pairwise_append] at hs
        exact before_trans (hs.2.2 g hg y (by simp)) hy
      · obtain rfl : g = y := by simpa using hg
        exact hy
  refine ⟨?_, ?_, ?_, ?_, ?_, ?_, ?_, ?_⟩
  · intro k x hx
    simp only [cclRead_cclWrite]
    by_cases hk : done.length = k
    · subst hk
      obtain rfl : e = x := by simpa using hx
      simp [h4]
    · rw [if_neg hk]
      refine w.ccl k x ?_
      rw [List.getElem?_append] at hx
      split at hx
      · exact hx
      · rw [List.getElem?_eq_none (by simp; omega)] at hx; cases hx
  · intro x hx
    simp only
    rcases List.mem_append.1 hx with hx | hx
    · rw [symRead_symWrite_other, w.len x hx]
      intro hh; exact h3 (hh ▸ List.mem_map_of_mem hx)
    · obtain rfl : x = e := by simpa using hx
      simp
  · intro b hb
    simp only [List.map_append, List.mem_append, not_or] at hb
    simp only
    rw [symRead_symWrite_other, w.rest b hb.1]
    simpa using hb.2
  · simp only [w.rptr, List.length_append, List.length_singleton]
    rw [BitVec.add_assoc]; congr 1; simp [Nat.mul_add, BitVec.ofNat_add]
  · rw [List.pairwise_append]; exact ⟨w.sorted, by simp, by simpa using hlast⟩
  · intro x hx
    rcases List.mem_append.1 hx with hx | hx
    · exact w.nonzero x hx
    · obtain rfl : x = e := by simpa using hx
      exact h1
  · rw [List.map_append, List.nodup_append]
    refine ⟨w.nodup, by simp, ?_⟩
    intro a ha b hb
    obtain rfl : b = e.sym := by simpa using hb
    rintro rfl; exact h3 ha
  · rw [w.frame]

theorem holds_tail {m a b bs} (h : holdsBytes m a (b :: bs)) : holdsBytes m (a+1) bs := by
  intro i x hx
  have := h (i+1) x (by simpa using hx)
  rwa [show a + (i+1) = a + 1 + i by omega] at this

/-- The two bytes of the next entry. -/
theorem read_entry {u : UnitD} {e : Entry} {bs} (h :
    holdsBytes u.port.ibuf u.rptr.toNat (e.sym :: e.len :: bs))
   (h1 : u.rptr.toNat + 2 ≤ u.port.inLen.toNat) (h2 : u.port.inLen.toNat ≤ u.port.capIn.toNat) :
   memRead u.port u.rptr.toNat 2 = .val [e.sym, e.len] := by
  refine memRead_eq_val.2 ⟨⟨h1, by omega⟩, rfl, ?_⟩
  intro i b hb
  match i with
  | 0 => exact h 0 b (by simpa using hb)
  | 1 => exact h 1 b (by simpa using hb)
  | i+2 => simp at hb

/-- A good run of entries is taken whole, then the loop goes on. -/
theorem tableLoop_good {u₀ u : UnitD} {done es : List Entry} {m : Nat} (w : Taken u₀ done u)
   (hb : holdsBytes u.port.ibuf u.rptr.toNat (tableBytes es))
   (h1 : u.rptr.toNat + 2 * es.length ≤ u.port.inLen.toNat) (h2 : u.port.inLen.toNat ≤ u.port.capIn.toNat)
   (h3 : done.length + es.length ≤ 256) (h4 : ∀ e ∈ es, e.len ≠ 0#8) (h5 : (done ++ es).Pairwise Entry.Before)
   (h6 : ((done ++ es).map Entry.sym).Nodup) :
   ∃ v, Taken u₀ (done ++ es) v ∧
       tableLoop (es.length + m) done.length u = tableLoop m (done.length + es.length) v := by
  induction es generalizing u done with
  | nil => exact ⟨u, by simpa using w, by simp⟩
  | cons e es ih =>
    simp only [List.length_cons] at *
    rw [tableBytes] at hb
    have hr := read_entry hb (by omega) h2
    have hok := tableEntry_ok (e := e) w (by omega) (h4 e (by simp)) (by
      intro g hg
      rw [List.pairwise_append] at h5
      exact h5.2.2 g (List.mem_of_getLast? hg) e (by simp)) (by
      intro hm
      rw [List.map_append, List.nodup_append] at h6
      exact h6.2.2 _ hm _ (by simp) rfl)
    have w' := tableEntry_taken w hok
    have hcap := u.port.inLen.isLt
    have hrp : (u.rptr + 2#64).toNat = u.rptr.toNat + 2 := by simp; omega
    obtain ⟨v, hv, hl⟩ := ih w' (by
        simp only [hrp]
        exact holds_tail (holds_tail hb)) (by simp only [hrp]; omega) h2 (by simp; omega)
            (fun x hx => h4 x (by simp [hx])) (by simpa using h5) (by simpa using h6)
    refine ⟨v, by simpa using hv, ?_⟩
    rw [show es.length + 1 + m = (es.length + m) + 1 by omega]
    rw [tableLoop, hr, thenDo_val]
    simp only [List.headD_cons, List.getD_cons_succ, List.getD_cons_zero]
    rw [hok]
    simp only [List.length_append, List.length_singleton] at hl
    rw [show done.length + (es.length + 1) = done.length + 1 + es.length by omega, ← hl]

/-- Where the loop ends well, its entries were good. -/
theorem tableLoop_taken {u₀ u v : UnitD} {done : List Entry} {n : Nat} (w : Taken u₀ done u)
   (h : tableLoop n done.length u = .ok v) : ∃ es, es.length = n ∧ Taken u₀ (done ++ es) v := by
  induction n generalizing u done with
  | zero => obtain rfl : u = v := by simpa [tableLoop] using h
            exact ⟨[], rfl, by simpa using w⟩
  | succ n ih =>
    rw [tableLoop] at h
    obtain ⟨bs, -, h⟩ := thenDo_eq_ok.1 h
    split at h
    next u' h' =>
      obtain ⟨es, hes, hw⟩ := ih (tableEntry_taken w h') (by simpa using h)
      exact ⟨_ :: es, by simp [hes], by simpa using hw⟩
    next r hr => exact absurd h (by intro hh; exact hr _ hh)

/-! D_SINGLE's loop (R204). -/

/-- It writes the symbol over and over, where there is room. -/
theorem singleLoop_spec (b : Byte) (n : Nat) (u : UnitD) (h : u.ocnt.toNat + n ≤ u.port.capOut.toNat) :
   singleLoop b n u = .val { u with port := { u.port with obuf := Memory.writeList u.port.obuf u.ocnt.toNat (List.replicate n b) }, ocnt := u.ocnt + BitVec.ofNat 64 n } := by
  induction n generalizing u with
  | zero => simp [singleLoop, Memory.writeList]
  | succ n ih =>
    have hcap := u.port.capOut.isLt
    have e := (memWrite_eq_val (p := u.port) (a := u.ocnt.toNat) (bs := [b])).2 ⟨by simp; omega, rfl⟩
    simp only [singleLoop, emitSymbol, e, andThen_val]
    rw [ih _ (by simp; omega)]
    simp [Memory.writeList, List.replicate_succ]
    refine ⟨?_, ?_⟩
    · congr 1; omega
    · rw [BitVec.add_assoc]; congr 1; apply BitVec.eq_of_toNat_eq; simp; omega

/-! The walk (R205). -/

theorem matchFrom_some {l : Byte} {v : CodeWord} {i : Nat} {ls : List Byte} {vs : List CodeWord} {s : Byte} (hb : i + ls.length ≤ 256)
    (h : matchFrom l v i ls vs = some s) : i ≤ s.toNat ∧ ls[s.toNat - i]? = some l ∧
        vs[s.toNat - i]? = some v := by
  induction ls generalizing i vs with
  | nil => simp [matchFrom] at h
  | cons x ls ih =>
    cases vs with
    | nil => simp [matchFrom] at h
    | cons y vs =>
      simp only [matchFrom] at h
      simp only [List.length_cons] at hb
      split at h
      next hh =>
        obtain rfl : _ = s := by simpa using h
        have : (BitVec.ofNat 8 i).toNat = i := by simp; omega
        rw [this]; simp [hh]
      next hh =>
        obtain ⟨a, b, c⟩ := ih (by omega) h
        refine ⟨by omega, ?_, ?_⟩ <;> rw [show s.toNat - i = (s.toNat - (i+1)) + 1 by omega] <;> simpa

theorem matchFrom_none {l : Byte} {v : CodeWord} {i : Nat} {ls : List Byte} {vs : List CodeWord}
    (h : matchFrom l v i ls vs = none) (k : Nat) : ¬ (ls[k]? = some l ∧ vs[k]? = some v) := by
  induction ls generalizing i vs k with
  | nil => simp
  | cons x ls ih =>
    cases vs with
    | nil => simp
    | cons y vs =>
      simp only [matchFrom] at h
      split at h
      · cases h
      next hh =>
        cases k with
        | zero => simpa using hh
        | succ k => simpa using ih h k

theorem get_symFile {α} (x : SymFile α) (s : Byte) : x.toList[s.toNat]? = some (symRead x s) := by
  have : s.toNat < 256 := s.isLt
  simp [symRead]

/-- A symbol found has this length and this code. -/
theorem matchSymbol_some {len code l v s} (h : matchSymbol len code l v = some s) : symRead len s = l ∧
    symRead code s = v := by
  obtain ⟨-, a, b⟩ := matchFrom_some (by simp) h
  rw [Nat.sub_zero, get_symFile] at a b
  exact ⟨by simpa using a, by simpa using b⟩

/-- Where none is found there is none. -/
theorem matchSymbol_none {len code l v} (h : matchSymbol len code l v = none) (s : Byte) :
    ¬ (symRead len s = l ∧ symRead code s = v) := by
  have := matchFrom_none h s.toNat
  rw [get_symFile, get_symFile] at this
  simpa only [Option.some.injEq] using this

/-- The first n bits of a codeword are the codeword of its shifted value. -/
theorem codeBits_shift_prefix (v : CodeWord) (L n : Nat) (h : n ≤ L) :
    codeBits (v >>> (L - n)) n <+: codeBits v L := by
  rw [List.prefix_iff_eq_take]
  apply List.ext_getElem?
  intro i
  by_cases hi : i < n
  · rw [getElem?_codeBits _ _ _ hi, List.getElem?_take, length_codeBits, if_pos hi,
      getElem?_codeBits _ _ _ (by omega)]
    simp; congr 1; omega
  · rw [List.getElem?_eq_none (by simp; omega), List.getElem?_eq_none (by simp; omega)]

/-- CURV after the next bit of a codeword. -/
theorem curv_step (v : CodeWord) (L i : Nat) (hi : i < L) :
   ((v >>> (L - i)) <<< 1) ||| (if v.getLsbD (L - 1 - i) then 1#255 else 0#255) = v >>> (L - (i + 1)) := by
  apply BitVec.eq_of_getLsbD_eq
  intro j hj
  have : (if v.getLsbD (L - 1 - i) then 1#255 else 0#255).getLsbD j = (decide (j = 0) && v.getLsbD (L - 1 - i)) := by
    cases v.getLsbD (L - 1 - i) <;> simp [BitVec.getLsbD_one]
  rw [BitVec.getLsbD_or, this, BitVec.getLsbD_shiftLeft, BitVec.getLsbD_ushiftRight,
      BitVec.getLsbD_ushiftRight]
  cases j with
  | zero => simp; congr 1; omega
  | succ j => simp [hj]; congr 1; omega

/-- Unit D with k bits consumed, o out, and i bits of value cv of the next codeword. -/
def walkAt (u : UnitD) (k : Nat) (o : List Byte) (i : Nat) (cv : CodeWord) : UnitD :=
  { u with port := { u.port with obuf := Memory.writeList u.port.obuf u.ocnt.toNat o }, bitpos := BitVec.ofNat 64 k,
           ocnt := u.ocnt + BitVec.ofNat 64 o.length, curl := BitVec.ofNat 8 i, curv := cv }

/-- One bit of the codeword of b. -/
theorem walkLoop_step (u : UnitD) (pay o : List Byte) (b : Byte) (i k n : Nat)
    (hp : prefixCode u.code u.len) (hL : i < (symRead u.len b).toNat)
    (hpay : holdsBytes u.port.ibuf u.paybase.toNat pay) (h1 :
        u.paybase.toNat + pay.length ≤ u.port.inLen.toNat) (h2 : u.port.inLen.toNat ≤ u.port.capIn.toNat)
    (hk : k < 8 * pay.length) (hk64 : k < 2 ^ 64) (hbit :
        packedBit pay k = (symRead u.code b).getLsbD ((symRead u.len b).toNat - 1 - i))
    (ho : u.ocnt.toNat + o.length < u.origlen.toNat) (hc : u.origlen.toNat ≤ u.port.capOut.toNat) :
    walkLoop (n+1) (walkAt u k o i (symRead u.code b >>> ((symRead u.len b).toNat - i))) =
    walkLoop n (if i + 1 < (symRead u.len b).toNat then walkAt u (k+1) o (i+1)
        (symRead u.code b >>> ((symRead u.len b).toNat - (i+1)))
       else walkAt u (k+1) (o ++ [b]) 0 0#255) := by
  have hin := u.port.inLen.isLt
  have horig := u.origlen.isLt
  have hl255 : (symRead u.len b).toNat ≤ 255 := by have := (symRead u.len b).isLt; omega
  have hocnt : (u.ocnt + BitVec.ofNat 64 o.length).toNat = u.ocnt.toNat + o.length := by simp; omega
  rw [walkLoop, if_pos (by simp only [walkAt, hocnt]; omega)]
  have hkk : (BitVec.ofNat 64 k).toNat = k := by simp; omega
  have hk8 : k / 8 < pay.length := by omega
  have hg : getBit (walkAt u k o i (symRead u.code b >>> ((symRead u.len b).toNat - i))) = .val (packedBit pay k, walkAt u (k+1) o i (symRead u.code b >>> ((symRead u.len b).toNat - i))) := by
    rw [getBit_eq_val (b := pay[k/8])]
    · simp only [walkAt, hkk, packedBit]
      congr 2
      · simp [hk8]
      · simp [BitVec.ofNat_add]
    · simp only [walkAt, hkk]; omega
    · simp only [walkAt, hkk]; omega
    · simp only [walkAt, hkk]
      exact hpay _ _ (by simp [hk8])
  rw [hg, thenDo_val, hbit]
  have hcurl : BitVec.ofNat 8 i + 1#8 = BitVec.ofNat 8 (i+1) := by simp [BitVec.ofNat_add]
  have hi1 : (BitVec.ofNat 8 (i+1)).toNat = i + 1 := by simp; omega
  have hw : walkBit (walkAt u (k+1) o i (symRead u.code b >>> ((symRead u.len b).toNat - i)))
      ((symRead u.code b).getLsbD ((symRead u.len b).toNat - 1 - i)) = .val (if i + 1 < (symRead u.len b).toNat then walkAt u (k+1) o (i+1) (symRead u.code b >>> ((symRead u.len b).toNat - (i+1)))
       else walkAt u (k+1) (o ++ [b]) 0 0#255) := by
    simp only [walkBit, walkAt]
    rw [curv_step _ _ _ hL, hcurl]
    cases hm : matchSymbol u.len u.code (BitVec.ofNat 8 (i+1))
        (symRead u.code b >>> ((symRead u.len b).toNat - (i+1))) with
    | some s =>
      obtain ⟨m1, m2⟩ := matchSymbol_some hm
      have hsb : s = b := by
        apply hp.1
        · intro h; rw [h] at m1
          have := congrArg BitVec.toNat m1; rw [hi1] at this; simp at this
        · intro h; rw [h] at hL; simp at hL
        · unfold codewordOf; rw [m1, m2, hi1]; exact codeBits_shift_prefix _ _ _ (by omega)
      subst hsb
      have : ¬ i + 1 < (symRead u.len s).toNat := by rw [m1, hi1]; omega
      simp only [if_neg this]
      have hwr := (memWrite_eq_val (p :=
          { u.port with obuf := Memory.writeList u.port.obuf u.ocnt.toNat o }) (a :=
          (u.ocnt + BitVec.ofNat 64 o.length).toNat) (bs := [s])).2 ⟨by rw [hocnt]; simp; omega, rfl⟩
      simp only [emitSymbol]
      rw [hwr]
      simp [andThen_val]
      refine ⟨?_, ?_⟩
      · have : (BitVec.toNat u.ocnt + o.length) % 18446744073709551616 = BitVec.toNat u.ocnt + o.length :=
          by omega
        rw [this, writeList_append]
      · rw [BitVec.add_assoc, BitVec.ofNat_add]
    | none =>
      by_cases hlt : i + 1 < (symRead u.len b).toNat
      · simp [hlt]
      · exfalso
        refine matchSymbol_none hm b ⟨?_, ?_⟩
        · apply BitVec.eq_of_toNat_eq; rw [hi1]; omega
        · rw [show (symRead u.len b).toNat - (i+1) = 0 by omega]; simp
  rw [hw, thenDo_val]

theorem shift_all {v : CodeWord} {L : Nat} (h : v.toNat < 2^L) : v >>> L = 0#255 := by
  apply BitVec.eq_of_toNat_eq
  simp [Nat.shiftRight_eq_div_pow, h]

/-- The last j + 1 bits of the codeword of b. -/
theorem walkLoop_symbol (u : UnitD) (pay o : List Byte) (b : Byte) (k n j : Nat)
    (hp : prefixCode u.code u.len)
    (hpay : holdsBytes u.port.ibuf u.paybase.toNat pay) (h1 :
        u.paybase.toNat + pay.length ≤ u.port.inLen.toNat) (h2 : u.port.inLen.toNat ≤ u.port.capIn.toNat)
    (hj : j < (symRead u.len b).toNat)
    (hk : k + (j + 1) ≤ 8 * pay.length) (hk64 : k + (j + 1) ≤ 2 ^ 64) (hbit : ∀ i, i ≤ j →
        packedBit pay (k + i) = (symRead u.code b).getLsbD (j - i))
    (ho : u.ocnt.toNat + o.length < u.origlen.toNat) (hc : u.origlen.toNat ≤ u.port.capOut.toNat) :
    walkLoop (n + (j + 1)) (walkAt u k o ((symRead u.len b).toNat - (j + 1)) (symRead u.code b >>> (j+1))) =
    walkLoop n (walkAt u (k+(j+1)) (o ++ [b]) 0 0#255) := by
  induction j generalizing k with
  | zero =>
    have := walkLoop_step u pay o b ((symRead u.len b).toNat - 1) k n hp (by omega) hpay h1 h2 (by omega)
        (by omega) (by have := hbit 0 (by omega); rw [Nat.add_zero] at this; rw [this]; congr 1; omega) ho hc
    rw [if_neg (by omega), show (symRead u.len b).toNat - ((symRead u.len b).toNat - 1) = 1 by omega] at this
    exact this
  | succ j ih =>
    have := walkLoop_step u pay o b ((symRead u.len b).toNat - (j + 1 + 1)) k (n + (j + 1)) hp (by omega) hpay h1 h2 (by omega) (by omega) (by have := hbit 0 (by omega); rw [Nat.add_zero] at this; rw [this]; congr 1; omega) ho hc
    rw [if_pos (by omega),
        show (symRead u.len b).toNat - ((symRead u.len b).toNat - (j + 1 + 1)) = j + 1 + 1 by omega,
      show (symRead u.len b).toNat - (j + 1 + 1) + 1 = (symRead u.len b).toNat - (j + 1) by omega,
      show (symRead u.len b).toNat - ((symRead u.len b).toNat - (j + 1)) = j + 1 by omega] at this
    rw [show n + (j + 1 + 1) = n + (j + 1) + 1 by omega, this, ih (k+1) (by omega) (by omega) (by omega) (by
      intro i hi
      have := hbit (i+1) (by omega)
      rw [show k + 1 + i = k + (i + 1) by omega, this]; congr 1; omega)]
    congr 2; omega

/-- The codewords of a whole output. -/
theorem walkLoop_out (u : UnitD) (pay out o : List Byte) (k n : Nat)
    (hp : prefixCode u.code u.len) (hne : ∀ b ∈ out, symRead u.len b ≠ 0#8)
    (hpay : holdsBytes u.port.ibuf u.paybase.toNat pay) (h1 :
        u.paybase.toNat + pay.length ≤ u.port.inLen.toNat) (h2 : u.port.inLen.toNat ≤ u.port.capIn.toNat)
    (hk : k + (out.flatMap (fun b => codewordOf u.code u.len b)).length ≤ 8 * pay.length)
    (hk64 : k + (out.flatMap (fun b => codewordOf u.code u.len b)).length < 2 ^ 64)
    (hbit : ∀ i, i < (out.flatMap (fun b => codewordOf u.code u.len b)).length →
        packedBit pay (k + i) = (out.flatMap (fun b => codewordOf u.code u.len b)).getD i false)
    (ho : u.ocnt.toNat + o.length + out.length ≤ u.origlen.toNat) (hc :
        u.origlen.toNat ≤ u.port.capOut.toNat) :
    walkLoop (n + (out.flatMap (fun b => codewordOf u.code u.len b)).length) (walkAt u k o 0 0#255) =
    walkLoop n (walkAt u (k + (out.flatMap (fun b => codewordOf u.code u.len b)).length)
        (o ++ out) 0 0#255) := by
  induction out generalizing k o with
  | nil => simp
  | cons b out ih =>
    have hL : (codewordOf u.code u.len b).length = (symRead u.len b).toNat := by simp [codewordOf]
    have hpos : 0 < (symRead u.len b).toNat := by
      have := hne b (by simp)
      rcases Nat.eq_zero_or_pos (symRead u.len b).toNat with h | h
      · exact absurd (BitVec.eq_of_toNat_eq (by simpa using h)) this
      · exact h
    simp only [List.flatMap_cons, List.length_append, List.length_cons, hL] at hk hk64 hbit ho ⊢
    have S := walkLoop_symbol u pay o b k (n + (out.flatMap (fun b => codewordOf u.code u.len b)).length)
        ((symRead u.len b).toNat - 1) hp hpay h1 h2 (by omega) (by omega) (by omega) (by
      intro i hi
      rw [hbit i (by omega), List.getD_eq_getElem?_getD, List.getElem?_append_left (by omega)]
      unfold codewordOf
      rw [getElem?_codeBits _ _ _ (by omega)]
      simp) (by omega) hc
    rw [show (symRead u.len b).toNat - 1 + 1 = (symRead u.len b).toNat by omega, Nat.sub_self,
        shift_all (hp.2 b (hne b (by simp)))] at S
    rw [show n + ((symRead u.len b).toNat + (out.flatMap (fun b => codewordOf u.code u.len b)).length) = n + (out.flatMap (fun b => codewordOf u.code u.len b)).length + (symRead u.len b).toNat by omega, S]
    rw [ih (o ++ [b]) (k + (symRead u.len b).toNat) (fun x hx => hne x (by simp [hx])) (by omega)
        (by omega) ?_ (by simp; omega)]
    · simp [Nat.add_assoc]
    · intro i hi
      have := hbit ((symRead u.len b).toNat + i) (by omega)
      rw [show k + (symRead u.len b).toNat + i = k + ((symRead u.len b).toNat + i) by omega, this]
      rw [List.getD_eq_getElem?_getD, List.getElem?_append_right (by omega), hL]
      simp

/-- The first j bits of the codeword of b, from the root, where it has more. -/
theorem walkLoop_part (u : UnitD) (pay o : List Byte) (b : Byte) (k n j : Nat)
    (hp : prefixCode u.code u.len)
    (hpay : holdsBytes u.port.ibuf u.paybase.toNat pay)
    (h1 : u.paybase.toNat + pay.length ≤ u.port.inLen.toNat) (h2 : u.port.inLen.toNat ≤ u.port.capIn.toNat)
    (hj : j < (symRead u.len b).toNat) (hk : k + j ≤ 8 * pay.length) (hk64 : k + j ≤ 2 ^ 64)
    (hbit : ∀ i, i < j →
      packedBit pay (k + i) = (symRead u.code b).getLsbD ((symRead u.len b).toNat - 1 - i))
    (ho : u.ocnt.toNat + o.length < u.origlen.toNat) (hc : u.origlen.toNat ≤ u.port.capOut.toNat) :
    walkLoop (n + j) (walkAt u k o 0 0#255) =
      walkLoop n (walkAt u (k + j) o j (symRead u.code b >>> ((symRead u.len b).toNat - j))) := by
  induction j generalizing n with
  | zero =>
    have hb : symRead u.len b ≠ 0#8 := by
      intro h
      rw [h] at hj
      simp at hj
    rw [Nat.sub_zero, shift_all (hp.2 b hb)]
    rfl
  | succ j ih =>
    rw [show n + (j + 1) = (n + 1) + j by omega,
      ih (n + 1) (by omega) (by omega) (by omega) (fun i hi => hbit i (by omega)),
      walkLoop_step u pay o b j (k + j) n hp (by omega) hpay h1 h2 (by omega) (by omega) (hbit j (by omega)) ho hc,
      if_pos hj]
    rfl

end Sys2Proof.Machine
end

