-- ==== Sys2Proof/Laws/Encoding.lean ====
section
/-! SUPPORT. The container's parts: what the decoder takes is what the encoder writes
(spec 30_encoding.md R80 to R92). -/

namespace Sys2Proof.Machine

/-- Bytes written are taken. -/
theorem takeBytes_append (xs ys : List Byte) (n) (h : xs.length = n) : takeBytes n (xs ++ ys) = .ok (xs,
    ys) := by
  subst h; simp [takeBytes]

/-- Bytes taken stood there. -/
theorem takeBytes_ok {n bs a b} (h : takeBytes n bs = .ok (a, b)) : bs = a ++ b ∧ a.length = n := by
  unfold takeBytes at h
  split at h
  · obtain ⟨rfl, rfl⟩ : bs.take n = a ∧ bs.drop n = b := by simpa using h
    simp; omega
  · cases h

/-- A table written is taken. -/
theorem takeEntries_append (es : List Entry) (ys) : takeEntries es.length (tableBytes es ++ ys) = .ok (es,
    ys) := by
  induction es with
  | nil => rfl
  | cons e es ih => simp [takeEntries, tableBytes, ih]

/-- A table taken stood there. -/
theorem takeEntries_ok {n bs es r} (h : takeEntries n bs = .ok (es, r)) : bs = tableBytes es ++ r ∧
    es.length = n := by
  induction n generalizing bs es r with
  | zero => simp [takeEntries] at h; obtain ⟨rfl, rfl⟩ := h; simp [tableBytes]
  | succ n ih =>
    match bs with
    | [] => simp [takeEntries] at h
    | [_] => simp [takeEntries] at h
    | s :: l :: bs =>
      simp only [takeEntries] at h
      split at h
      next es' rest h' =>
        obtain ⟨rfl, h2⟩ := ih h'
        simp at h
        obtain ⟨rfl, rfl⟩ := h
        simp [tableBytes, h2]
      · cases h

/-- be_n undoes from_be on n bytes. -/
theorem beBytes_fromBe (bs : List Byte) : beBytes bs.length (fromBe bs) = bs := by
  have key : ∀ (bs : List Byte) (a : Nat), beBytes bs.length (bs.foldl (fun (acc : Nat) (b :
      Byte) => acc * 256 + b.toNat) a) = bs := by
    intro bs
    have lt : ∀ bs : List Byte, ∀ a, ∃ q, q < 256 ^ bs.length ∧ bs.foldl (fun (acc : Nat) (b :
        Byte) => acc * 256 + b.toNat) a = a * 256 ^ bs.length + q := by
      intro bs
      induction bs with
      | nil => intro a; exact ⟨0, by simp, by simp⟩
      | cons b bs ih =>
        intro a
        obtain ⟨q, hq, e⟩ := ih (a * 256 + b.toNat)
        refine ⟨b.toNat * 256 ^ bs.length + q, ?_, ?_⟩
        · have := b.isLt
          rw [List.length_cons, Nat.pow_succ]
          nlinarith
        · rw [List.foldl_cons, e, List.length_cons, Nat.pow_succ]; ring
    induction bs with
    | nil => intro a; rfl
    | cons b bs ih =>
      intro a
      rw [List.foldl_cons, List.length_cons, beBytes, ih]
      congr 1
      obtain ⟨q, hq, e⟩ := lt bs (a * 256 + b.toNat)
      rw [e]
      apply BitVec.eq_of_toNat_eq
      rw [BitVec.toNat_ofNat, Nat.add_comm, Nat.add_mul_div_right _ _ (Nat.pow_pos (by omega)),
          Nat.div_eq_of_lt hq]
      have := b.isLt; omega
  exact key bs 0

/-- n bytes are a number below 256^n. -/
theorem fromBe_lt (bs : List Byte) : fromBe bs < 256 ^ bs.length := by
  have lt : ∀ bs : List Byte, ∀ a, bs.foldl (fun (acc : Nat) (b :
      Byte) => acc * 256 + b.toNat) a < (a + 1) * 256 ^ bs.length := by
      intro bs
      induction bs with
      | nil => intro a; simp
      | cons b bs ih =>
        intro a
        have := ih (a * 256 + b.toNat)
        have hb := b.isLt
        rw [List.foldl_cons, List.length_cons, Nat.pow_succ]
        refine Nat.lt_of_lt_of_le this ?_
        rw [Nat.mul_comm (256 ^ bs.length) 256, ← Nat.mul_assoc]
        exact Nat.mul_le_mul_right _ (by omega)
  simpa [fromBe] using lt bs 0

/-- ceil8 as a division (R11). -/
theorem ceil8_eq (n : Nat) : ceil8 n = (n + 7) / 8 := by unfold ceil8; split <;> omega

/-- What the checks of R84 and R87 ask. -/
theorem checkContainer_ok {c : Container} : checkContainer c = .ok c ↔ c.lengthsOk = true ∧
    c.orderOk = true ∧ c.symbolsOk = true ∧ c.payloadOk = true := by
  unfold checkContainer Container.payloadOk
  rw [ceil8_eq]
  cases c.lengthsOk <;> cases c.orderOk <;> cases c.symbolsOk <;> simp

theorem checkContainer_id {c d : Container} (h : checkContainer c = .ok d) : c = d := by
  unfold checkContainer at h
  split_ifs at h
  simpa using h

/-- A command is of the unit written to. -/
theorem decodeCmd_unit (u w) : instrUnit (decodeCmd u w) = u ∧ instrSuccessors (decodeCmd u w) = [] := by
  unfold decodeCmd; simp only; split_ifs <;> exact ⟨rfl, rfl⟩

/-- A PHASE code names an operation of its unit, whose code it is. -/
theorem decodePhase_unit {u p i} (h : decodePhase u p = .ok i) : instrUnit i = u ∧
    (instrSuccessors i ≠ [] → p ≠ 0#5) ∧ (instrSuccessors i = [] → i = .idle u ∧ p = 0#5) ∧
    encode i = .phase u p := by
  have hp := p.isLt
  obtain ⟨n, hn, rfl⟩ : ∃ n, n < 32 ∧ p = BitVec.ofNat 5 n := ⟨p.toNat, hp, by simp⟩
  cases u <;> interval_cases n <;> cases h <;> exact ⟨rfl, by decide, by decide, rfl⟩

end Sys2Proof.Machine
end

