-- ==== Sys2Proof/Laws/PerInstr.lean ====
section
/-! SUPPORT. Statements made once per instruction: the form an encoding has (spec 30_encoding.md R80, R95,
R98), for the host's case split. -/

namespace Sys2Proof.Laws.EncodedForm

open Sys2Proof.Machine

/-- An instruction is encoded as a value for CMD of its unit that uses the low byte only, as a PHASE code of
its unit, or as bytes that begin with MAGIC and have the container's length (R87). -/
def Statement (i : Instr) : Prop :=
  i.wf = true →
  match encode i with
  | .cmd u w => u = instrUnit i ∧ w.toNat < 256
  | .phase u p => u = instrUnit i ∧ unitPhase u p
  | .bytes bs => instrUnit i = .D ∧ bs.take 4 = Config.magic ∧ 22 ≤ bs.length

theorem nop (u : UnitKind) : Statement (.nop u) := fun _ => ⟨rfl, by decide⟩

theorem enc (u : UnitKind) : Statement (.enc u) := fun _ => ⟨rfl, by decide⟩

theorem dec (u : UnitKind) : Statement (.dec u) := fun _ => ⟨rfl, by decide⟩

theorem clr (u : UnitKind) : Statement (.clr u) := fun _ => ⟨rfl, by decide⟩

theorem reservedCmd (u : UnitKind) (op : Byte) : Statement (.reservedCmd u op) := by
  intro _
  refine ⟨rfl, ?_⟩
  have := op.isLt
  simp
  omega

theorem idle (u : UnitKind) : Statement (.idle u) := by
  intro _
  cases u <;> exact ⟨rfl, by simp [unitPhase]⟩

theorem eInit : Statement .eInit := fun _ => ⟨rfl, by simp [unitPhase]⟩

theorem eScan : Statement .eScan := fun _ => ⟨rfl, by simp [unitPhase]⟩

theorem eLeaf : Statement .eLeaf := fun _ => ⟨rfl, by simp [unitPhase]⟩

theorem eMerge : Statement .eMerge := fun _ => ⟨rfl, by simp [unitPhase]⟩

theorem eSingle : Statement .eSingle := fun _ => ⟨rfl, by simp [unitPhase]⟩

theorem eWalk : Statement .eWalk := fun _ => ⟨rfl, by simp [unitPhase]⟩

theorem eSort : Statement .eSort := fun _ => ⟨rfl, by simp [unitPhase]⟩

theorem eCanon : Statement .eCanon := fun _ => ⟨rfl, by simp [unitPhase]⟩

theorem eSize : Statement .eSize := fun _ => ⟨rfl, by simp [unitPhase]⟩

theorem eHdr : Statement .eHdr := fun _ => ⟨rfl, by simp [unitPhase]⟩

theorem eTbl : Statement .eTbl := fun _ => ⟨rfl, by simp [unitPhase]⟩

theorem ePbc : Statement .ePbc := fun _ => ⟨rfl, by simp [unitPhase]⟩

theorem ePack : Statement .ePack := fun _ => ⟨rfl, by simp [unitPhase]⟩

theorem eFlush : Statement .eFlush := fun _ => ⟨rfl, by simp [unitPhase]⟩

theorem eFin : Statement .eFin := fun _ => ⟨rfl, by simp [unitPhase]⟩

theorem dInit : Statement .dInit := fun _ => ⟨rfl, by simp [unitPhase]⟩

theorem dMagic : Statement .dMagic := fun _ => ⟨rfl, by simp [unitPhase]⟩

theorem dOlen : Statement .dOlen := fun _ => ⟨rfl, by simp [unitPhase]⟩

theorem dScnt : Statement .dScnt := fun _ => ⟨rfl, by simp [unitPhase]⟩

theorem dTbl : Statement .dTbl := fun _ => ⟨rfl, by simp [unitPhase]⟩

theorem dPbc : Statement .dPbc := fun _ => ⟨rfl, by simp [unitPhase]⟩

theorem dSize : Statement .dSize := fun _ => ⟨rfl, by simp [unitPhase]⟩

theorem dCanon : Statement .dCanon := fun _ => ⟨rfl, by simp [unitPhase]⟩

theorem dEmpty : Statement .dEmpty := fun _ => ⟨rfl, by simp [unitPhase]⟩

theorem dSingle : Statement .dSingle := fun _ => ⟨rfl, by simp [unitPhase]⟩

theorem dWalk : Statement .dWalk := fun _ => ⟨rfl, by simp [unitPhase]⟩

theorem dFin : Statement .dFin := fun _ => ⟨rfl, by simp [unitPhase]⟩

theorem huf1Container (c : Container) : Statement (.huf1Container c) := by
  intro _
  refine ⟨rfl, ?_, ?_⟩
  · simp [encodeContainer, Config.magic]
  · simp [encodeContainer, Config.magic, length_beBytes]
    omega

end Sys2Proof.Laws.EncodedForm
end

