-- ==== Sys2Proof/Laws/Phases.lean ====
section
/-! SUPPORT. Everything a phase operation can leave, said once for all of them: how its unit's port ends, and
that nothing else of the machine changes (spec 46_commands_sequencer.md R231, R232, R235). -/

namespace Sys2Proof.Machine

/-- q is p with other bytes in OBUF, in form and in bounds where p is. -/
structure Stored (p q : Port) : Prop where
  port  : q = { p with phase := q.phase, obuf := q.obuf }
  form  : Memory.wf p.obuf → Memory.wf q.obuf
  bound : (∀ c ∈ p.obuf, c.1 < p.capOut.toNat) → ∀ c ∈ q.obuf, c.1 < p.capOut.toNat

/-- How a phase operation ends, seen at its unit's port: it goes on to one of its successors, or it takes the
error exit. -/
inductive PhaseEnd (succ : List (BitVec 5)) (p q : Port) : Prop where
  | goes (h : q.phase ∈ succ) (e : Stored p q)
  | fails (c : Cause) (p' : Port) (hc : c ≠ .illegalCommand) (h : p'.phase = p.phase) (e : Stored p p')
      (hq : q = errorExit p' c)

theorem Stored.refl (p : Port) : Stored p p := ⟨rfl, id, id⟩

theorem Stored.trans {p q r : Port} (a : Stored p q) (b : Stored q r) : Stored p r := by
  have hc : q.capOut = p.capOut := by rw [a.port]
  refine ⟨by rw [b.port, a.port], fun h => b.form (a.form h), fun h => ?_⟩
  have := b.bound (by rw [hc]; exact a.bound h)
  rwa [hc] at this

/-- PHASE written on top. -/
theorem Stored.phase {p q : Port} (a : Stored p q) (x : BitVec 5) : Stored p { q with phase := x } :=
  ⟨by rw [a.port], a.form, a.bound⟩

/-- MemWrite stores. -/
theorem memWrite_stored {p q : Port} {a : Nat} {bs : List Byte} (h : memWrite p a bs = .val q) : Stored p q := by
  obtain ⟨hc, rfl⟩ := memWrite_eq_val.1 h
  exact ⟨rfl, fun hf => wf_writeList hf _ _, fun hb => bound_writeList hb hc⟩

theorem emit_stored {u v : UnitE} {bs : List Byte} (h : u.emit bs = .val v) : Stored u.port v.port := by
  unfold UnitE.emit at h
  obtain ⟨p, hp, hv⟩ := andThen_eq_val.1 h
  obtain rfl : _ = v := by simpa using hv
  exact memWrite_stored hp

theorem emitEntries_stored {u v : UnitE} {es : List Entry} (h : emitEntries u es = .val v) :
    Stored u.port v.port := by
  induction es generalizing u with
  | nil =>
    obtain rfl : u = v := by simpa [emitEntries] using h
    exact Stored.refl _
  | cons e es ih =>
    obtain ⟨w, hw, hv⟩ := andThen_eq_val.1 h
    exact (emit_stored hw).trans (ih hv)

theorem putBit_stored {u v : UnitE} {b : Bool} (h : putBit u b = .val v) : Stored u.port v.port := by
  unfold putBit at h
  simp only at h
  split at h
  · obtain ⟨w, hw, hv⟩ := andThen_eq_val.1 h
    obtain rfl : _ = v := by simpa using hv
    have := emit_stored hw
    exact this
  · obtain rfl : _ = v := by simpa using h
    exact Stored.refl _

theorem putBitList_stored {u v : UnitE} {bits : List Bool} (h : putBitList u bits = .val v) :
    Stored u.port v.port := by
  induction bits generalizing u with
  | nil =>
    obtain rfl : u = v := by simpa [putBitList] using h
    exact Stored.refl _
  | cons b bits ih =>
    obtain ⟨w, hw, hv⟩ := andThen_eq_val.1 h
    exact (putBit_stored hw).trans (ih hv)

theorem packBytes_stored {u v : UnitE} {bs : List Byte} (h : packBytes u bs = .val v) :
    Stored u.port v.port := by
  induction bs generalizing u with
  | nil =>
    obtain rfl : u = v := by simpa [packBytes] using h
    exact Stored.refl _
  | cons b bs ih =>
    obtain ⟨w, hw, hv⟩ := andThen_eq_val.1 h
    obtain ⟨x, hx, hxw⟩ := andThen_eq_val.1 hw
    obtain rfl : _ = w := by simpa using hxw
    have := ih hv
    exact (putBitList_stored hx).trans this

theorem flushBits_stored {u v : UnitE} (h : flushBits u = .val v) : Stored u.port v.port := by
  unfold flushBits at h
  split at h
  · obtain rfl : u = v := by simpa using h
    exact Stored.refl _
  · obtain ⟨w, hw, hv⟩ := andThen_eq_val.1 h
    obtain rfl : _ = v := by simpa using hv
    have := emit_stored hw
    exact this

theorem Emitted.stored {u v : UnitD} (h : Emitted u v) : Stored u.port v.port :=
  ⟨by rw [h.port], h.form, h.bound⟩

/-- A phase of unit E, from how its result ends. -/
theorem endE {s t : State} {r : Res UnitE} {succ : List (BitVec 5)} (h : s.finishE r = .next t)
    (ok : ∀ v, r = .ok v → v.port.phase ∈ succ ∧ Stored s.e.port v.port)
    (raised : ∀ v c, r = .raised v c → v.port = s.e.port ∧ c ≠ .illegalCommand) :
    PhaseEnd succ s.e.port t.e.port ∧ t = { s with e := t.e } := by
  rcases finishE_eq_next.1 h with ⟨u, hu, rfl⟩ | ⟨u, c, hu, rfl⟩
  · exact ⟨.goes (ok u hu).1 (ok u hu).2, rfl⟩
  · obtain ⟨h1, h2⟩ := raised u c hu
    exact ⟨.fails c s.e.port h2 rfl (Stored.refl _) (by simp [h1]), rfl⟩

/-- A phase of unit D. -/
theorem endD {s t : State} {r : Res UnitD} {succ : List (BitVec 5)} (h : s.finishD r = .next t)
    (ok : ∀ v, r = .ok v → v.port.phase ∈ succ ∧ Stored s.d.port v.port)
    (raised : ∀ v c, r = .raised v c →
      v.port.phase = s.d.port.phase ∧ Stored s.d.port v.port ∧ c ≠ .illegalCommand) :
    PhaseEnd succ s.d.port t.d.port ∧ t = { s with d := t.d } := by
  rcases finishD_eq_next.1 h with ⟨u, hu, rfl⟩ | ⟨u, c, hu, rfl⟩
  · exact ⟨.goes (ok u hu).1 (ok u hu).2, rfl⟩
  · obtain ⟨h1, h2, h3⟩ := raised u c hu
    exact ⟨.fails c u.port h3 h1 h2 rfl, rfl⟩

/-- Everything a phase of unit E other than E_FIN can leave. -/
theorem phaseE_end {i : Instr} {s t : State} (hs : instrSuccessors i ≠ []) (hu : instrUnit i = .E)
    (hf : i ≠ .eFin) (h : exec i s = .next t) :
    PhaseEnd (instrSuccessors i) s.e.port t.e.port ∧
      t = { s with e := t.e, free := if i = .eMerge ∧ members s.e.inq = [] then s.free + 1 else s.free } := by
  have plain : ∀ {succ : List (BitVec 5)} {x y : State} (c : Prop) [Decidable c], ¬ c →
      (PhaseEnd succ x.e.port y.e.port ∧ y = { x with e := y.e }) →
      PhaseEnd succ x.e.port y.e.port ∧ y = { x with e := y.e, free := if c then x.free + 1 else x.free } := by
    intro succ x y c _ hc h
    exact ⟨h.1, by rw [if_neg hc]; exact h.2⟩
  cases i <;> try exact absurd rfl hs
  case eInit =>
    refine plain _ (by simp) (endE h ?_ ?_)
    · intro v hv
      unfold phaseEInit at hv
      split_ifs at hv
      obtain rfl : _ = v := by simpa using hv
      exact ⟨by simp [instrSuccessors], (Stored.refl _).phase _⟩
    · intro v c hv
      unfold phaseEInit at hv
      split_ifs at hv
      obtain ⟨rfl, rfl⟩ : s.e = v ∧ _ = c := by simpa using hv
      exact ⟨rfl, by simp⟩
  case eScan =>
    refine plain _ (by simp) (endE h ?_ ?_)
    · intro v hv
      obtain ⟨bs, -, hv⟩ := thenDo_eq_ok.1 hv
      obtain rfl : _ = v := by simpa using hv
      refine ⟨?_, ?_⟩
      · simp only [gotoE_port, instrSuccessors]
        split_ifs <;> simp
      · simp only [gotoE_port]
        rw [scanBytes_frame]
        exact (Stored.refl _).phase _
    · intro v c hv
      obtain ⟨bs, -, hv⟩ := thenDo_eq_raised.1 hv
      cases hv
  case eLeaf =>
    refine plain _ (by simp) (endE h ?_ ?_)
    · intro v hv
      obtain ⟨w, hw, hv⟩ := thenDo_eq_ok.1 hv
      obtain rfl : _ = v := by simpa using hv
      refine ⟨?_, ?_⟩
      · simp only [gotoE_port, instrSuccessors]
        split_ifs <;> simp
      · simp only [gotoE_port]
        rw [leafLoop_frame hw]
        exact (Stored.refl _).phase _
    · intro v c hv
      obtain ⟨bs, -, hv⟩ := thenDo_eq_raised.1 hv
      cases hv
  case eMerge =>
    have key : ∀ x : State, x.e = s.e → x.finishE (phaseEMerge (Config.freeHandle s.free) s.e) = .next t →
        PhaseEnd (instrSuccessors .eMerge) s.e.port t.e.port ∧ t = { x with e := t.e } := by
      intro x hx hh
      have := endE (succ := instrSuccessors .eMerge) hh ?_ ?_
      · rwa [hx] at this
      · intro v hv
        obtain ⟨w, hw, hv⟩ := thenDo_eq_ok.1 hv
        obtain rfl : _ = v := by simpa using hv
        refine ⟨by simp [instrSuccessors], ?_⟩
        simp only [gotoE_port]
        rw [mergeLoop_frame hw, hx]
        exact (Stored.refl _).phase _
      · intro v c hv
        obtain ⟨bs, -, hv⟩ := thenDo_eq_raised.1 hv
        cases hv
    simp only [exec, execEMerge] at h
    by_cases hm : members s.e.inq = []
    · rw [hm] at h
      obtain ⟨a, b⟩ := key s.takeFree rfl h
      exact ⟨a, by rw [if_pos ⟨rfl, hm⟩]; exact b⟩
    · rw [if_neg (by simpa using hm)] at h
      obtain ⟨a, b⟩ := key s rfl h
      exact ⟨a, by rw [if_neg (by simp [hm])]; exact b⟩
  case eSingle =>
    refine plain _ (by simp) (endE h ?_ ?_)
    · intro v hv
      unfold phaseESingle at hv
      split at hv
      · obtain rfl : _ = v := by simpa using hv
        exact ⟨by simp [instrSuccessors], (Stored.refl _).phase _⟩
      · cases hv
    · intro v c hv
      unfold phaseESingle at hv
      split at hv <;> cases hv
  case eWalk =>
    refine plain _ (by simp) (endE h ?_ ?_)
    · intro v hv
      obtain ⟨w, hw, hv⟩ := thenDo_eq_ok.1 hv
      obtain rfl : _ = v := by simpa using hv
      refine ⟨by simp [instrSuccessors], ?_⟩
      simp only [gotoE_port]
      rw [visit_frame hw]
      exact (Stored.refl _).phase _
    · intro v c hv
      obtain ⟨bs, -, hv⟩ := thenDo_eq_raised.1 hv
      cases hv
  case eSort =>
    have h : s.finishE (phaseESort s.e) = .next t := h
    refine plain _ (by simp) (endE h ?_ ?_)
    · intro v hv
      obtain rfl : _ = v := by simpa [phaseESort] using hv
      exact ⟨by simp [instrSuccessors], (Stored.refl _).phase _⟩
    · intro v c hv
      cases hv
  case eCanon =>
    refine plain _ (by simp) (endE h ?_ ?_)
    · intro v hv
      obtain ⟨es, -, hv⟩ := thenDo_eq_ok.1 hv
      unfold canonEndE at hv
      split at hv <;> cases hv
      exact ⟨by simp [instrSuccessors], (Stored.refl _).phase _⟩
    · intro v c hv
      obtain ⟨es, -, hv⟩ := thenDo_eq_raised.1 hv
      unfold canonEndE at hv
      split at hv <;> cases hv
  case eSize =>
    refine plain _ (by simp) (endE h ?_ ?_)
    · intro v hv
      unfold phaseESize at hv
      simp only at hv
      split_ifs at hv
      obtain rfl : _ = v := by simpa using hv
      exact ⟨by simp [instrSuccessors], (Stored.refl _).phase _⟩
    · intro v c hv
      unfold phaseESize at hv
      simp only at hv
      split_ifs at hv
      obtain ⟨rfl, rfl⟩ : _ = v ∧ _ = c := by simpa using hv
      exact ⟨rfl, by simp⟩
  case eHdr =>
    refine plain _ (by simp) (endE h ?_ ?_)
    · intro v hv
      obtain ⟨p1, h1, hv⟩ := thenDo_eq_ok.1 hv
      obtain ⟨p2, h2, hv⟩ := thenDo_eq_ok.1 hv
      obtain ⟨p3, h3, hv⟩ := thenDo_eq_ok.1 hv
      obtain rfl : _ = v := by simpa using hv
      exact ⟨by simp [instrSuccessors],
        (((memWrite_stored h1).trans (memWrite_stored h2)).trans (memWrite_stored h3)).phase _⟩
    · intro v c hv
      obtain ⟨p1, h1, hv⟩ := thenDo_eq_raised.1 hv
      obtain ⟨p2, h2, hv⟩ := thenDo_eq_raised.1 hv
      obtain ⟨p3, h3, hv⟩ := thenDo_eq_raised.1 hv
      cases hv
  case eTbl =>
    refine plain _ (by simp) (endE h ?_ ?_)
    · intro v hv
      obtain ⟨es, -, hv⟩ := thenDo_eq_ok.1 hv
      obtain ⟨w, hw, hv⟩ := thenDo_eq_ok.1 hv
      obtain rfl : _ = v := by simpa using hv
      exact ⟨by simp [instrSuccessors], (emitEntries_stored hw).phase _⟩
    · intro v c hv
      obtain ⟨es, -, hv⟩ := thenDo_eq_raised.1 hv
      obtain ⟨w, hw, hv⟩ := thenDo_eq_raised.1 hv
      cases hv
  case ePbc =>
    refine plain _ (by simp) (endE h ?_ ?_)
    · intro v hv
      obtain ⟨w, hw, hv⟩ := thenDo_eq_ok.1 hv
      obtain rfl : _ = v := by simpa using hv
      exact ⟨by simp [instrSuccessors], (emit_stored hw).phase _⟩
    · intro v c hv
      obtain ⟨w, hw, hv⟩ := thenDo_eq_raised.1 hv
      cases hv
  case ePack =>
    refine plain _ (by simp) (endE h ?_ ?_)
    · intro v hv
      obtain ⟨bs, -, hv⟩ := thenDo_eq_ok.1 hv
      obtain ⟨w, hw, hv⟩ := thenDo_eq_ok.1 hv
      obtain rfl : _ = v := by simpa using hv
      exact ⟨by simp [instrSuccessors], (packBytes_stored hw).phase _⟩
    · intro v c hv
      obtain ⟨bs, -, hv⟩ := thenDo_eq_raised.1 hv
      obtain ⟨w, hw, hv⟩ := thenDo_eq_raised.1 hv
      cases hv
  case eFlush =>
    refine plain _ (by simp) (endE h ?_ ?_)
    · intro v hv
      obtain ⟨w, hw, hv⟩ := thenDo_eq_ok.1 hv
      obtain rfl : _ = v := by simpa using hv
      exact ⟨by simp [instrSuccessors], (flushBits_stored hw).phase _⟩
    · intro v c hv
      obtain ⟨w, hw, hv⟩ := thenDo_eq_raised.1 hv
      cases hv
  case eFin => exact absurd rfl hf
  all_goals cases hu

/-- Everything a phase of unit D other than D_FIN can leave. -/
theorem phaseD_end {i : Instr} {s t : State} (hs : instrSuccessors i ≠ []) (hu : instrUnit i = .D)
    (hf : i ≠ .dFin) (h : exec i s = .next t) :
    PhaseEnd (instrSuccessors i) s.d.port t.d.port ∧ t = { s with d := t.d } := by
  have same : ∀ {v : UnitD} {c : Cause}, v.port = s.d.port → c ≠ .illegalCommand →
      v.port.phase = s.d.port.phase ∧ Stored s.d.port v.port ∧ c ≠ .illegalCommand := by
    intro v c h1 h2
    rw [h1]
    exact ⟨rfl, Stored.refl _, h2⟩
  cases i <;> try exact absurd rfl hs
  case dInit =>
    refine endD h ?_ ?_
    · intro v hv
      unfold phaseDInit at hv
      split_ifs at hv
      obtain rfl : _ = v := by simpa using hv
      exact ⟨by simp [instrSuccessors], (Stored.refl _).phase _⟩
    · intro v c hv
      unfold phaseDInit at hv
      split_ifs at hv
      obtain ⟨rfl, rfl⟩ : s.d = v ∧ _ = c := by simpa using hv
      exact same rfl (by simp)
  case dMagic =>
    refine endD h ?_ ?_
    · intro v hv
      unfold phaseDMagic at hv
      split_ifs at hv
      obtain ⟨bs, -, hv⟩ := thenDo_eq_ok.1 hv
      split_ifs at hv
      obtain rfl : _ = v := by simpa using hv
      exact ⟨by simp [instrSuccessors], (Stored.refl _).phase _⟩
    · intro v c hv
      unfold phaseDMagic at hv
      split_ifs at hv
      · obtain ⟨rfl, rfl⟩ : s.d = v ∧ _ = c := by simpa using hv
        exact same rfl (by simp)
      · obtain ⟨bs, -, hv⟩ := thenDo_eq_raised.1 hv
        split_ifs at hv
        obtain ⟨rfl, rfl⟩ : s.d = v ∧ _ = c := by simpa using hv
        exact same rfl (by simp)
  case dOlen =>
    refine endD h ?_ ?_
    · intro v hv
      unfold phaseDOlen at hv
      split_ifs at hv
      obtain ⟨bs, -, hv⟩ := thenDo_eq_ok.1 hv
      obtain rfl : _ = v := by simpa using hv
      exact ⟨by simp [instrSuccessors], (Stored.refl _).phase _⟩
    · intro v c hv
      unfold phaseDOlen at hv
      split_ifs at hv
      · obtain ⟨rfl, rfl⟩ : s.d = v ∧ _ = c := by simpa using hv
        exact same rfl (by simp)
      · obtain ⟨bs, -, hv⟩ := thenDo_eq_raised.1 hv
        cases hv
  case dScnt =>
    refine endD h ?_ ?_
    · intro v hv
      unfold phaseDScnt at hv
      split_ifs at hv
      obtain ⟨bs, -, hv⟩ := thenDo_eq_ok.1 hv
      simp only at hv
      split_ifs at hv
      obtain rfl : _ = v := by simpa using hv
      exact ⟨by simp [instrSuccessors], (Stored.refl _).phase _⟩
    · intro v c hv
      unfold phaseDScnt at hv
      split_ifs at hv
      · obtain ⟨rfl, rfl⟩ : s.d = v ∧ _ = c := by simpa using hv
        exact same rfl (by simp)
      · obtain ⟨bs, -, hv⟩ := thenDo_eq_raised.1 hv
        simp only at hv
        split_ifs at hv
        obtain ⟨rfl, rfl⟩ : _ = v ∧ _ = c := by simpa using hv
        exact same rfl (by simp)
  case dTbl =>
    refine endD h ?_ ?_
    · intro v hv
      unfold phaseDTbl at hv
      split_ifs at hv
      split at hv
      next w hw =>
        obtain rfl : _ = v := by simpa using hv
        refine ⟨by simp [instrSuccessors], ?_⟩
        simp only [gotoD_port]
        rw [tableLoop_frame (.inl hw)]
        exact (Stored.refl _).phase _
      next r hr => exact absurd hv (hr v)
    · intro v c hv
      unfold phaseDTbl at hv
      split_ifs at hv
      · obtain ⟨rfl, rfl⟩ : s.d = v ∧ _ = c := by simpa using hv
        exact same rfl (by simp)
      · split at hv
        · cases hv
        · refine same (by rw [tableLoop_frame (.inr ⟨c, hv⟩)]) ?_
          rcases tableLoop_cause hv with rfl | rfl <;> simp
  case dPbc =>
    refine endD h ?_ ?_
    · intro v hv
      unfold phaseDPbc at hv
      split_ifs at hv
      obtain ⟨bs, -, hv⟩ := thenDo_eq_ok.1 hv
      obtain rfl : _ = v := by simpa using hv
      exact ⟨by simp [instrSuccessors], (Stored.refl _).phase _⟩
    · intro v c hv
      unfold phaseDPbc at hv
      split_ifs at hv
      · obtain ⟨rfl, rfl⟩ : s.d = v ∧ _ = c := by simpa using hv
        exact same rfl (by simp)
      · obtain ⟨bs, -, hv⟩ := thenDo_eq_raised.1 hv
        cases hv
  case dSize =>
    refine endD h ?_ ?_
    · intro v hv
      unfold phaseDSize at hv
      split_ifs at hv <;> obtain rfl : _ = v := by simpa using hv
      all_goals exact ⟨by simp [instrSuccessors], (Stored.refl _).phase _⟩
    · intro v c hv
      unfold phaseDSize at hv
      split_ifs at hv <;> obtain ⟨rfl, rfl⟩ : s.d = v ∧ _ = c := by simpa using hv
      all_goals exact same rfl (by simp)
  case dCanon =>
    refine endD h ?_ ?_
    · intro v hv
      obtain ⟨es, -, hv⟩ := thenDo_eq_ok.1 hv
      unfold canonEndD at hv
      split at hv <;> try cases hv
      split_ifs at hv
      obtain rfl : _ = v := by simpa using hv
      exact ⟨by simp [instrSuccessors], (Stored.refl _).phase _⟩
    · intro v c hv
      obtain ⟨es, -, hv⟩ := thenDo_eq_raised.1 hv
      unfold canonEndD at hv
      split at hv
      · split_ifs at hv
        obtain ⟨rfl, rfl⟩ : _ = v ∧ _ = c := by simpa using hv
        exact same rfl (by simp)
      · obtain ⟨rfl, rfl⟩ : _ = v ∧ _ = c := by simpa using hv
        exact same rfl (by simp)
      · cases hv
  case dEmpty =>
    refine endD h ?_ ?_
    · intro v hv
      unfold phaseDEmpty at hv
      split_ifs at hv
      obtain rfl : _ = v := by simpa using hv
      exact ⟨by simp [instrSuccessors], (Stored.refl _).phase _⟩
    · intro v c hv
      unfold phaseDEmpty at hv
      split_ifs at hv
      obtain ⟨rfl, rfl⟩ : s.d = v ∧ _ = c := by simpa using hv
      exact same rfl (by simp)
  case dSingle =>
    refine endD h ?_ ?_
    · intro v hv
      obtain ⟨w, hw, hv⟩ := thenDo_eq_ok.1 hv
      obtain rfl : _ = v := by simpa using hv
      exact ⟨by simp [instrSuccessors], (singleLoop_frame hw).1.stored.phase _⟩
    · intro v c hv
      obtain ⟨w, hw, hv⟩ := thenDo_eq_raised.1 hv
      cases hv
  case dWalk =>
    refine endD h ?_ ?_
    · intro v hv
      unfold phaseDWalk at hv
      split at hv
      next w hw =>
        obtain rfl : _ = v := by simpa using hv
        exact ⟨by simp [instrSuccessors], (walkLoop_frame (.inl hw)).1.stored.phase _⟩
      next r hr => exact absurd hv (hr v)
    · intro v c hv
      unfold phaseDWalk at hv
      split at hv
      · cases hv
      · have F := (walkLoop_frame (.inr ⟨c, hv⟩)).1
        refine ⟨by rw [F.port], F.stored, ?_⟩
        rw [walkLoop_cause hv]
        simp
  case dFin => exact absurd rfl hf
  all_goals cases hu

/-- Everything a command, IDLE or a container can leave: nothing changed, or, on an idle unit, the acceptance,
the refused opcode's record, the record cleared, or the container in IBUF. -/
theorem command_end {i : Instr} {s t : State} (hs : instrSuccessors i = []) (h : exec i s = .next t) :
    t = s ∨ ((s.port (instrUnit i)).busy = false ∧ ∃ p, t = s.withPort (instrUnit i) p ∧
       (((i = .enc .E ∨ i = .dec .D) ∧ ∃ q, p = acceptCommand (s.port (instrUnit i)) q ∧ (i = .enc .E →
           q = phEInit) ∧ (i = .dec .D →
           q = phDInit)) ∨ p = recordRefused (s.port (instrUnit i)) ∨ p = clearResult (s.port (instrUnit i)) ∨
        ∃ c, i = .huf1Container c ∧ (encodeContainer c).length ≤ s.d.port.capIn.toNat ∧
            p = { s.d.port with ibuf := Memory.writeList s.d.port.ibuf 0 (encodeContainer c), inLen := BitVec.ofNat 64 (encodeContainer c).length })) := by
  cases i <;> try simp only [instrSuccessors, List.cons_ne_nil] at hs
  case nop u => left; have h : Host.Outcome.next s = .next t := h; simpa [eq_comm] using h
  case idle u => left; have h : Host.Outcome.next s = .next t := h; simpa [eq_comm] using h
  case enc u =>
    simp only [exec, execEnc] at h
    split_ifs at h with hb
    · left; simpa [eq_comm] using h
    · right
      cases u
      · obtain rfl : _ = t := by simpa using h
        exact ⟨by rw [Bool.not_eq_true] at hb; exact hb, _, rfl, .inl ⟨.inl rfl, _, rfl, fun _ => rfl,
            by simp⟩⟩
      · obtain rfl : _ = t := by simpa using h
        exact ⟨by rw [Bool.not_eq_true] at hb; exact hb, _, rfl, .inr (.inl rfl)⟩
  case dec u =>
    simp only [exec, execDec] at h
    split_ifs at h with hb
    · left; simpa [eq_comm] using h
    · right
      cases u
      · obtain rfl : _ = t := by simpa using h
        exact ⟨by rw [Bool.not_eq_true] at hb; exact hb, _, rfl, .inr (.inl rfl)⟩
      · obtain rfl : _ = t := by simpa using h
        exact ⟨by rw [Bool.not_eq_true] at hb; exact hb, _, rfl, .inl ⟨.inr rfl, _, rfl, by simp,
            fun _ => rfl⟩⟩
  case clr u =>
    simp only [exec, execClr] at h
    split_ifs at h with hb
    · left; simpa [eq_comm] using h
    · right
      obtain rfl : _ = t := by simpa using h
      exact ⟨by rw [Bool.not_eq_true] at hb; exact hb, _, rfl, .inr (.inr (.inl rfl))⟩
  case reservedCmd u op =>
    simp only [exec, execReservedCmd] at h
    split_ifs at h with hb
    · left; simpa [eq_comm] using h
    · right
      obtain rfl : _ = t := by simpa using h
      exact ⟨by rw [Bool.not_eq_true] at hb; exact hb, _, rfl, .inr (.inl rfl)⟩
  case huf1Container c =>
    simp only [exec, execHuf1Container, presentBytes] at h
    split_ifs at h with hb hl
    right
    obtain rfl : _ = t := by simpa using h
    exact ⟨by rw [Bool.not_eq_true] at hb; exact hb, _, rfl, .inr (.inr (.inr ⟨c, rfl, by simpa using hl,
        rfl⟩))⟩

/-- Everything that presenting bytes to unit D can leave: unit D idle with room, the bytes in IBUF, IN_LEN. -/
theorem presentBytes_eq_next {s t : State} {bs : List Byte} : presentBytes s bs = .next t ↔
    s.d.port.busy = false ∧ bs.length ≤ s.d.port.capIn.toNat ∧
      t = { s with d := { s.d with port := { s.d.port with
        ibuf := Memory.writeList s.d.port.ibuf 0 bs, inLen := BitVec.ofNat 64 bs.length } } } := by
  cases hb : s.d.port.busy with
  | true => simp [presentBytes, State.port, hb]
  | false =>
    by_cases hl : bs.length ≤ s.d.port.capIn.toNat
    · simp [presentBytes, State.port, hb, hl, State.withPort, State.withD, eq_comm]
    · simp [presentBytes, State.port, hb, hl]

/-- Everything E_FIN can leave. -/
theorem eFin_end {s t : State} (h : exec .eFin s = .next t) :
    t = { s with e := { s.e with port := complete s.e.port s.e.osize (noGainFlag s.e.osize s.e.port.inLen) } } := by
  have h : Host.Outcome.next (s.withE _) = .next t := h
  obtain rfl : _ = t := by simpa using h
  rfl

/-- Everything D_FIN can leave. -/
theorem dFin_end {s t : State} (h : exec .dFin s = .next t) :
    t = { s with d := { s.d with port := t.d.port } } ∧ ((s.d.bitpos = s.d.pbc ∧
    t.d.port = complete s.d.port s.d.origlen s.d.port.nogain) ∨ (s.d.bitpos ≠ s.d.pbc ∧
    t.d.port = errorExit s.d.port .bitCountMismatch)) := by
  rcases finishD_eq_next.1 h with ⟨u, hu, rfl⟩ | ⟨u, c, hu, rfl⟩
  · unfold phaseDFin at hu
    split_ifs at hu with hb
    obtain rfl : _ = u := by simpa using hu
    exact ⟨rfl, .inl ⟨by simpa using hb, rfl⟩⟩
  · unfold phaseDFin at hu
    split_ifs at hu with hb
    obtain ⟨rfl, rfl⟩ : _ = u ∧ _ = c := by simpa using hu
    exact ⟨rfl, .inr ⟨hb, rfl⟩⟩

end Sys2Proof.Machine
end

