-- ==== Sys2Proof/Laws/Tree.lean ====
section
/-! SUPPORT. The tree build and the code lengths: the leaves, the priority order, what E_MERGE's loop
leaves, what E_SORT writes (spec 41_tree_build.md, 42_code_generation.md R140). -/

namespace Sys2Proof.Machine

/-! The leaves (R122). -/

/-- What unit E is after E_LEAF's loop has done the symbols `done`. -/
structure Leafed (u₀ : UnitE) (done : List Byte) (u : UnitE) : Prop where
  inq : ∀ h, h ∈ members u.inq ↔ h ∈ members u₀.inq ∨ ∃ b ∈ done, symRead u₀.freq b ≠ 0#64 ∧
      symRead u₀.seq b = h
  node : ∀ h, (∀ b ∈ done, symRead u₀.freq b ≠ 0#64 → symRead u₀.seq b ≠ h) →
      nodeRead u.node h = nodeRead u₀.node h
  leaf : (∀ b c, symRead u₀.freq b ≠ 0#64 → symRead u₀.freq c ≠ 0#64 →
          symRead u₀.seq b = symRead u₀.seq c → b = c) → ∀ b ∈ done, symRead u₀.freq b ≠ 0#64 →
              nodeRead u.node (symRead u₀.seq b) = some (.leaf b (symRead u₀.freq b))
  frame : u = { u₀ with node := u.node, inq := u.inq }

/-- One symbol more. -/
theorem leafed_step {u₀ u : UnitE} {done b} (w : Leafed u₀ done u) (h : symRead u₀.freq b ≠ 0#64 →
    (symRead u₀.seq b).toNat < 511) :
   ∃ v, leafSymbol u b = .val v ∧ Leafed u₀ (done ++ [b]) v := by
  have e1 : u.freq = u₀.freq := by rw [w.frame]
  have e2 : u.seq = u₀.seq := by rw [w.frame]
  by_cases hf : symRead u₀.freq b = 0#64
  · refine ⟨u, by rw [leafSymbol, e1, if_pos hf], ?_, ?_, ?_, w.frame⟩
    · intro x; rw [w.inq]; constructor
      · rintro (h' | ⟨c, hc, h'⟩)
        · exact .inl h'
        · exact .inr ⟨c, by simp [hc], h'⟩
      · rintro (h' | ⟨c, hc, h'⟩)
        · exact .inl h'
        rcases List.mem_append.1 hc with hc | hc
        · exact .inr ⟨c, hc, h'⟩
        · obtain rfl : c = b := by simpa using hc
          exact absurd hf h'.1
    · intro x hx; exact w.node x (fun c hc => hx c (by simp [hc]))
    · intro hd c hc hcf
      rcases List.mem_append.1 hc with hc | hc
      · exact w.leaf hd c hc hcf
      · obtain rfl : c = b := by simpa using hc
        exact absurd hf hcf
  · refine ⟨{ u with node := u.node.setIfInBounds (symRead u₀.seq b).toNat (.leaf b (symRead u₀.freq b)), inq := u.inq.setIfInBounds (symRead u₀.seq b).toNat true }, by rw [leafSymbol, e1, if_neg hf, e2, putNode, if_pos (h hf), ← e1, ← e2], ?_, ?_, ?_, by rw [w.frame]⟩
    · intro x; simp only [mem_members_set, w.inq]; constructor
      · rintro (⟨rfl, -, -⟩ | ⟨hne, h' | ⟨c, hc, h'⟩⟩)
        · exact .inr ⟨b, by simp, hf, rfl⟩
        · exact .inl h'
        · exact .inr ⟨c, by simp [hc], h'⟩
      · intro hh
        by_cases hx : x = symRead u₀.seq b
        · exact .inl ⟨hx, trivial, h hf⟩
        · refine .inr ⟨hx, ?_⟩
          rcases hh with h' | ⟨c, hc, hcf, h'⟩
          · exact .inl h'
          · rcases List.mem_append.1 hc with hc | hc
            · exact .inr ⟨c, hc, hcf, h'⟩
            · obtain rfl : c = b := by simpa using hc
              exact absurd h'.symm hx
    · intro x hx
      simp only
      rw [nodeRead_set_other _ _ _ _ (Ne.symm (hx b (by simp) hf))]
      exact w.node x (fun c hc => hx c (by simp [hc]))
    · intro hd c hc hcf
      simp only
      by_cases hcb : c = b
      · subst hcb; exact nodeRead_set_same _ _ _ (h hf)
      · rw [nodeRead_set_other _ _ _ _ (fun e => hcb (hd _ _ hcf hf e))]
        rcases List.mem_append.1 hc with hc | hc
        · exact w.leaf hd c hc hcf
        · exact absurd (by simpa using hc) hcb

/-- The whole loop. -/
theorem leafLoop_spec {u₀ u : UnitE} {done bs} (w : Leafed u₀ done u) (h : ∀ b, symRead u₀.freq b ≠ 0#64 →
    (symRead u₀.seq b).toNat < 511) :
   ∃ v, leafLoop u bs = .val v ∧ Leafed u₀ (done ++ bs) v := by
  induction bs generalizing u done with
  | nil => exact ⟨u, rfl, by simpa using w⟩
  | cons b bs ih =>
    obtain ⟨v, hv, w'⟩ := leafed_step w (h b)
    obtain ⟨x, hx, w''⟩ := ih w'
    exact ⟨x, by rw [leafLoop, hv, andThen_val, hx], by simpa using w''⟩

/-! The priority order (R123). -/

/-- The order is lexicographic in (FREQ, handle). -/
theorem keyLess_iff {node a b} : keyLess node a b = true ↔
    freqAt node a < freqAt node b ∨ (freqAt node a = freqAt node b ∧ a.toNat < b.toNat) := by
  simp [keyLess]

theorem keyLess_trans {node a b c} (h1 : keyLess node a b = true) (h2 : keyLess node b c = true) :
    keyLess node a c = true := by
  rw [keyLess_iff] at *; omega

/-- Of two handles one comes first. -/
theorem keyLess_total {node} {a b : Handle} (h : a ≠ b) (h1 : ¬ keyLess node a b = true) :
    keyLess node b a = true := by
  rw [keyLess_iff] at *
  have : a.toNat ≠ b.toNat := fun e => h (BitVec.eq_of_toNat_eq e)
  omega

/-- The least of a collection is in it and before every other member. -/
theorem minHandle_spec (node) (best : Handle) (hs : List Handle) :
    minHandle node best hs ∈ best :: hs ∧ ∀ x ∈ best :: hs, x ≠ minHandle node best hs →
        keyLess node (minHandle node best hs) x = true := by
  induction hs generalizing best with
  | nil => simp [minHandle]
  | cons h hs ih =>
    rw [minHandle]
    by_cases hk : keyLess node h best = true
    · rw [if_pos hk]
      obtain ⟨i1, i2⟩ := ih h
      refine ⟨List.mem_cons_of_mem _ i1, ?_⟩
      intro x hx hne
      rcases List.mem_cons.1 hx with rfl | hx
      · by_cases hm : h = minHandle node h hs
        · rw [← hm]; exact hk
        · exact keyLess_trans (i2 h (by simp) hm) hk
      · exact i2 x hx hne
    · rw [if_neg hk]
      obtain ⟨i1, i2⟩ := ih best
      refine ⟨?_, ?_⟩
      · rcases List.mem_cons.1 i1 with h' | h'
        · rw [h']; simp
        · simp [h']
      · intro x hx hne
        rcases List.mem_cons.1 hx with rfl | hx
        · exact i2 x (by simp) hne
        · rcases List.mem_cons.1 hx with rfl | hx
          · by_cases hm : best = minHandle node best hs
            · by_cases hxb : x = best
              · rw [← hm]; exact absurd (hxb.trans hm) hne
              · rw [← hm]; exact keyLess_total hxb hk
            · have := i2 best (by simp) hm
              by_cases hxb : x = best
              · subst hxb; exact this
              · exact keyLess_trans this (keyLess_total hxb hk)
          · exact i2 x (by simp [hx]) hne

/-- The collection less one member. -/
theorem members_remove_perm {x : Vector Bool 511} {a : Handle} (_ : a ∈ members x) :
    (members (x.setIfInBounds a.toNat false)).Perm ((members x).erase a) := by
  rw [List.perm_ext_iff_of_nodup (members_nodup _) ((members_nodup _).erase a)]
  intro b
  rw [mem_members_set, (members_nodup x).mem_erase_iff]
  simp

/-- Every member is in the arena. -/
theorem members_lt {x : Vector Bool 511} {h} (hm : h ∈ members x) : h.toNat < 511 := by
  rw [mem_members] at hm
  by_contra hc
  rw [Vector.getElem?_eq_none (by omega)] at hm; cases hm

/-- Every handle below 511 has a node. -/
theorem nodeRead_lt {node : Vector Node 511} {h : Handle} (hh : h.toNat < 511) : ∃ n,
    nodeRead node h = some n := by
  unfold nodeRead; exact ⟨_, Vector.getElem?_eq_getElem hh⟩

/-- The two ways to say the order agree in the arena. -/
theorem keyBefore_iff {node} {a b : Handle} (ha : a.toNat < 511) (hb : b.toNat < 511) :
    keyBefore node a b ↔ keyLess node a b = true := by
  obtain ⟨na, ha⟩ := nodeRead_lt (node := node) ha
  obtain ⟨nb, hb⟩ := nodeRead_lt (node := node) hb
  rw [keyLess_iff, keyBefore]
  simp [ha, hb, freqAt]

/-! The merge loop (R124). -/

/-- What one iteration does. -/
theorem mergeStep_some {u : UnitE} (h2 : 2 ≤ (members u.inq).length) (hn : u.nnode.toNat < 511) :
   ∃ a b na nb, a ∈ members u.inq ∧ b ∈ members u.inq ∧ a ≠ b ∧ nodeRead u.node a = some na ∧
       nodeRead u.node b = some nb ∧
     keyLess u.node a b = true ∧ (∀ x ∈ members u.inq, x ≠ a → x ≠ b → keyLess u.node b x = true) ∧
     mergeStep u = some (.val { u with
        node := u.node.setIfInBounds u.nnode.toNat (.internal (nodeFreq na + nodeFreq nb) a b),
        inq := ((u.inq.setIfInBounds a.toNat false).setIfInBounds b.toNat false).setIfInBounds u.nnode.toNat true,
        nnode := u.nnode + 1#9 }) := by
  match hm : members u.inq with
  | [] => rw [hm] at h2; simp at h2
  | [_] => rw [hm] at h2; simp at h2
  | h :: h' :: hs =>
    obtain ⟨m1, m2⟩ := minHandle_spec u.node h (h' :: hs)
    set a := minHandle u.node h (h' :: hs) with ha
    rw [← hm] at m1 m2
    have hp := members_remove_perm m1
    have hlen : (members (u.inq.setIfInBounds a.toNat false)).length = (members u.inq).length - 1 := by
      rw [hp.length_eq, List.length_erase_of_mem m1]
    match hm' : members (u.inq.setIfInBounds a.toNat false) with
    | [] => rw [hm', hm] at hlen; simp at hlen
    | k :: ks =>
      obtain ⟨n1, n2⟩ := minHandle_spec u.node k ks
      set b := minHandle u.node k ks with hb
      rw [← hm'] at n1 n2
      obtain ⟨hba, hbm⟩ : b ≠ a ∧ b ∈ members u.inq := by
        have := mem_members_set.1 n1; simpa using this
      obtain ⟨na, hna⟩ := nodeRead_lt (node := u.node) (members_lt m1)
      obtain ⟨nb, hnb⟩ := nodeRead_lt (node := u.node) (members_lt hbm)
      refine ⟨a, b, na, nb, by rw [← hm]; exact m1, by rw [← hm]; exact hbm, Ne.symm hba, hna, hnb,
          m2 b hbm hba, ?_, ?_⟩
      · intro x hx hxa hxb
        rw [← hm] at hx
        exact n2 x (mem_members_set.2 (.inr ⟨hxa, hx⟩)) hxb
      · have hr :
          mergeStep u = some (mergeNodes { u with inq := (u.inq.setIfInBounds a.toNat false).setIfInBounds b.toNat false } a b) := by
          unfold mergeStep
          simp only [hm, removeMin, ← ha, hm', ← hb]
        rw [hr]
        simp [mergeNodes, hna, hnb, putNode, hn]

/-- The loop ends at one member. -/
theorem mergeStep_none {u : UnitE} (h2 : (members u.inq).length ≤ 1) : mergeStep u = none := by
  unfold mergeStep
  match hm : members u.inq with
  | [] => rfl
  | [_] => rfl
  | _ :: _ :: _ => rw [hm] at h2; simp at h2

/-- What is true of unit E at every turn of E_MERGE's loop, started at u₀ (R126, R128). -/
structure Merged (u₀ u : UnitE) : Prop where
  frame : u = { u₀ with node := u.node, inq := u.inq, nnode := u.nnode }
  low : u₀.nnode.toNat ≤ u.nnode.toNat
  count : u.nnode.toNat + (members u.inq).length = u₀.nnode.toNat + (members u₀.inq).length
  ne : members u.inq ≠ []
  inside : ∀ h ∈ members u.inq, h.toNat < u.nnode.toNat
  last : u₀.nnode.toNat < u.nnode.toNat → ∃ h ∈ members u.inq, h.toNat = u.nnode.toNat - 1
  sub : ∀ h ∈ members u.inq, h ∈ members u₀.inq ∨ u₀.nnode.toNat ≤ h.toNat
  old : ∀ h : Handle, h.toNat < u₀.nnode.toNat → nodeRead u.node h = nodeRead u₀.node h
  made : ∀ h : Handle, u₀.nnode.toNat ≤ h.toNat → h.toNat < u.nnode.toNat →
    ∃ f l r nl nr, nodeRead u.node h = some (.internal f l r) ∧ l ≠ r ∧ l.toNat < h.toNat ∧
        r.toNat < h.toNat ∧
      nodeRead u.node l = some nl ∧ nodeRead u.node r = some nr ∧ f = nodeFreq nl + nodeFreq nr ∧
      keyLess u.node l r = true ∧
      ∀ c : Handle, (c ∈ members u₀.inq ∨ (u₀.nnode.toNat ≤ c.toNat ∧ c.toNat < h.toNat)) → c ≠ l → c ≠ r →
        (∀ g : Handle, u₀.nnode.toNat ≤ g.toNat → g.toNat < h.toNat → ¬ isChild u.node c g) →
            keyLess u.node l c = true ∧ keyLess u.node r c = true
  free : ∀ c : Handle, (c ∈ members u₀.inq ∨ (u₀.nnode.toNat ≤ c.toNat ∧ c.toNat < u.nnode.toNat)) →
    (c ∈ members u.inq ↔ ∀ g : Handle, u₀.nnode.toNat ≤ g.toNat → g.toNat < u.nnode.toNat →
        ¬ isChild u.node c g)
  one : ∀ c g g' : Handle, u₀.nnode.toNat ≤ g.toNat → g.toNat < u.nnode.toNat → u₀.nnode.toNat ≤ g'.toNat →
      g'.toNat < u.nnode.toNat →
    isChild u.node c g → isChild u.node c g' → g = g'

/-- Every iteration keeps it. -/
theorem merged_step {u₀ u : UnitE} (r : mergeReady u₀) (w : Merged u₀ u) (h2 : 2 ≤ (members u.inq).length) :
   ∃ v, mergeStep u = some (.val v) ∧ Merged u₀ v ∧ (members v.inq).length + 1 = (members u.inq).length := by
  obtain ⟨r1, r2, r3⟩ := r
  have hn : u.nnode.toNat < 511 := by have := w.count; omega
  obtain ⟨a, b, na, nb, ma, mb, hab, hna, hnb, kab, kx, hs⟩ := mergeStep_some h2 hn
  refine ⟨_, hs, ?_⟩
  have la := w.inside a ma
  have lb := w.inside b mb
  have hnn : (u.nnode + 1#9).toNat = u.nnode.toNat + 1 := by simp; omega
  set X := (u.inq.setIfInBounds a.toNat false).setIfInBounds b.toNat false with hX
  set N := u.node.setIfInBounds u.nnode.toNat (.internal (nodeFreq na + nodeFreq nb) a b) with hN
  have hnu : u.nnode ∉ members u.inq := fun h => by have := w.inside _ h; omega
  have hmem : ∀ c, c ∈ members (X.setIfInBounds u.nnode.toNat true) ↔ c = u.nnode ∨ (c ≠ a ∧ c ≠ b ∧
      c ∈ members u.inq) := by
    intro c
    rw [mem_members_set, hX, mem_members_set, mem_members_set]
    by_cases hc : c = u.nnode
    · simp [hc, hn]
    · simp [hc]; tauto
  have hlen : (members (X.setIfInBounds u.nnode.toNat true)).length + 1 = (members u.inq).length := by
    have hp : (members (X.setIfInBounds u.nnode.toNat true)).Perm (u.nnode :: ((members u.inq).erase a).erase b) := by
      have hnd := ((members_nodup u.inq).erase a).erase b
      rw [List.perm_ext_iff_of_nodup (members_nodup _)
          (List.nodup_cons.2 ⟨fun h => hnu (List.mem_of_mem_erase (List.mem_of_mem_erase h)), hnd⟩)]
      intro c
      rw [hmem, List.mem_cons, ((members_nodup u.inq).erase a).mem_erase_iff,
          (members_nodup u.inq).mem_erase_iff]
      tauto
    rw [hp.length_eq, List.length_cons, List.length_erase_of_mem, List.length_erase_of_mem ma]
    · omega
    · rw [(members_nodup u.inq).mem_erase_iff]; exact ⟨Ne.symm hab, mb⟩
  have hrd : ∀ h : Handle, h ≠ u.nnode → nodeRead N h = nodeRead u.node h :=
      fun h hh => nodeRead_set_other _ _ _ _ hh
  have hrn : nodeRead N u.nnode = some (.internal (nodeFreq na + nodeFreq nb) a b) :=
      nodeRead_set_same _ _ _ hn
  have hfr : ∀ h : Handle, h.toNat < u.nnode.toNat → freqAt N h = freqAt u.node h := by
    intro h hh; unfold freqAt; rw [hrd]; rintro rfl; omega
  have hkl : ∀ x y : Handle, x.toNat < u.nnode.toNat → y.toNat < u.nnode.toNat → (keyLess N x y = true ↔
      keyLess u.node x y = true) := by
    intro x y hx hy; rw [keyLess_iff, keyLess_iff, hfr x hx, hfr y hy]
  have hch : ∀ c g : Handle, g.toNat < u.nnode.toNat → (isChild N c g ↔ isChild u.node c g) := by
    intro c g hg; unfold isChild; rw [hrd]; rintro rfl; omega
  have hchn : ∀ c : Handle, isChild N c u.nnode ↔ c = a ∨ c = b := by
    intro c; unfold isChild; rw [hrn]; simp
  have hpart : ∀ c : Handle, (c ∈ members u₀.inq ∨ (u₀.nnode.toNat ≤ c.toNat ∧ c.toNat < u.nnode.toNat)) →
      c.toNat < u.nnode.toNat := by
    rintro c (h | h)
    · have := r2 c h; have := w.low; omega
    · exact h.2
  have low := w.low
  refine ⟨⟨?_, ?_, ?_, ?_, ?_, ?_, ?_, ?_, ?_, ?_, ?_⟩, hlen⟩
  · rw [w.frame]
  · simp only [hnn]; omega
  · simp only [hnn]; have := w.count; omega
  · intro h
    have := (hmem u.nnode).2 (.inl rfl)
    simp only at h; rw [h] at this; simp at this
  · intro h hh
    simp only [hnn]
    rcases (hmem h).1 hh with rfl | ⟨-, -, h'⟩
    · omega
    · have := w.inside h h'; omega
  · intro _
    exact ⟨u.nnode, (hmem _).2 (.inl rfl), by simp only [hnn]; omega⟩
  · intro h hh
    rcases (hmem h).1 hh with rfl | ⟨-, -, h'⟩
    · exact .inr low
    · exact w.sub h h'
  · intro h hh
    simp only
    rw [hrd h (by rintro rfl; omega)]; exact w.old h hh
  · intro h h1 h3
    simp only [hnn] at h3
    by_cases hh : h = u.nnode
    · subst hh
      refine ⟨_, a, b, na, nb, hrn, hab, la, lb,
          by simp only; rw [hrd a (by rintro rfl; omega)]; exact hna,
          by simp only; rw [hrd b (by rintro rfl; omega)]; exact hnb, rfl, (hkl a b la lb).2 kab, ?_⟩
      intro c hc hca hcb hfree
      have hcl := hpart c hc
      have hcm : c ∈ members u.inq :=
          (w.free c hc).2 (fun g g1 g2 => by rw [← hch c g g2]; exact hfree g g1 g2)
      have k1 := kx c hcm hca hcb
      exact ⟨(hkl a c la hcl).2 (keyLess_trans kab k1), (hkl b c lb hcl).2 k1⟩
    · have hlt : h.toNat < u.nnode.toNat := by
        have : h.toNat ≠ u.nnode.toNat := fun e => hh (BitVec.eq_of_toNat_eq e)
        omega
      obtain ⟨f, l, rr, nl, nr, e1, e2, e3, e4, e5, e6, e7, e8, e9⟩ := w.made h h1 hlt
      refine ⟨f, l, rr, nl, nr, by simp only; rw [hrd h hh]; exact e1, e2, e3, e4,
          by simp only; rw [hrd l (by rintro rfl; omega)]; exact e5,
          by simp only; rw [hrd rr (by rintro rfl; omega)]; exact e6, e7, (hkl l rr (by omega)
          (by omega)).2 e8, ?_⟩
      intro c hc hcl hcr hfree
      have hcb : c.toNat < u.nnode.toNat :=
          hpart c (by rcases hc with h | h; exact .inl h; exact .inr ⟨h.1, by omega⟩)
      obtain ⟨x, y⟩ := e9 c hc hcl hcr (fun g g1 g2 => by rw [← hch c g (by omega)]; exact hfree g g1 g2)
      exact ⟨(hkl l c (by omega) hcb).2 x, (hkl rr c (by omega) hcb).2 y⟩
  · intro c hc
    simp only [hnn] at hc ⊢
    rw [hmem]
    by_cases hcn : c = u.nnode
    · subst hcn
      simp only [true_or, true_iff]
      intro g g1 g2 hgc
      by_cases hg : g = u.nnode
      · subst hg; rcases (hchn _).1 hgc with h | h
        · rw [h] at la; omega
        · rw [h] at lb; omega
      · have hglt : g.toNat < u.nnode.toNat := by
          have : g.toNat ≠ u.nnode.toNat := fun e => hg (BitVec.eq_of_toNat_eq e)
          omega
        rw [hch _ _ hglt] at hgc
        obtain ⟨f, l, rr, nl, nr, e1, e2, e3, e4, -⟩ := w.made g g1 hglt
        obtain ⟨f', l', r', e', h'⟩ := hgc
        rw [e1] at e'
        obtain ⟨rfl, rfl, rfl⟩ : f = f' ∧ l = l' ∧ rr = r' := by simpa using e'
        rcases h' with h | h <;> (have := congrArg BitVec.toNat h; omega)
    · have hc' : c ∈ members u₀.inq ∨ (u₀.nnode.toNat ≤ c.toNat ∧ c.toNat < u.nnode.toNat) := by
        rcases hc with h | h
        · exact .inl h
        · have : c.toNat ≠ u.nnode.toNat := fun e => hcn (BitVec.eq_of_toNat_eq e)
          exact .inr ⟨h.1, by omega⟩
      have F := w.free c hc'
      constructor
      · rintro (h | ⟨h1, h3, h4⟩)
        · exact absurd h hcn
        · intro g g1 g2 hgc
          by_cases hg : g = u.nnode
          · subst hg; rcases (hchn _).1 hgc with h | h
            · exact h1 h
            · exact h3 h
          · have hglt : g.toNat < u.nnode.toNat := by
              have : g.toNat ≠ u.nnode.toNat := fun e => hg (BitVec.eq_of_toNat_eq e)
              omega
            rw [hch _ _ hglt] at hgc
            exact F.1 h4 g g1 hglt hgc
      · intro H
        right
        have hnch := H u.nnode low (by omega)
        rw [hchn] at hnch
        push Not at hnch
        exact ⟨hnch.1, hnch.2, F.2 (fun g g1 g2 => by rw [← hch _ _ g2]; exact H g g1 (by omega))⟩
  · intro c g g' g1 g2 g1' g2' hg hg'
    simp only [hnn] at *
    have key : ∀ g : Handle, g.toNat < u.nnode.toNat + 1 → g = u.nnode ∨ g.toNat < u.nnode.toNat := by
      intro g hg
      by_cases h : g = u.nnode
      · exact .inl h
      · have : g.toNat ≠ u.nnode.toNat := fun e => h (BitVec.eq_of_toNat_eq e)
        exact .inr (by omega)
    have hin : ∀ x : Handle, x ∈ members u.inq → ∀ g : Handle, u₀.nnode.toNat ≤ g.toNat →
        g.toNat < u.nnode.toNat → ¬ isChild u.node x g := by
      intro x hx
      refine (w.free x ?_).1 hx
      rcases w.sub x hx with h | h
      · exact .inl h
      · exact .inr ⟨h, w.inside x hx⟩
    rcases key g g2 with rfl | hlt <;> rcases key g' g2' with rfl | hlt'
    · rfl
    · exfalso
      rw [hch _ _ hlt'] at hg'
      rcases (hchn _).1 hg with rfl | rfl
      · exact hin _ ma g' g1' hlt' hg'
      · exact hin _ mb g' g1' hlt' hg'
    · exfalso
      rw [hch _ _ hlt] at hg
      rcases (hchn _).1 hg' with rfl | rfl
      · exact hin _ ma g g1 hlt hg
      · exact hin _ mb g g1 hlt hg
    · exact w.one c g g' g1 hlt g1' hlt' ((hch _ _ hlt).1 hg) ((hch _ _ hlt').1 hg')

/-- It holds at the start. -/
theorem merged_refl {u : UnitE} (r : mergeReady u) : Merged u u := by
  obtain ⟨r1, r2, r3⟩ := r
  refine ⟨rfl, by omega, rfl, r1, r2, by omega, fun h hh => .inl hh, fun _ _ => rfl,
      fun h h1 h2 => by omega, ?_, fun c g g' h1 h2 => by omega⟩
  intro c hc
  have : c ∈ members u.inq := by
    rcases hc with h | h
    · exact h
    · omega
  simp only [this, true_iff]
  intro g h1 h2; omega

/-- The loop ends with one member. -/
theorem merged_loop {u₀ : UnitE} (r : mergeReady u₀) (n : Nat) {u : UnitE} (w : Merged u₀ u) (hn :
    (members u.inq).length ≤ n + 1) :
   ∃ v, mergeLoop n u = .val v ∧ Merged u₀ v ∧ (members v.inq).length = 1 := by
  have hpos : 0 < (members u.inq).length := List.length_pos_iff.2 w.ne
  induction n generalizing u with
  | zero => exact ⟨u, rfl, w, by omega⟩
  | succ n ih =>
    by_cases h2 : 2 ≤ (members u.inq).length
    · obtain ⟨v, hv, w', hl⟩ := merged_step r w h2
      obtain ⟨x, hx, rest⟩ := ih w' (by omega) (List.length_pos_iff.2 w'.ne)
      exact ⟨x, by rw [mergeLoop, hv]; exact hx, rest⟩
    · exact ⟨u, by rw [mergeLoop, mergeStep_none (by omega)], w, by omega⟩

/-! E_SORT (R140). -/

/-- What a run of writes to CCL leaves. -/
theorem cclWriteList_read (x : Vector Entry 256) (k : Nat) (es : List Entry) (h : k + es.length ≤ 256) :
   (∀ i e, es[i]? = some e → cclRead (cclWriteList x k es) (k + i) = some e) ∧ ∀ i,
       (i < k ∨ k + es.length ≤ i) → cclRead (cclWriteList x k es) i = cclRead x i := by
  induction es generalizing x k with
  | nil => simp [cclWriteList]
  | cons e es ih =>
    simp only [List.length_cons] at h
    obtain ⟨i1, i2⟩ := ih (cclWrite x k e) (k+1) (by omega)
    constructor
    · intro i y hy
      cases i with
      | zero =>
        obtain rfl : e = y := by simpa using hy
        rw [cclWriteList, i2 _ (by omega), cclRead_cclWrite]; simp; omega
      | succ i =>
        rw [cclWriteList, show k + (i+1) = k + 1 + i by omega]
        exact i1 i y (by simpa using hy)
    · intro i hi
      rw [List.length_cons] at hi
      rw [cclWriteList, i2 i (by omega), cclRead_cclWrite, if_neg (by omega)]

end Sys2Proof.Machine
end

