-- ==== Sys2Proof/Tests/Slice0.lean ====
section
/-! SUPPORT. Tests of the model, every expected result taken from spec/95_test_vectors.md or worked out from
the rule named, and a witness for the hypotheses of every obligation that has some. -/

namespace Sys2Proof.Tests

set_option Elab.async false

open Sys2Proof Sys2Proof.Machine

/-! Helpers. -/

/-- The reset machine with another unit E. -/
def onE (f : UnitE → UnitE) : State := { State.reset with e := f State.reset.e }

/-- The reset machine with another unit D. -/
def onD (f : UnitD → UnitD) : State := { State.reset with d := f State.reset.d }

/-- A memory that holds bs from index 0 on. -/
def mem (bs : List Byte) : Memory := Memory.writeList [] 0 bs

/-- A port whose input is bs. -/
def input (p : Port) (bs : List Byte) : Port :=
  { p with ibuf := mem bs, inLen := BitVec.ofNat 64 bs.length }

/-- Does the machine go on, and is the condition true of the state after? -/
def goesOn (r : Host.Outcome State Fault Refusal) (q : State → Bool) : Bool :=
  match r with
  | .next s => q s
  | .fault _ => false
  | .refused _ => false

theorem next_of_goesOn {r : Host.Outcome State Fault Refusal} {q : State → Bool} (h : goesOn r q = true) :
    ∃ t, r = .next t := by
  cases r with
  | next t => exact ⟨t, rfl⟩
  | fault f => cases h
  | refused r => cases h

/-- The container of vector T1, C of section 3 of spec/95_test_vectors.md. -/
def bytesT1 : List Byte :=
  [0x48#8, 0x55#8, 0x46#8, 0x31#8, 0#8, 0#8, 0#8, 0#8, 0#8, 0#8, 0#8, 0x0A#8, 0#8, 4#8,
   0x61#8, 1#8, 0x62#8, 2#8, 0x63#8, 3#8, 0x64#8, 3#8,
   0#8, 0#8, 0#8, 0#8, 0#8, 0#8, 0#8, 0x13#8, 0x0A#8, 0xB6#8, 0xE0#8]

/-- Its fields. -/
def containerT1 : Container :=
  ⟨10#64, [⟨0x61#8, 1#8⟩, ⟨0x62#8, 2#8⟩, ⟨0x63#8, 3#8⟩, ⟨0x64#8, 3#8⟩], 19#64, [0x0A#8, 0xB6#8, 0xE0#8]⟩

/-- The input of vector T5, "cab". -/
def cab : List Byte := [0x63#8, 0x61#8, 0x62#8]

/-! WellFormed refuses an ill-formed term, check by check. -/

/-- A reserved opcode is at least 4 (R96). -/
theorem test_wf_refuses_assigned_opcode : (Instr.reservedCmd .E 3#8).wf = false := by decide

/-- SymbolCount is at most 256 (R83). -/
theorem test_wf_refuses_count : Container.countOk ⟨0#64, List.replicate 257 ⟨0#8, 1#8⟩, 0#64, []⟩ = false := by
  decide +kernel

/-- A length is not 0 (R84). -/
theorem test_wf_refuses_zero_length : (Instr.huf1Container ⟨1#64, [⟨0x61#8, 0#8⟩], 0#64, []⟩).wf = false := by
  decide

/-- Entries are sorted (R84; vector X13). -/
theorem test_wf_refuses_order :
    (Instr.huf1Container ⟨1#64, [⟨0x64#8, 3#8⟩, ⟨0x63#8, 3#8⟩], 0#64, []⟩).wf = false := by decide

/-- No symbol repeats (R84; vector X14). -/
theorem test_wf_refuses_repeated_symbol :
    (Instr.huf1Container ⟨1#64, [⟨0x61#8, 1#8⟩, ⟨0x61#8, 2#8⟩], 0#64, []⟩).wf = false := by decide

/-- The payload has ceil8(PayloadBitCount) bytes (R87; vector X9). -/
theorem test_wf_refuses_payload : (Instr.huf1Container ⟨1#64, [⟨0x61#8, 1#8⟩], 1#64, [0#8, 0#8]⟩).wf = false := by
  decide

/-- The container of T1 is well-formed. -/
theorem test_wf_accepts_T1 : (Instr.huf1Container containerT1).wf = true := by decide

/-! Decoding, words written out from the tables of R96, R98 and from vector T1. -/

theorem test_decode_commands :
    decode (.cmd .E 0x0000000000000000#64) = .ok (.nop .E) ∧
    decode (.cmd .D 0xFFFFFFFFFFFFFF00#64) = .ok (.nop .D) ∧
    decode (.cmd .E 0x0000000000000001#64) = .ok (.enc .E) ∧
    decode (.cmd .D 0x0000000000000002#64) = .ok (.dec .D) ∧
    decode (.cmd .D 0x0000000000000003#64) = .ok (.clr .D) ∧
    decode (.cmd .E 0x0000000000000004#64) = .ok (.reservedCmd .E 0x04#8) ∧
    decode (.cmd .E 0x00000000000001FF#64) = .ok (.reservedCmd .E 0xFF#8) := by decide

theorem test_decode_phases_of_E :
    decode (.phase .E 0b00000#5) = .ok (.idle .E) ∧ decode (.phase .E 0b00001#5) = .ok .eInit ∧
    decode (.phase .E 0b00010#5) = .ok .eScan ∧ decode (.phase .E 0b00011#5) = .ok .eLeaf ∧
    decode (.phase .E 0b00100#5) = .ok .eMerge ∧ decode (.phase .E 0b00101#5) = .ok .eSingle ∧
    decode (.phase .E 0b00110#5) = .ok .eWalk ∧ decode (.phase .E 0b00111#5) = .ok .eSort ∧
    decode (.phase .E 0b01000#5) = .ok .eCanon ∧ decode (.phase .E 0b01001#5) = .ok .eSize ∧
    decode (.phase .E 0b01010#5) = .ok .eHdr ∧ decode (.phase .E 0b01011#5) = .ok .eTbl ∧
    decode (.phase .E 0b01100#5) = .ok .ePbc ∧ decode (.phase .E 0b01101#5) = .ok .ePack ∧
    decode (.phase .E 0b01110#5) = .ok .eFlush ∧ decode (.phase .E 0b01111#5) = .ok .eFin ∧
    decode (.phase .E 0b10000#5) = .error .unusedPhase := by decide

theorem test_decode_phases_of_D :
    decode (.phase .D 0b00000#5) = .ok (.idle .D) ∧ decode (.phase .D 0b10000#5) = .ok .dInit ∧
    decode (.phase .D 0b10001#5) = .ok .dMagic ∧ decode (.phase .D 0b10010#5) = .ok .dOlen ∧
    decode (.phase .D 0b10011#5) = .ok .dScnt ∧ decode (.phase .D 0b10100#5) = .ok .dTbl ∧
    decode (.phase .D 0b10101#5) = .ok .dPbc ∧ decode (.phase .D 0b10110#5) = .ok .dSize ∧
    decode (.phase .D 0b10111#5) = .ok .dCanon ∧ decode (.phase .D 0b11000#5) = .ok .dEmpty ∧
    decode (.phase .D 0b11001#5) = .ok .dSingle ∧ decode (.phase .D 0b11010#5) = .ok .dWalk ∧
    decode (.phase .D 0b11011#5) = .ok .dFin ∧
    decode (.phase .D 0b11100#5) = .error .unusedPhase ∧ decode (.phase .D 0b00001#5) = .error .unusedPhase := by
  decide

theorem test_decode_container_T1 : decode (.bytes bytesT1) = .ok (.huf1Container containerT1) := by decide

/-- Vectors X1, X5, X10, X12, X13, X14, X9 as bytes that are no container. -/
theorem test_decode_container_rejects :
    decode (.bytes (0x49#8 :: bytesT1.tail)) = .error .badMagic ∧
    decode (.bytes (bytesT1.take 13)) = .error .truncated ∧
    decode (.bytes ((bytesT1.set 12 1#8).set 13 1#8)) = .error .symbolCount ∧
    decode (.bytes (bytesT1.set 15 0#8)) = .error .zeroLength ∧
    decode (.bytes ((bytesT1.set 18 0x64#8).set 20 0x63#8)) = .error .tableOrder ∧
    decode (.bytes (bytesT1.set 16 0x61#8)) = .error .repeatedSymbol ∧
    decode (.bytes (bytesT1 ++ [0#8])) = .error .payloadLength := by decide

/-- The table's own numbering of the same words (log entry 8). -/
theorem test_decode_table_words :
    decodeTableWord 8 1 = some (.enc .E) ∧ decodeTableWord 8 2 = some (.dec .D) ∧
    decodeTableWord 5 0 = some (.idle .E) ∧ decodeTableWord 8 0x1A = some .dWalk ∧
    decodeTableWord 112 0x4855463100000000000000000000 = some (.huf1Container ⟨0#64, [], 0#64, []⟩) := by
  decide

/-- The prefix with SymbolCount 1 and 256, the most R91 allows, is completed to a container; 257 is none. -/
theorem test_decode_table_prefixes :
    decodeTableWord 112 0x4855463100000000000000030001 =
      some (.huf1Container ⟨3#64, [⟨0#8, 8#8⟩], 0#64, []⟩) ∧
    (decodeTableWord 112 0x4855463100000000000000030100).isSome = true ∧
    decodeTableWord 112 0x4855463100000000000000030101 = none := by decide +kernel

/-! One step each; the encoder on vector T5, the decoder on vector T1. -/

theorem test_enc_accepts :
    goesOn (exec (.enc .E) State.reset) (fun t => t.e.port.busy && t.e.port.phase == 0x01#5) = true := by
  decide +kernel

/-- R226 on unit D. -/
theorem test_enc_refused_by_D :
    goesOn (exec (.enc .D) State.reset) (fun t => errWord t.d.port == 0x0004#64 && statusWord t.d.port == 4#64) =
      true := by decide +kernel

theorem test_dec_accepts :
    goesOn (exec (.dec .D) State.reset) (fun t => t.d.port.busy && t.d.port.phase == 0x10#5) = true := by
  decide +kernel

/-- Program P3, lines 2 to 7. -/
theorem test_clr_clears_error :
    goesOn (exec (.clr .D) (onD fun u => { u with port := failedWith u.port 1#8 2#8 }))
      (fun t => statusWord t.d.port == 0#64 && errWord t.d.port == 0#64) = true := by decide +kernel

/-- Program P3, line 3: ERR reads 0x0201. -/
theorem test_status_and_err_words :
    statusWord (failedWith State.reset.d.port 1#8 2#8) = 6#64 ∧
    errWord (failedWith State.reset.d.port 1#8 2#8) = 0x0201#64 := by decide

theorem test_reserved_cmd_keeps_done :
    goesOn (exec (.reservedCmd .E 0x40#8) (onE fun u => { u with port := { u.port with done := true } }))
      (fun t => statusWord t.e.port == 6#64 && t.e.port.errCode == 4#8) = true := by decide +kernel

/-- MAX_IN = 16, IN_LEN = 17 gives (2,1). -/
theorem test_e_init_too_large :
    goesOn (exec .eInit (onE fun u => { u with port := { u.port with capIn := 16#64, inLen := 17#64 } }))
      (fun t => errWord t.e.port == 0x0102#64 && t.e.port.phase == 0#5) = true := by decide +kernel

/-- T5: SEQ c 0, a 1, b 2. -/
theorem test_e_scan_first_occurrence_order :
    goesOn (exec .eScan (onE fun u => { u with port := input u.port cab }))
      (fun t => symRead t.e.seq 0x63#8 == 0#9 && symRead t.e.seq 0x61#8 == 1#9 && symRead t.e.seq 0x62#8 == 2#9
        && t.e.nsym == 3#9 && symRead t.e.freq 0x62#8 == 1#64 && t.e.port.phase == 0x03#5) = true := by
  decide +kernel

/-- The counts of "cab" after E_SCAN. -/
def scanned (u : UnitE) : UnitE :=
  { u with
    freq := symWrite (symWrite (symWrite u.freq 0x63#8 1#64) 0x61#8 1#64) 0x62#8 1#64
    seq := symWrite (symWrite (symWrite u.seq 0x63#8 0#9) 0x61#8 1#9) 0x62#8 2#9
    nsym := 3#9 }

theorem test_e_leaf_by_sequence_number :
    goesOn (exec .eLeaf (onE scanned))
      (fun t => nodeRead t.e.node 0#9 == some (.leaf 0x63#8 1#64) && nodeRead t.e.node 2#9 == some (.leaf 0x62#8 1#64)
        && members t.e.inq == [0#9, 1#9, 2#9] && t.e.nnode == 3#9 && t.e.port.phase == 0x04#5) = true := by
  decide +kernel

/-- The leaves of "cab" after E_LEAF. -/
def leafed (u : UnitE) : UnitE :=
  { scanned u with
    node := ((u.node.setIfInBounds 0 (.leaf 0x63#8 1#64)).setIfInBounds 1 (.leaf 0x61#8 1#64)).setIfInBounds 2
      (.leaf 0x62#8 1#64)
    inq := ((u.inq.setIfInBounds 0 true).setIfInBounds 1 true).setIfInBounds 2 true
    nnode := 3#9 }

/-- T5: NODE[3] = I of 2, 0, 1; NODE[4] = I of 3, 2, 3; ROOT 4. -/
theorem test_e_merge_T5 :
    goesOn (exec .eMerge (onE leafed))
      (fun t => nodeRead t.e.node 3#9 == some (.internal 2#64 0#9 1#9)
        && nodeRead t.e.node 4#9 == some (.internal 3#64 2#9 3#9) && t.e.root == 4#9 && t.e.nnode == 5#9) = true := by
  decide +kernel

/-- The tree of "cab". -/
def merged (u : UnitE) : UnitE :=
  { leafed u with
    node := ((leafed u).node.setIfInBounds 3 (.internal 2#64 0#9 1#9)).setIfInBounds 4 (.internal 3#64 2#9 3#9)
    root := 4#9 }

/-- T3: the one-bit code. -/
theorem test_e_single :
    goesOn (exec .eSingle (onE fun u => { u with node := u.node.setIfInBounds 0 (.leaf 0x41#8 1#64) }))
      (fun t => symRead t.e.len 0x41#8 == 1#8 && symRead t.e.tpat 0x41#8 == [false] && t.e.root == 0#9) = true := by
  decide +kernel

/-- T5: LEN b 1, a 2, c 2; b is on the left. -/
theorem test_e_walk_T5 :
    goesOn (exec .eWalk (onE merged))
      (fun t => symRead t.e.len 0x62#8 == 1#8 && symRead t.e.len 0x61#8 == 2#8 && symRead t.e.len 0x63#8 == 2#8
        && symRead t.e.tpat 0x62#8 == [false] && symRead t.e.tpat 0x61#8 == [true, true]) = true := by decide +kernel

/-- The lengths of "cab". -/
def lengths (u : UnitE) : UnitE :=
  { scanned u with len := symWrite (symWrite (symWrite u.len 0x62#8 1#8) 0x61#8 2#8) 0x63#8 2#8 }

/-- T5: CCL (62,1) (61,2) (63,2). -/
theorem test_e_sort_T5 :
    goesOn (exec .eSort (onE lengths))
      (fun t => cclPrefix t.e.ccl 3 == some [⟨0x62#8, 1#8⟩, ⟨0x61#8, 2#8⟩, ⟨0x63#8, 2#8⟩]) = true := by decide +kernel

/-- The table of "cab". -/
def sorted (u : UnitE) : UnitE :=
  { lengths u with
    ccl := cclWrite (cclWrite (cclWrite u.ccl 0 ⟨0x62#8, 1#8⟩) 1 ⟨0x61#8, 2#8⟩) 2 ⟨0x63#8, 2#8⟩ }

/-- T5: CODE b "0", a "10", c "11"; final RUN 4. -/
theorem test_e_canon_T5 :
    goesOn (exec .eCanon (onE sorted))
      (fun t => symRead t.e.code 0x62#8 == 0#255 && symRead t.e.code 0x61#8 == 2#255
        && symRead t.e.code 0x63#8 == 3#255 && t.e.run == 4#256) = true := by decide +kernel

/-- T5: PBC 5, 29 bytes. -/
theorem test_e_size_T5 :
    goesOn (exec .eSize (onE lengths)) (fun t => t.e.pbc == 5#64 && t.e.osize == 29#64) = true := by decide +kernel

/-- MAX_OUT = 21, IN_LEN = 0 gives (2,2). -/
theorem test_e_size_empty_needs_22 :
    goesOn (exec .eSize (onE fun u => { u with port := { u.port with capOut := 21#64 } }))
      (fun t => errWord t.e.port == 0x0202#64) = true := by decide +kernel

/-- T5: the first 14 bytes. -/
theorem test_e_hdr_T5 :
    goesOn (exec .eHdr (onE fun u => { u with port := input u.port cab, nsym := 3#9 }))
      (fun t => t.e.port.obuf == mem [0x48#8, 0x55#8, 0x46#8, 0x31#8, 0#8, 0#8, 0#8, 0#8, 0#8, 0#8, 0#8, 3#8, 0#8, 3#8])
      = true := by decide +kernel

/-- T5: bytes 14 to 19. -/
theorem test_e_tbl_T5 :
    goesOn (exec .eTbl (onE fun u => { sorted u with wptr := 14#64 }))
      (fun t => t.e.port.obuf == Memory.writeList [] 14 [0x62#8, 1#8, 0x61#8, 2#8, 0x63#8, 2#8] && t.e.wptr == 20#64)
      = true := by decide +kernel

/-- T5: bytes 20 to 27. -/
theorem test_e_pbc_T5 :
    goesOn (exec .ePbc (onE fun u => { u with pbc := 5#64, wptr := 20#64 }))
      (fun t => t.e.port.obuf == Memory.writeList [] 20 [0#8, 0#8, 0#8, 0#8, 0#8, 0#8, 0#8, 5#8]) = true := by
  decide +kernel

/-- The code of "cab". -/
def coded (u : UnitE) : UnitE :=
  { lengths u with
    port := input u.port cab
    code := symWrite (symWrite u.code 0x61#8 2#255) 0x63#8 3#255
    wptr := 28#64 }

/-- T5: 11 10 0 in ACC. -/
theorem test_e_pack_T5 :
    goesOn (exec .ePack (onE coded))
      (fun t => t.e.acc == 0xE0#8 && t.e.nbits == 5#3 && t.e.bitcnt == 5#64 && t.e.wptr == 28#64) = true := by
  decide +kernel

/-- T5: the last byte. -/
theorem test_e_flush_T5 :
    goesOn (exec .eFlush (onE fun u => { u with acc := 0xE0#8, nbits := 5#3, wptr := 28#64 }))
      (fun t => Memory.read t.e.port.obuf 28 == some 0xE0#8 && t.e.wptr == 29#64) = true := by decide +kernel

/-- The NOGAIN boundary: N = 28 with 28 bytes is no gain, N = 29 is. -/
theorem test_e_fin_nogain_boundary :
    goesOn (exec .eFin (onE fun u => { u with osize := 28#64, port := { u.port with inLen := 28#64 } }))
      (fun t => t.e.port.nogain && t.e.port.outLen == 28#64) = true ∧
    goesOn (exec .eFin (onE fun u => { u with osize := 28#64, port := { u.port with inLen := 29#64 } }))
      (fun t => !t.e.port.nogain) = true := by decide +kernel

/-- Unit D with the container of T1 as its input. -/
def withT1 (u : UnitD) : UnitD := { u with port := input u.port bytesT1 }

/-- X28: MAX_IN = 32 gives (2,1). -/
theorem test_d_init_X28 :
    goesOn (exec .dInit (onD fun u => { u with port := { (withT1 u).port with capIn := 32#64 } }))
      (fun t => errWord t.d.port == 0x0102#64) = true := by decide +kernel

theorem test_d_magic_X0 : goesOn (exec .dMagic (onD withT1)) (fun t => t.d.rptr == 4#64) = true := by
  decide +kernel

/-- X2: "HUF2". -/
theorem test_d_magic_X2 :
    goesOn (exec .dMagic (onD fun u => { u with port := input u.port (bytesT1.set 3 0x32#8) }))
      (fun t => errWord t.d.port == 0x0201#64 && t.d.port.done) = true := by decide +kernel

theorem test_d_olen_X0 :
    goesOn (exec .dOlen (onD fun u => { withT1 u with rptr := 4#64 })) (fun t => t.d.origlen == 10#64) = true := by
  decide +kernel

/-- X10: SymbolCount 0x0101. -/
theorem test_d_scnt_X10 :
    goesOn (exec .dScnt (onD fun u =>
        { u with port := input u.port ((bytesT1.set 12 1#8).set 13 1#8), rptr := 12#64 }))
      (fun t => errWord t.d.port == 0x0003#64 && t.d.symcnt == 0x0101#16) = true := by decide +kernel

theorem test_d_tbl_X0 :
    goesOn (exec .dTbl (onD fun u => { withT1 u with rptr := 14#64, symcnt := 4#16 }))
      (fun t => symRead t.d.len 0x64#8 == 3#8 && t.d.rptr == 22#64 && t.d.paybase == 30#64) = true := by
  decide +kernel

/-- X14: a repeated symbol. -/
theorem test_d_tbl_X14 :
    goesOn (exec .dTbl (onD fun u =>
        { u with port := input u.port (bytesT1.set 16 0x61#8), rptr := 14#64, symcnt := 4#16 }))
      (fun t => errWord t.d.port == 0x0601#64) = true := by decide +kernel

theorem test_d_pbc_X0 :
    goesOn (exec .dPbc (onD fun u => { withT1 u with rptr := 22#64 }))
      (fun t => t.d.pbc == 19#64 && t.d.rptr == 30#64) = true := by decide +kernel

/-- X25: PBC 2^64 - 1 does not wrap. -/
theorem test_d_size_X25 :
    goesOn (exec .dSize (onD fun u => { withT1 u with rptr := 30#64, pbc := 0xFFFFFFFFFFFFFFFF#64 }))
      (fun t => errWord t.d.port == 0x0301#64) = true := by decide +kernel

theorem test_d_size_dispatches :
    goesOn (exec .dSize (onD fun u => { withT1 u with rptr := 30#64, pbc := 19#64, symcnt := 1#16 }))
      (fun t => t.d.port.phase == 0x19#5) = true := by decide +kernel

/-- Four entries in CCL, with the lengths given. -/
def table (u : UnitD) (a b c d : Byte) : UnitD :=
  { u with
    symcnt := 4#16
    ccl := cclWrite (cclWrite (cclWrite (cclWrite u.ccl 0 ⟨0x61#8, a⟩) 1 ⟨0x62#8, b⟩) 2 ⟨0x63#8, c⟩) 3 ⟨0x64#8, d⟩ }

/-- T1: CODE a 0, b 2, c 6, d 7; final RUN 8. -/
theorem test_d_canon_T1 :
    goesOn (exec .dCanon (onD fun u => table u 1#8 2#8 3#8 3#8))
      (fun t => symRead t.d.code 0x63#8 == 6#255 && symRead t.d.code 0x64#8 == 7#255 && t.d.run == 8#256
        && t.d.port.phase == 0x1A#5) = true := by decide +kernel

/-- X15 over-subscribed, X16 incomplete. -/
theorem test_d_canon_X15_X16 :
    goesOn (exec .dCanon (onD fun u => table u 1#8 1#8 3#8 3#8)) (fun t => errWord t.d.port == 0x0701#64) = true ∧
    goesOn (exec .dCanon (onD fun u => table u 1#8 2#8 4#8 4#8)) (fun t => errWord t.d.port == 0x0701#64) = true := by
  decide +kernel

/-- Z1: OriginalLength 1 with no symbol. -/
theorem test_d_empty_Z1 :
    goesOn (exec .dEmpty (onD fun u => { u with origlen := 1#64 })) (fun t => errWord t.d.port == 0x0301#64) =
      true := by decide +kernel

/-- Y2: the length of the one entry does not matter. -/
theorem test_d_single_Y2 :
    goesOn (exec .dSingle (onD fun u => { u with ccl := cclWrite u.ccl 0 ⟨0x61#8, 7#8⟩, origlen := 4#64, pbc := 4#64 }))
      (fun t => t.d.port.obuf == mem [0x61#8, 0x61#8, 0x61#8, 0x61#8] && t.d.bitpos == 4#64) = true := by
  decide +kernel

/-- Unit D before the walk on T1. -/
def walking (u : UnitD) : UnitD :=
  { withT1 u with
    origlen := 10#64, pbc := 19#64, paybase := 30#64
    len := symWrite (symWrite (symWrite (symWrite u.len 0x61#8 1#8) 0x62#8 2#8) 0x63#8 3#8) 0x64#8 3#8
    code := symWrite (symWrite (symWrite u.code 0x62#8 2#255) 0x63#8 6#255) 0x64#8 7#255 }

/-- X0. -/
theorem test_d_walk_X0 :
    goesOn (exec .dWalk (onD walking))
      (fun t => t.d.port.obuf ==
          mem [0x61#8, 0x61#8, 0x61#8, 0x61#8, 0x62#8, 0x62#8, 0x62#8, 0x63#8, 0x63#8, 0x64#8]
        && t.d.bitpos == 19#64 && t.d.curl == 0#8) = true := by decide +kernel

/-- X17: the bits run out inside the walk. -/
theorem test_d_walk_X17 :
    goesOn (exec .dWalk (onD fun u => { walking u with pbc := 18#64 }))
      (fun t => errWord t.d.port == 0x0401#64 && t.d.ocnt == 9#64) = true := by decide +kernel

/-- X18: one bit is left over. -/
theorem test_d_fin_X18 :
    goesOn (exec .dFin (onD fun u => { u with bitpos := 19#64, pbc := 20#64, origlen := 10#64 }))
      (fun t => errWord t.d.port == 0x0401#64 && t.d.port.outLen == 0#64) = true := by decide +kernel

/-- R101: the data part of DECODE. -/
theorem test_container_T1_is_placed :
    goesOn (exec (.huf1Container containerT1) State.reset)
      (fun t => t.d.port.ibuf == mem bytesT1 && t.d.port.inLen == 33#64) = true := by decide +kernel

/-- R101, R92: `DECODE` of vector X1 ("IUF1") places the bytes; unit D is to find out. -/
theorem test_step_places_a_malformed_container :
    goesOn (step { State.reset with script := [.container (0x49#8 :: bytesT1.tail)] })
      (fun t => t.d.port.ibuf == mem (0x49#8 :: bytesT1.tail) && t.d.port.inLen == 33#64 && t.script == []) =
      true := by decide +kernel

/-- The step that P1's line 2 is: a write to IN_LEN of an idle unit (R30). -/
theorem test_step_writes_in_len :
    goesOn (step { State.reset with script := [.wrReg .E 0x18 10#64] })
      (fun t => t.e.port.inLen == 10#64 && t.script == []) = true := by decide +kernel

/-- Does the machine refuse, with the reason given? -/
def refusesWith (r : Host.Outcome State Fault Refusal) (x : Refusal) : Bool :=
  match r with
  | .next _ => false
  | .fault _ => false
  | .refused y => y == x

/-- R61, R277: IBUF is the unit's while it is busy. -/
theorem test_step_refuses_ibuf_write_while_busy :
    refusesWith (step { onE (fun u => { u with port := { u.port with busy := true, phase := 1#5 } }) with
      script := [.wrIbuf .E 0 1#8], sched := [.host] }) .ibufWriteWhileBusy = true := by decide +kernel

/-! Witnesses: for every obligation with hypotheses, a concrete state and operands that meet them all; for one
with several clauses, each clause, at a boundary of its range. -/

/-- A busy unit E at phase p. -/
def busyE (p : BitVec 5) : State := onE fun u => { u with port := { u.port with busy := true, phase := p } }

/-- A busy unit D at phase p. -/
def busyD (p : BitVec 5) : State := onD fun u => { u with port := { u.port with busy := true, phase := p } }

/-- The reset machine with a host script. -/
def withScript (ls : List HostLine) : State := { State.reset with script := ls }

/-- DecodeEncodeRoundTrip. -/
theorem witness_round_trip : (Instr.reservedCmd .D 4#8).wf = true ∧ (Instr.reservedCmd .E 255#8).wf = true ∧
    (Instr.huf1Container containerT1).wf = true := by decide

/-- ContainerBytesAreCanonical. -/
theorem witness_container_bytes : decode (.bytes bytesT1) = .ok (.huf1Container containerT1) := by decide

/-- CommandOpcodeTable: each clause; bits above OP set. -/
theorem witness_command_opcodes : (0xFF00#64).toNat % 256 = 0 ∧ (0x101#64).toNat % 256 = 1 ∧
    (0x102#64).toNat % 256 = 2 ∧ (0x103#64).toNat % 256 = 3 ∧ 4 ≤ (0x104#64).toNat % 256 ∧
    4 ≤ (0xFFFF#64).toNat % 256 := by decide

/-- PhaseCodesNameOneOperation: codes taken and not taken, at the ends of the ranges. -/
theorem witness_phase_codes : unitPhase .E 0x0F#5 ∧ ¬ unitPhase .E 0x10#5 ∧ unitPhase .D 0x00#5 ∧
    ¬ unitPhase .D 0x0F#5 ∧ unitPhase .D 0x10#5 ∧ unitPhase .D 0x1B#5 ∧ ¬ unitPhase .D 0x1C#5 := by
  simp [unitPhase]

/-- StepRunsTheDecodedInstruction: a unit's turn, a command line, a container line. -/
theorem witness_step_runs :
    (Instr.eFin.wf = true ∧ nextAgent (busyE 0x0F#5) = .unit .E ∧
      decode (.phase .E ((busyE 0x0F#5).port .E).phase) = .ok .eFin) ∧
    ((Instr.enc .E).wf = true ∧ nextAgent (withScript [.wrReg .E 0x00 1#64]) = .host ∧
      (withScript [.wrReg .E 0x00 1#64]).script = .wrReg .E 0x00 1#64 :: [] ∧
      ((withScript [.wrReg .E 0x00 1#64]).port .E).busy = false ∧ decode (.cmd .E 1#64) = .ok (.enc .E)) ∧
    ((Instr.huf1Container containerT1).wf = true ∧ nextAgent (withScript [.container bytesT1]) = .host ∧
      (withScript [.container bytesT1]).script = .container bytesT1 :: [] ∧
      decode (.bytes bytesT1) = .ok (.huf1Container containerT1)) := by decide +kernel

/-- AcceptedCommandsClearAndStart, ClrClearsTheRecord, RefusedOpcodesRecordIllegalCommand: both units idle. -/
theorem witness_idle_units : State.reset.e.port.busy = false ∧ State.reset.d.port.busy = false ∧
    (State.reset.port .E).busy = false ∧ (State.reset.port .D).busy = false := by decide +kernel

/-- CommandsAreIgnoredWhileBusy, both clauses. -/
theorem witness_busy_unit :
    let s : State := { busyE 0x01#5 with sched := [.host], script := [.wrReg .E 0x00 1#64] }
    (s.port .E).busy = true ∧ nextAgent s = .host ∧ s.script = .wrReg .E 0x00 1#64 :: [] := by decide +kernel

/-- Both units with MAX_IN = 16 and IN_LEN n. -/
def withInLen (n : Word64) : State :=
  { onE (fun u => { u with port := { u.port with capIn := 16#64, inLen := n } }) with
    d := { State.reset.d with port := { State.reset.d.port with capIn := 16#64, inLen := n } } }

/-- EInitChecksAndClears and DInitChecksAndClears: one byte too many, and exactly MAX_IN. -/
theorem witness_init :
    (withInLen 17#64).e.port.capIn.toNat < (withInLen 17#64).e.port.inLen.toNat ∧
    (withInLen 16#64).e.port.inLen.toNat ≤ (withInLen 16#64).e.port.capIn.toNat ∧
    (withInLen 17#64).d.port.capIn.toNat < (withInLen 17#64).d.port.inLen.toNat ∧
    (withInLen 16#64).d.port.inLen.toNat ≤ (withInLen 16#64).d.port.capIn.toNat := by decide +kernel

/-- A placed input is an input. -/
theorem hasInput_input (p : Port) (bs : List Byte) (h : bs.length < 2 ^ 64) (hc : bs.length ≤ p.capIn.toNat) :
    hasInput (input p bs) bs :=
  ⟨by simpa [input] using Nat.mod_eq_of_lt h, hc, holdsBytes_writeList [] 0 bs⟩

/-- Unit E with the input bs. -/
def withInput (bs : List Byte) : State := onE fun u => { u with port := input u.port bs }

/-- EScanCountsTheInput: "cab", and the empty input. -/
theorem witness_e_scan :
    (hasInput (withInput cab).e.port cab ∧ cab.length < 2 ^ 56) ∧
    (hasInput (withInput []).e.port [] ∧ ([] : List Byte).length < 2 ^ 56) ∧
    (∀ b, symRead (withInput cab).e.freq b = 0#64) ∧ (withInput cab).e.nsym = 0#9 ∧
    (∀ b, symRead (withInput []).e.freq b = 0#64) ∧ (withInput []).e.nsym = 0#9 :=
  ⟨⟨hasInput_input State.reset.e.port cab (by decide) (by decide), by decide⟩,
    ⟨hasInput_input State.reset.e.port [] (by decide) (by decide), by decide⟩,
    fun b => symRead_replicate _ _, rfl, fun b => symRead_replicate _ _, rfl⟩

/-- ELeafMakesTheLeaves: its hypothesis and that of its clause on the leaves. -/
theorem witness_e_leaf :
    (∀ b, symRead (onE scanned).e.freq b ≠ 0#64 → (symRead (onE scanned).e.seq b).toNat < 511) ∧
    ∀ b c, symRead (onE scanned).e.freq b ≠ 0#64 → symRead (onE scanned).e.freq c ≠ 0#64 →
      symRead (onE scanned).e.seq b = symRead (onE scanned).e.seq c → b = c := by
  have hf : ∀ b, symRead (onE scanned).e.freq b ≠ 0#64 → b = 0x63#8 ∨ b = 0x61#8 ∨ b = 0x62#8 := by
    decide +kernel
  constructor
  · intro b hb
    rcases hf b hb with rfl | rfl | rfl <;> decide +kernel
  · intro b c hb hc
    rcases hf b hb with rfl | rfl | rfl <;> rcases hf c hc with rfl | rfl | rfl <;> decide +kernel

/-- EMergeBuildsTheTree: three leaves, and one. -/
theorem witness_e_merge : mergeReady (onE leafed).e ∧
    mergeReady (onE fun u => { u with nnode := 1#9, inq := u.inq.setIfInBounds 0 true }).e := by
  constructor <;> exact ⟨by decide +kernel, by decide +kernel, by decide +kernel⟩

/-- EMergeJoinsTheTwoLeast: the run of vector T5 creates NODE[3]. -/
theorem witness_e_merge_least : mergeReady (onE leafed).e ∧ ∃ t, exec .eMerge (onE leafed) = .next t ∧
    ∃ f l r, (onE leafed).e.nnode.toNat ≤ (3#9).toNat ∧ (3#9).toNat < t.e.nnode.toNat ∧
      nodeRead t.e.node 3#9 = some (.internal f l r) := by
  refine ⟨witness_e_merge.1, ?_⟩
  have h : goesOn (exec .eMerge (onE leafed)) (fun t => decide ((3#9).toNat < t.e.nnode.toNat) &&
      nodeRead t.e.node 3#9 == some (.internal 2#64 0#9 1#9)) = true := by decide +kernel
  cases ht : exec .eMerge (onE leafed) with
  | next t =>
    rw [ht] at h
    simp only [goesOn, Bool.and_eq_true, decide_eq_true_eq, beq_iff_eq] at h
    exact ⟨t, rfl, _, _, _, by decide +kernel, h.1, h.2⟩
  | fault f => rw [ht] at h; cases h
  | refused r => rw [ht] at h; cases h

/-- ESingleGivesTheOneBitCode. -/
theorem witness_e_single : nodeRead (onE leafed).e.node 0#9 = some (.leaf 0x63#8 1#64) := by decide +kernel

/-- EWalkRecordsDepthsAndPaths: the tree of "cab"; b has one leaf, z has none. -/
theorem witness_e_walk : TreeWithin (onE merged).e.node 255 (onE merged).e.root ∧
    (LeafAt (onE merged).e.node (onE merged).e.root [false] 0x62#8 ∧
      ∀ q, LeafAt (onE merged).e.node (onE merged).e.root q 0x62#8 → q = [false]) ∧
    ∀ q, ¬ LeafAt (onE merged).e.node (onE merged).e.root q 0x7A#8 := by
  have h0 : nodeRead (onE merged).e.node 0#9 = some (.leaf 0x63#8 1#64) := by decide +kernel
  have h1 : nodeRead (onE merged).e.node 1#9 = some (.leaf 0x61#8 1#64) := by decide +kernel
  have h2 : nodeRead (onE merged).e.node 2#9 = some (.leaf 0x62#8 1#64) := by decide +kernel
  have h3 : nodeRead (onE merged).e.node 3#9 = some (.internal 2#64 0#9 1#9) := by decide +kernel
  have h4 : nodeRead (onE merged).e.node (onE merged).e.root = some (.internal 3#64 2#9 3#9) := by decide +kernel
  generalize (onE merged).e.node = node at *
  generalize (onE merged).e.root = root at *
  have leafOnly : ∀ {h : Handle} {b c : Byte} {f : Word64} {q : List Bool},
      nodeRead node h = some (.leaf b f) → LeafAt node h q c → q = [] ∧ c = b := by
    intro h b c f q hn hl
    cases hl with
    | here hh => rw [hn] at hh; cases hh; exact ⟨rfl, rfl⟩
    | left hh _ => rw [hn] at hh; cases hh
    | right hh _ => rw [hn] at hh; cases hh
  have atRoot : ∀ {q : List Bool} {c : Byte}, LeafAt node root q c →
      (q = [false] ∧ c = 0x62#8) ∨ c = 0x63#8 ∨ c = 0x61#8 := by
    intro q c hl
    cases hl with
    | here hh => rw [h4] at hh; cases hh
    | left hh hl =>
      rw [h4] at hh
      cases hh
      obtain ⟨rfl, rfl⟩ := leafOnly h2 hl
      exact .inl ⟨rfl, rfl⟩
    | right hh hl =>
      rw [h4] at hh
      cases hh
      cases hl with
      | here hh => rw [h3] at hh; cases hh
      | left hh hl => rw [h3] at hh; cases hh; exact .inr (.inl (leafOnly h0 hl).2)
      | right hh hl => rw [h3] at hh; cases hh; exact .inr (.inr (leafOnly h1 hl).2)
  refine ⟨.internal h4 (.leaf h2) (.internal h3 (.leaf h0) (.leaf h1)), ⟨.left h4 (.here h2), ?_⟩, ?_⟩
  · intro q hl
    rcases atRoot hl with ⟨rfl, -⟩ | h | h
    · rfl
    · exact absurd h (by decide)
    · exact absurd h (by decide)
  · intro q hl
    rcases atRoot hl with ⟨-, h⟩ | h | h <;> exact absurd h (by decide)

/-- The table of "cab". -/
def tableCab : List Entry := [⟨0x62#8, 1#8⟩, ⟨0x61#8, 2#8⟩, ⟨0x63#8, 2#8⟩]

/-- A machine with both units at the table of "cab". -/
def bothSorted : State :=
  { onE sorted with
    d := { State.reset.d with symcnt := 3#16, ccl := (onE sorted).e.ccl } }

/-- ECanonAssignsTheCanonicalCodes. -/
theorem witness_e_canon : cclPrefix bothSorted.e.ccl bothSorted.e.nsym.toNat = some tableCab ∧
    lengthsAscend tableCab ∧ (tableCab.map Entry.sym).Nodup ∧ kraft tableCab ≤ 2 ^ 255 :=
  ⟨by decide +kernel, ⟨by decide, by decide⟩, by decide, by decide +kernel⟩

/-- CanonicalCodesArePrefixFree, BothUnitsAssignTheSameCodes: with witness_e_canon. -/
theorem witness_both_canon : cclPrefix bothSorted.d.ccl bothSorted.d.symcnt.toNat = some tableCab ∧
    (∃ t, exec .eCanon bothSorted = .next t) ∧ ∃ t, exec .dCanon bothSorted = .next t :=
  ⟨by decide +kernel, next_of_goesOn (q := fun _ => true) (by decide +kernel),
    next_of_goesOn (q := fun _ => true) (by decide +kernel)⟩

/-- ESizeComputesAndChecks: the empty container with MAX_OUT = 21 and 22. -/
theorem witness_e_size : 0 = (allSymbols.map (fun b =>
      (symRead State.reset.e.freq b).toNat * (symRead State.reset.e.len b).toNat)).sum ∧
    22 = 22 + 2 * State.reset.e.nsym.toNat + (0 + 7) / 8 ∧
    (21#64).toNat < 22 ∧ 22 ≤ (22#64).toNat := by decide +kernel

/-- EHdrWritesTheHeader, EPbcWritesTheBitCount, ETblWritesTheTable: exactly room enough. -/
theorem witness_e_stores :
    let s := onE fun u => { sorted u with port := { u.port with capOut := 14#64 }, wptr := 6#64 }
    let r := onE fun u => { sorted u with port := { u.port with capOut := 20#64 }, wptr := 14#64 }
    14 ≤ s.e.port.capOut.toNat ∧ s.e.wptr.toNat + 8 ≤ s.e.port.capOut.toNat ∧
    cclPrefix r.e.ccl r.e.nsym.toNat = some tableCab ∧
    r.e.wptr.toNat + 2 * tableCab.length ≤ r.e.port.capOut.toNat := by decide +kernel

/-- EPackPacksTheCodewords: vector T5 with room for the full bytes only. -/
theorem witness_e_pack :
    let s := onE fun u => { coded u with port := { input u.port cab with capOut := 28#64 } }
    hasInput s.e.port cab ∧ [true, true, true, false, false] = packedBits s.e cab ∧
    s.e.wptr.toNat + [true, true, true, false, false].length / 8 ≤ s.e.port.capOut.toNat :=
  ⟨hasInput_input (State.reset.e.port) cab (by decide) (by decide), by decide +kernel, by decide +kernel⟩

/-- EFlushWritesThePartialByte: no bit, and one bit with one byte of room. -/
theorem witness_e_flush :
    let s := onE fun u => { u with nbits := 1#3, wptr := 28#64, port := { u.port with capOut := 29#64 } }
    State.reset.e.nbits = 0#3 ∧ s.e.nbits ≠ 0#3 ∧ s.e.wptr.toNat < s.e.port.capOut.toNat := by decide +kernel

/-- Unit D with T1 as input, MAX_IN its length, at RPTR. -/
def atT1 (rptr : Word64) (u : UnitD) : UnitD :=
  { u with port := { (withT1 u).port with capIn := 33#64 }, rptr := rptr }

/-- A part of T1 is where it was placed. -/
theorem holdsBytes_T1 (a n : Nat) : holdsBytes (mem bytesT1) a ((bytesT1.drop a).take n) := by
  intro i b h
  have hi : i < n := by
    by_contra hn
    rw [List.getElem?_eq_none (by simp; omega)] at h
    cases h
  rw [List.getElem?_take_of_lt hi, List.getElem?_drop] at h
  have hr := holdsBytes_writeList [] 0 bytesT1 (a + i) b h
  rwa [Nat.zero_add] at hr

/-- DMagicChecksTheMarker: three bytes left, four bytes left, a good and a bad marker. -/
theorem witness_d_magic :
    let s := onD (atT1 29#64)
    let r := onD fun u => { u with port := input u.port [0x49#8, 0x55#8, 0x46#8, 0x31#8] }
    (onD (atT1 30#64)).d.port.inLen.toNat < (onD (atT1 30#64)).d.rptr.toNat + 4 ∧
    s.d.rptr.toNat + 4 ≤ s.d.port.inLen.toNat ∧ s.d.port.inLen.toNat ≤ s.d.port.capIn.toNat ∧
    holdsBytes s.d.port.ibuf 0 [0x48#8, 0x55#8, 0x46#8, 0x31#8] ∧
    r.d.rptr.toNat + 4 ≤ r.d.port.inLen.toNat ∧ r.d.port.inLen.toNat ≤ r.d.port.capIn.toNat ∧
    holdsBytes r.d.port.ibuf 0 [0x49#8, 0x55#8, 0x46#8, 0x31#8] :=
  ⟨by decide +kernel, by decide +kernel, by decide +kernel, holdsBytes_T1 0 4, by decide +kernel,
    by decide +kernel, holdsBytes_writeList [] 0 _⟩

/-- DOlenReadsTheLength: seven bytes left, eight bytes left. -/
theorem witness_d_olen :
    let s := onD (atT1 25#64)
    (onD (atT1 26#64)).d.port.inLen.toNat < (onD (atT1 26#64)).d.rptr.toNat + 8 ∧
    s.d.rptr.toNat + 8 ≤ s.d.port.inLen.toNat ∧ 12 ≤ s.d.port.inLen.toNat ∧
    s.d.port.inLen.toNat ≤ s.d.port.capIn.toNat ∧
    ∀ i, i < 8 → Memory.read s.d.port.ibuf (4 + i) =
      some (BitVec.ofNat 8 ((10#64 : Word64).toNat / 2 ^ (8 * (7 - i)))) := by decide +kernel

/-- DScntReadsTheCount: one byte left, two bytes left. -/
theorem witness_d_scnt :
    let s := onD (atT1 31#64)
    (onD (atT1 32#64)).d.port.inLen.toNat < (onD (atT1 32#64)).d.rptr.toNat + 2 ∧
    s.d.rptr.toNat + 2 ≤ s.d.port.inLen.toNat ∧ 14 ≤ s.d.port.inLen.toNat ∧
    s.d.port.inLen.toNat ≤ s.d.port.capIn.toNat ∧
    Memory.read s.d.port.ibuf 12 = some 0#8 ∧ Memory.read s.d.port.ibuf 13 = some 4#8 := by decide +kernel

/-- DTblTakesASortedTable: a table one byte too long, and the table of T1. -/
theorem witness_d_tbl :
    let s := onD fun u => { atT1 14#64 u with symcnt := 4#16 }
    let r := onD fun u => { atT1 14#64 u with symcnt := 10#16 }
    (r.d.port.inLen.toNat < r.d.rptr.toNat + 2 * r.d.symcnt.toNat ∧ 0 < r.d.symcnt.toNat) ∧
    s.d.rptr.toNat + 2 * s.d.symcnt.toNat ≤ s.d.port.inLen.toNat ∧
    s.d.port.inLen.toNat ≤ s.d.port.capIn.toNat ∧
    containerT1.table.length = s.d.symcnt.toNat ∧ containerT1.table.length ≤ 256 ∧
    holdsBytes s.d.port.ibuf s.d.rptr.toNat (tableBytes containerT1.table) ∧
    (∀ e ∈ containerT1.table, e.len ≠ 0#8) ∧ containerT1.table.Pairwise Entry.Before ∧
    (containerT1.table.map Entry.sym).Nodup ∧ ∀ b, symRead s.d.len b = 0#8 :=
  ⟨by decide +kernel, by decide +kernel, by decide +kernel, by decide +kernel, by decide,
    holdsBytes_T1 14 8, by decide, by decide, by decide, fun b => symRead_replicate _ _⟩

/-- T1 with one byte of its table replaced, at the table. -/
def badTable (i : Nat) (b : Byte) : State :=
  onD fun u => { u with port := input u.port (bytesT1.set i b), rptr := 14#64, symcnt := 4#16 }

/-- A memory holds bytes where each of its reads gives the byte. -/
theorem holdsBytes_of_all {m : Memory} {a : Nat} {bs : List Byte}
    (hb : ((List.range bs.length).all fun i => Memory.read m (a + i) == bs[i]?) = true) : holdsBytes m a bs := by
  intro i b hi
  have hlt : i < bs.length := by
    by_contra hn
    rw [List.getElem?_eq_none (by omega)] at hi
    cases hi
  have := List.all_eq_true.1 hb i (List.mem_range.2 hlt)
  rw [beq_iff_eq.1 this, hi]

/-- The premises of DTblReportsTheFirstBadEntry that its two clauses share. -/
def BadAfter (s : State) (good : List Entry) (e : Entry) (n : Nat) : Prop :=
  s.d.symcnt.toNat = good.length + 1 + n ∧ s.d.symcnt.toNat ≤ 256 ∧
  s.d.rptr.toNat + 2 * s.d.symcnt.toNat ≤ s.d.port.inLen.toNat ∧
  s.d.port.inLen.toNat ≤ s.d.port.capIn.toNat ∧
  holdsBytes s.d.port.ibuf s.d.rptr.toNat (tableBytes (good ++ [e])) ∧
  (∀ g ∈ good, g.len ≠ 0#8) ∧ good.Pairwise Entry.Before ∧ (good.map Entry.sym).Nodup ∧
  ∀ b, symRead s.d.len b = 0#8

/-- DTblReportsTheFirstBadEntry: vectors X12 (a length 0 first), X13 (out of order), X14 (a repeated symbol). -/
theorem witness_d_tbl_bad :
    (BadAfter (badTable 15 0#8) [] ⟨0x61#8, 0#8⟩ 3 ∧ (⟨0x61#8, 0#8⟩ : Entry).len = 0#8) ∧
    (BadAfter (badTable 20 0x62#8) [⟨0x61#8, 1#8⟩, ⟨0x62#8, 2#8⟩, ⟨0x63#8, 3#8⟩] ⟨0x62#8, 3#8⟩ 0 ∧
      ¬ Entry.Before ⟨0x63#8, 3#8⟩ ⟨0x62#8, 3#8⟩) ∧
    (BadAfter (badTable 16 0x61#8) [⟨0x61#8, 1#8⟩] ⟨0x61#8, 2#8⟩ 2 ∧
      0x61#8 ∈ [(⟨0x61#8, 1#8⟩ : Entry)].map Entry.sym) := by
  refine ⟨⟨?_, rfl⟩, ⟨?_, by decide⟩, ?_, by decide⟩ <;>
    exact ⟨by decide +kernel, by decide +kernel, by decide +kernel, by decide +kernel,
      holdsBytes_of_all (by decide +kernel), by decide, by decide, by decide, fun b => symRead_replicate _ _⟩

/-- DTblEstablishesASortedTable. -/
theorem witness_d_tbl_establishes :
    let s := onD fun u => { atT1 14#64 u with symcnt := 4#16 }
    (∀ b, symRead s.d.len b = 0#8) ∧ ∃ t, exec .dTbl s = .next t ∧ t.d.port.phase = 0x15#5 := by
  refine ⟨fun b => symRead_replicate _ _, ?_⟩
  have h : goesOn (exec .dTbl (onD fun u => { atT1 14#64 u with symcnt := 4#16 }))
      (fun t => t.d.port.phase == 0x15#5) = true := by decide +kernel
  cases ht : exec .dTbl (onD fun u => { atT1 14#64 u with symcnt := 4#16 }) with
  | next t => rw [ht] at h; exact ⟨t, rfl, beq_iff_eq.1 h⟩
  | fault f => rw [ht] at h; cases h
  | refused r => rw [ht] at h; cases h

/-- DPbcReadsTheBitCount: seven bytes left, and the field of T1. -/
theorem witness_d_pbc :
    let s := onD (atT1 22#64)
    (onD (atT1 26#64)).d.port.inLen.toNat < (onD (atT1 26#64)).d.rptr.toNat + 8 ∧
    s.d.rptr.toNat + 8 ≤ s.d.port.inLen.toNat ∧ s.d.port.inLen.toNat ≤ s.d.port.capIn.toNat ∧
    ∀ i, i < 8 → Memory.read s.d.port.ibuf (s.d.rptr.toNat + i) =
      some (BitVec.ofNat 8 ((19#64 : Word64).toNat / 2 ^ (8 * (7 - i)))) := by decide +kernel

/-- Unit D at D_SIZE with T1 as input and MAX_OUT = 10. -/
def atSize (p o : Word64) : State := onD fun u =>
  { u with
    port := { (withT1 u).port with capOut := 10#64 }, rptr := 30#64, pbc := p, origlen := o }

/-- DSizeChecksAndDispatches: 16 and 25 bits are two and four bytes, 17 and 24 the three of T1; ORIGLEN at and
above MAX_OUT. -/
theorem witness_d_size :
    (atSize 17#64 0#64).d.rptr.toNat ≤ (atSize 17#64 0#64).d.port.inLen.toNat ∧
    (atSize 16#64 0#64).d.port.inLen.toNat ≠
      (atSize 16#64 0#64).d.rptr.toNat + ((atSize 16#64 0#64).d.pbc.toNat + 7) / 8 ∧
    (atSize 25#64 0#64).d.port.inLen.toNat ≠
      (atSize 25#64 0#64).d.rptr.toNat + ((atSize 25#64 0#64).d.pbc.toNat + 7) / 8 ∧
    (atSize 17#64 0#64).d.port.inLen.toNat =
      (atSize 17#64 0#64).d.rptr.toNat + ((atSize 17#64 0#64).d.pbc.toNat + 7) / 8 ∧
    (atSize 24#64 0#64).d.port.inLen.toNat =
      (atSize 24#64 0#64).d.rptr.toNat + ((atSize 24#64 0#64).d.pbc.toNat + 7) / 8 ∧
    (atSize 19#64 11#64).d.port.capOut.toNat < (atSize 19#64 11#64).d.origlen.toNat ∧
    (atSize 19#64 10#64).d.origlen.toNat ≤ (atSize 19#64 10#64).d.port.capOut.toNat := by decide +kernel

/-- DCanonAcceptsExactlyCompleteCodes: a complete code, the smallest; an over-subscribed and an incomplete one. -/
theorem witness_d_canon :
    (cclPrefix bothSorted.d.ccl bothSorted.d.symcnt.toNat = some tableCab ∧ 2 ≤ tableCab.length ∧
      lengthsAscend tableCab ∧ kraft tableCab = 2 ^ 255 ∧ (tableCab.map Entry.sym).Nodup) ∧
    ∀ x ∈ [[⟨0x61#8, 1#8⟩, ⟨0x62#8, 1#8⟩, ⟨0x63#8, 3#8⟩, ⟨0x64#8, 3#8⟩],
        [⟨0x61#8, 1#8⟩, ⟨0x62#8, 2#8⟩, ⟨0x63#8, 4#8⟩, (⟨0x64#8, 4#8⟩ : Entry)]],
      lengthsAscend x ∧ kraft x ≠ 2 ^ 255 := by
  refine ⟨⟨by decide +kernel, by decide, ⟨by decide, by decide⟩, by decide +kernel, by decide⟩, ?_⟩
  unfold lengthsAscend
  decide +kernel

/-- DEmptyPromisesNothing and DFinCompletesTheCommand: each clause. -/
theorem witness_d_empty_fin : (1#64 : Word64) ≠ 0#64 ∧ State.reset.d.origlen = 0#64 ∧
    State.reset.d.bitpos = State.reset.d.pbc ∧
    (onD fun u => { u with bitpos := 19#64, pbc := 20#64 }).d.bitpos ≠
      (onD fun u => { u with bitpos := 19#64, pbc := 20#64 }).d.pbc := by decide +kernel

/-- DSingleRepeatsTheSymbol: OBUF is exactly full after it. -/
theorem witness_d_single :
    let s := onD fun u => { u with
      ccl := cclWrite u.ccl 0 ⟨0x61#8, 7#8⟩, origlen := 4#64, port := { u.port with capOut := 4#64 } }
    cclRead s.d.ccl 0 = some ⟨0x61#8, 7#8⟩ ∧ s.d.ocnt.toNat ≤ s.d.origlen.toNat ∧
    s.d.origlen.toNat ≤ s.d.port.capOut.toNat := by decide +kernel

/-- DWalkInvertsThePacking, its last clause: no bit left, one symbol missing. -/
theorem witness_d_walk_short :
    let s := onD fun u => { u with origlen := 1#64 }
    s.d.bitpos = s.d.pbc ∧ s.d.ocnt.toNat < s.d.origlen.toNat := by decide +kernel

/-- A code of two codewords, "0" of a and "1" of b, with a CODE left over at an unlisted symbol. -/
def twoCodes (u : UnitD) : UnitD :=
  { u with
    len := symWrite (symWrite u.len 0x61#8 1#8) 0x62#8 1#8
    code := symWrite (symWrite u.code 0x62#8 1#255) 0x7A#8 5#255
    origlen := 2#64, pbc := 2#64, paybase := 26#64
    port := { u.port with ibuf := Memory.write [] 26 0x40#8, inLen := 27#64, capOut := 2#64 } }

/-- DWalkInvertsThePacking, its first clause: "ab" as the bits 01. -/
theorem witness_d_walk :
    let s := onD twoCodes
    let out : List Byte := [0x61#8, 0x62#8]
    prefixCode s.d.code s.d.len ∧ (∀ b ∈ out, symRead s.d.len b ≠ 0#8) ∧
    [false, true] = out.flatMap (fun b => codewordOf s.d.code s.d.len b) ∧
    holdsBytes s.d.port.ibuf s.d.paybase.toNat [0x40#8] ∧
    s.d.paybase.toNat + [0x40#8].length ≤ s.d.port.inLen.toNat ∧
    s.d.port.inLen.toNat ≤ s.d.port.capIn.toNat ∧
    [false, true].length ≤ s.d.pbc.toNat ∧ s.d.pbc.toNat ≤ 8 * [0x40#8].length ∧
    (∀ k, k < [false, true].length → packedBit [0x40#8] k = [false, true].getD k false) ∧
    s.d.bitpos = 0#64 ∧ s.d.curv = 0#255 ∧ s.d.curl = 0#8 ∧
    s.d.ocnt.toNat + out.length = s.d.origlen.toNat ∧ s.d.origlen.toNat ≤ s.d.port.capOut.toNat := by
  refine ⟨⟨?_, by decide +kernel⟩, by decide +kernel, by decide +kernel, ?_, by decide +kernel,
    by decide +kernel, by decide +kernel, by decide +kernel, by decide +kernel, rfl, rfl, rfl,
    by decide +kernel, by decide +kernel⟩
  · have hf : ∀ b, symRead (onD twoCodes).d.len b ≠ 0#8 → b = 0x61#8 ∨ b = 0x62#8 := by decide +kernel
    intro a b ha hb
    rcases hf a ha with rfl | rfl <;> rcases hf b hb with rfl | rfl <;> decide +kernel
  · exact holdsBytes_writeList [] 26 [0x40#8]

/-- Unit D before the walk on a payload of one byte, with the code a "0", b "10", c "11". -/
def threeCodes (pbc : Word64) (pay : Byte) : State := onD fun u =>
  { u with
    len := symWrite (symWrite (symWrite u.len 0x61#8 1#8) 0x62#8 2#8) 0x63#8 2#8
    code := symWrite (symWrite u.code 0x62#8 2#255) 0x63#8 3#255
    origlen := 2#64, pbc := pbc, paybase := 28#64
    port := { u.port with ibuf := Memory.write [] 28 pay, inLen := 29#64, capOut := 2#64 } }

/-- DWalkInvertsThePacking, its second clause, with ORIGLEN 2: the bits 01 are a codeword and the beginning of
another, 0 is a codeword and nothing, 1 the beginning of one. -/
theorem witness_d_walk_runs_out :
    let s := threeCodes 2#64 0x40#8
    let r := threeCodes 1#64 0x00#8
    prefixCode s.d.code s.d.len ∧
    (symRead s.d.len 0x61#8 ≠ 0#8 ∧ symRead s.d.len 0x62#8 ≠ 0#8 ∧
      [true] <+: codewordOf s.d.code s.d.len 0x62#8 ∧ [true] ≠ codewordOf s.d.code s.d.len 0x62#8) ∧
    [false, true] = [0x61#8].flatMap (fun b => codewordOf s.d.code s.d.len b) ++ [true] ∧
    [false] = [0x61#8].flatMap (fun b => codewordOf r.d.code r.d.len b) ++ [] ∧
    holdsBytes s.d.port.ibuf s.d.paybase.toNat [0x40#8] ∧ holdsBytes r.d.port.ibuf r.d.paybase.toNat [0x00#8] ∧
    (s.d.paybase.toNat + 1 ≤ s.d.port.inLen.toNat ∧ s.d.port.inLen.toNat ≤ s.d.port.capIn.toNat ∧
      2 = s.d.pbc.toNat ∧ 1 = r.d.pbc.toNat ∧ s.d.pbc.toNat ≤ 8 * 1) ∧
    (∀ k, k < 2 → packedBit [0x40#8] k = [false, true].getD k false) ∧
    (∀ k, k < 1 → packedBit [0x00#8] k = [false].getD k false) ∧
    s.d.bitpos = 0#64 ∧ s.d.curv = 0#255 ∧ s.d.curl = 0#8 ∧
    s.d.ocnt.toNat + 1 < s.d.origlen.toNat ∧ s.d.origlen.toNat ≤ s.d.port.capOut.toNat := by
  refine ⟨⟨?_, by decide +kernel⟩, by decide +kernel, by decide +kernel, by decide +kernel,
    holdsBytes_writeList [] 28 [0x40#8], holdsBytes_writeList [] 28 [0x00#8], by decide +kernel,
    by decide +kernel, by decide +kernel, rfl, rfl, rfl, by decide +kernel, by decide +kernel⟩
  have hf : ∀ b, symRead (threeCodes 2#64 0x40#8).d.len b ≠ 0#8 → b = 0x61#8 ∨ b = 0x62#8 ∨ b = 0x63#8 := by
    decide +kernel
  intro a b ha hb
  rcases hf a ha with rfl | rfl | rfl <;> rcases hf b hb with rfl | rfl | rfl <;> decide +kernel

/-- ContainerIsPlacedInIbufOfD: idle with exactly room enough, idle with one byte too few, busy. -/
theorem witness_container : encode (.huf1Container containerT1) = .bytes bytesT1 ∧
    (busyD 0x10#5).d.port.busy = true ∧ State.reset.d.port.busy = false ∧
    (32#64).toNat < bytesT1.length ∧ bytesT1.length ≤ (33#64).toNat := by decide +kernel

/-- UnwrittenInputIsRefused: nothing is written after reset. -/
theorem witness_unwritten :
    let s := onE fun u => { u with port := { u.port with inLen := 1#64 } }
    let r := onD fun u => { u with port := { u.port with inLen := 14#64 }, symcnt := 7#16, pbc := 1#64, origlen := 1#64 }
    (s.e.port.inLen.toNat ≤ s.e.port.capIn.toNat ∧ 0 < s.e.port.inLen.toNat ∧
      Memory.read s.e.port.ibuf 0 = none) ∧
    r.d.port.inLen.toNat ≤ r.d.port.capIn.toNat ∧
    (∀ i ∈ [0, 3, 4, 11, 12, 13], Memory.read r.d.port.ibuf i = none) ∧
    8 ≤ remBytes r.d ∧ 14 ≤ r.d.port.inLen.toNat ∧ 2 * r.d.symcnt.toNat ≤ remBytes r.d ∧
    0 = r.d.paybase.toNat + r.d.bitpos.toNat / 8 ∧ r.d.bitpos ≠ r.d.pbc ∧ r.d.ocnt.toNat < r.d.origlen.toNat := by
  decide +kernel

/-- EncoderRegisterPhasesFrame: each phase goes on; E_MERGE with and without members. -/
theorem witness_e_register_frames :
    (∃ t, exec .eScan State.reset = .next t) ∧ (∃ t, exec .eLeaf State.reset = .next t) ∧
    ((∃ t, exec .eMerge (onE leafed) = .next t) ∧ members (onE leafed).e.inq ≠ []) ∧
    ((∃ t, exec .eMerge State.reset = .next t) ∧ members State.reset.e.inq = []) ∧
    (∃ t, exec .eWalk State.reset = .next t) ∧ (∃ t, exec .eSort State.reset = .next t) ∧
    ∃ t, exec .eCanon State.reset = .next t :=
  ⟨next_of_goesOn (q := fun _ => true) (by decide +kernel), next_of_goesOn (q := fun _ => true) (by decide +kernel),
    ⟨next_of_goesOn (q := fun _ => true) (by decide +kernel), by decide +kernel⟩,
    ⟨next_of_goesOn (q := fun _ => true) (by decide +kernel), by decide +kernel⟩,
    next_of_goesOn (q := fun _ => true) (by decide +kernel), next_of_goesOn (q := fun _ => true) (by decide +kernel),
    next_of_goesOn (q := fun _ => true) (by decide +kernel)⟩

/-- EncoderStoringPhasesFrame: each phase goes on. -/
theorem witness_e_storing_frames :
    (∃ t, exec .eHdr State.reset = .next t) ∧ (∃ t, exec .eTbl (onE sorted) = .next t) ∧
    (∃ t, exec .ePbc State.reset = .next t) ∧
    ((∃ t, exec .ePack (onE coded) = .next t) ∧ hasInput (onE coded).e.port cab) ∧
    ∃ t, exec .eFlush (onE fun u => { u with nbits := 1#3 }) = .next t :=
  ⟨next_of_goesOn (q := fun _ => true) (by decide +kernel), next_of_goesOn (q := fun _ => true) (by decide +kernel),
    next_of_goesOn (q := fun _ => true) (by decide +kernel),
    ⟨next_of_goesOn (q := fun _ => true) (by decide +kernel),
      hasInput_input State.reset.e.port cab (by decide) (by decide)⟩,
    next_of_goesOn (q := fun _ => true) (by decide +kernel)⟩

/-- DecoderLoopPhasesFrame: each phase goes on. -/
theorem witness_d_frames :
    (∃ t, exec .dTbl (onD fun u => { atT1 14#64 u with symcnt := 4#16 }) = .next t) ∧
    (∃ t, exec .dCanon bothSorted = .next t) ∧
    (∃ t, exec .dSingle (onD fun u => { u with origlen := 4#64 }) = .next t) ∧
    ∃ t, exec .dWalk (onD walking) = .next t :=
  ⟨next_of_goesOn (q := fun _ => true) (by decide +kernel), next_of_goesOn (q := fun _ => true) (by decide +kernel),
    next_of_goesOn (q := fun _ => true) (by decide +kernel), next_of_goesOn (q := fun _ => true) (by decide +kernel)⟩

/-- UnitsShareNothing, UnitsNeverWriteTheirInput, PhasesKeepTheHostRegisters,
PhasesFollowTheTransitionTables: a phase of each unit, going on and failing. -/
theorem witness_phases :
    (∃ t, exec .eScan (onE fun u => { u with port := input u.port cab }) = .next t) ∧
    (∃ t, exec .dMagic State.reset = .next t) ∧
    (instrUnit .eScan = .E ∧ instrUnit .dMagic = .D) ∧
    (∀ c, Instr.eScan ≠ .huf1Container c) ∧ instrSuccessors .eScan ≠ [] ∧ instrSuccessors .dMagic ≠ [] ∧
    Instr.eScan ≠ .eFin ∧ Instr.eScan ≠ .dFin :=
  ⟨next_of_goesOn (q := fun _ => true) (by decide +kernel), next_of_goesOn (q := fun _ => true) (by decide +kernel),
    ⟨rfl, rfl⟩, nofun, by decide, by decide, by decide, by decide⟩

/-- UnitsShareNothing, its second part: two machines with one unit E and different units D, and the reverse. -/
theorem witness_units_apart :
    (instrUnit .eScan = .E ∧ State.reset.e = (busyD 0x10#5).e ∧ State.reset.d ≠ (busyD 0x10#5).d ∧
      State.reset.free = (busyD 0x10#5).free) ∧
    (instrUnit .dMagic = .D ∧ State.reset.d = (busyE 0x01#5).d ∧ State.reset.e ≠ (busyE 0x01#5).e ∧
      State.reset.free = (busyE 0x01#5).free) := by
  have h : (false = true) → False := by decide
  refine ⟨⟨rfl, rfl, fun e => h ?_, rfl⟩, rfl, rfl, fun e => h ?_, rfl⟩
  · exact congrArg (fun u : UnitD => u.port.busy) e
  · exact congrArg (fun u : UnitE => u.port.busy) e

/-- The invariant of an idle unit, of a unit at phase p. -/
theorem portInv_of_reset (k : UnitKind) (a b : Word64) (ha : 1 ≤ a.toNat ∧ a.toNat < 2 ^ 56) (hb : 1 ≤ b.toNat)
    (p : BitVec 5) (hp : unitPhase k p) (hi : p ≠ 0#5) :
    PortInv k (Port.reset a b) ∧ PortInv k { Port.reset a b with busy := true, phase := p } := by
  constructor
  · constructor <;> first | exact ha | exact hb | simp [Port.reset, errorPairs]
    cases k <;> simp [unitPhase]
  · constructor <;> first | exact ha | exact hb | exact hp | simp [Port.reset, errorPairs]
    exact hi

/-- The invariant holds with unit E and with unit D at work. -/
theorem inv_busy :
    Inv (busyE 0x01#5) ∧ Inv (busyD 0x10#5) := by
  have ha : 1 ≤ Config.resetMaxIn.toNat ∧ Config.resetMaxIn.toNat < 2 ^ 56 := by decide
  have hb : 1 ≤ Config.resetMaxOut.toNat := by decide
  have he := portInv_of_reset .E _ _ ha hb 0x01#5 (by simp [unitPhase]) (by decide)
  have hd := portInv_of_reset .D _ _ ha hb 0x10#5 (by simp [unitPhase]) (by decide)
  exact ⟨⟨he.2, hd.1⟩, ⟨he.1, hd.2⟩⟩

/-- EveryStepKeepsTheInvariant, from a busy unit E. -/
theorem witness_every_step : Inv (busyE 0x01#5) ∧ ∃ t, step (busyE 0x01#5) = .next t :=
  ⟨inv_busy.1, next_of_goesOn (q := fun _ => true) (by decide +kernel)⟩

/-- BusyUnitsComeToRest: both clauses. -/
theorem witness_rest :
    (Inv (busyE 0x01#5) ∧ (busyE 0x01#5).sched = [] ∧ (busyE 0x01#5).e.port.busy = true) ∧
    (Inv (busyD 0x10#5) ∧ (busyD 0x10#5).sched = [] ∧ (busyD 0x10#5).e.port.busy = false ∧
      (busyD 0x10#5).d.port.busy = true) :=
  ⟨⟨inv_busy.1, by decide +kernel⟩, ⟨inv_busy.2, by decide +kernel⟩⟩

/-- RegAccessesReachOnlyInLen: a read and each clause on writes. -/
theorem witness_reg_accesses :
    nextAgent (withScript [.rdReg .E 0x38]) = .host ∧
    (withScript [.rdReg .E 0x38]).script = .rdReg .E 0x38 :: [] ∧
    nextAgent (withScript [.wrReg .E 0x18 1#64]) = .host ∧
    (withScript [.wrReg .E 0x18 1#64]).script = .wrReg .E 0x18 1#64 :: [] ∧
    ((withScript [.wrReg .E 0x18 1#64]).port .E).busy = false ∧ ((busyE 0x01#5).port .E).busy = true ∧
    nextAgent { busyE 0x01#5 with sched := [.host], script := [.wrReg .E 0x18 1#64] } = .host ∧
    0x38 ∈ [0x08, 0x10, 0x20, 0x28, 0x30, 0x38] ∧
    0x40 ∉ [0x00, 0x08, 0x10, 0x18, 0x20, 0x28, 0x30, 0x38] ∧
    0x1C ∉ [0x00, 0x08, 0x10, 0x18, 0x20, 0x28, 0x30, 0x38] := by decide +kernel

/-- IbufWritesReachOneByte: busy; idle at MAX_IN and just below it. -/
theorem witness_ibuf_writes :
    nextAgent (withScript [.wrIbuf .E 65535 1#8]) = .host ∧
    (withScript [.wrIbuf .E 65535 1#8]).script = .wrIbuf .E 65535 1#8 :: [] ∧
    ((withScript []).port .E).busy = false ∧ ((withScript []).port .E).capIn.toNat ≤ 65536 ∧
    65535 < ((withScript []).port .E).capIn.toNat ∧
    (({ busyE 0x01#5 with sched := [.host], script := [.wrIbuf .E 0 1#8] } : State).port .E).busy = true := by
  decide +kernel

/-- ResultBytesAreReadBack: the last byte of a result of one byte. -/
theorem witness_result_bytes :
    let s : State := { onE (fun u => { u with port := { u.port with
        done := true, outLen := 1#64, obuf := mem [0x48#8] } }) with script := [.rdObuf .E 0] }
    nextAgent s = .host ∧ s.script = .rdObuf .E 0 :: [] ∧ (s.port .E).busy = false ∧ (s.port .E).done = true ∧
    0 < (s.port .E).outLen.toNat ∧ 0 < (s.port .E).capOut.toNat ∧
    Memory.read (s.port .E).obuf 0 = some 0x48#8 := by decide +kernel

/-- ResetReturnsAUnitToIdle: a busy unit. -/
theorem witness_reset :
    let s : State := { busyE 0x06#5 with sched := [.host], script := [.reset .E] }
    nextAgent s = .host ∧ s.script = .reset .E :: [] := by decide +kernel

end Sys2Proof.Tests
end

section
/-! PROOFS. What one step can be: an instruction, a host access or nothing, on the units as they stand
(spec 00_scope.md R15, 46_commands_sequencer.md R227, R235). -/

namespace Sys2Proof.Machine

/-- A host line is run as an instruction that is no phase operation, or as the access it is. -/
theorem fetchLine_cases (l : HostLine) (s : State) :
    (∃ i, fetchLine l s = .instr i s ∧ instrSuccessors i = []) ∨ fetchLine l s = .access l s := by
  cases l with
  | wrReg u off v =>
    simp only [fetchLine]
    split_ifs
    · exact .inl ⟨_, rfl, (decodeCmd_unit u v).2⟩
    · exact .inr rfl
  | container bs =>
    simp only [fetchLine]
    cases decodeContainer bs with
    | ok c => exact .inl ⟨.huf1Container c, rfl, rfl⟩
    | error e => exact .inr rfl
  | _ => exact .inr rfl

/-- Schedule and script are no part of a unit. -/
@[simp] theorem port_setTurn (s : State) (turns : List Agent) (lines : List HostLine) (u : UnitKind) :
    ({ s with sched := turns, script := lines } : State).port u = s.port u := by cases u <;> rfl

/-- On the host's turn the script's first line is taken and fetched. -/
theorem fetch_hostLine {s : State} {l : HostLine} {rest : List HostLine} (ha : nextAgent s = .host)
    (hl : s.script = l :: rest) : fetch s = fetchLine l { s with sched := s.sched.tail, script := rest } := by
  simp only [fetch, ha, hl]
  rfl

/-- On the host's turn, a line that is an access is that access, on the machine without the line. -/
theorem step_hostAccess {s : State} {l : HostLine} {rest : List HostLine} (ha : nextAgent s = .host)
    (hl : s.script = l :: rest) (hf : ∀ s' : State, s'.e = s.e → s'.d = s.d → fetchLine l s' = .access l s') :
    step s = hostAccess l { s with sched := s.sched.tail, script := rest } := by
  rw [step, fetch_hostLine ha hl, hf { s with sched := s.sched.tail, script := rest } rfl rfl]

/-- Everything one step can be when it answers a next state. A phase operation runs only from a PHASE other
than IDLE (R227). -/
theorem step_cases {s t : State} (h : step s = .next t) :
    ∃ s' : State, s'.e = s.e ∧ s'.d = s.d ∧
      ((∃ i, exec i s' = .next t ∧ (instrSuccessors i ≠ [] → (s.port (instrUnit i)).phase ≠ 0#5)) ∨
        (∃ l, hostAccess l s' = .next t) ∨ t = s') := by
  unfold step fetch at h
  cases ha : nextAgent s with
  | unit u =>
    simp only [ha] at h
    cases hd : decodePhase u (s.port u).phase with
    | error e => simp [hd] at h
    | ok i =>
      obtain ⟨hu, hphase, -, -⟩ := decodePhase_unit hd
      simp only [hd] at h
      exact ⟨takeTurn s, rfl, rfl, .inl ⟨i, h, fun hs => hu ▸ hphase hs⟩⟩
  | host =>
    simp only [ha] at h
    cases hl : s.script with
    | nil =>
      simp only [hl] at h
      exact ⟨takeTurn s, rfl, rfl, .inr (.inr (by simpa [eq_comm] using h))⟩
    | cons l rest =>
      simp only [hl] at h
      refine ⟨{ takeTurn s with script := rest }, rfl, rfl, ?_⟩
      rcases fetchLine_cases l { takeTurn s with script := rest } with ⟨i, hi, hs⟩ | hacc
      · rw [hi] at h
        exact .inl ⟨i, h, fun hs' => absurd hs hs'⟩
      · rw [hacc] at h
        exact .inr (.inl ⟨l, h⟩)

end Sys2Proof.Machine
end

section
/-! PROOFS. The invariant of a port under each shared operation: what a phase, a command, the error exit, the
completion, a host access and a reset write (spec 10_state.md R28, R34, 60_exceptions.md R241, R250). -/

namespace Sys2Proof.Machine

/-! Facts about the tables. -/

/-- Every cause records a pair of R241. -/
theorem causePair_mem (c : Cause) : (causeCode c, causeSub c) ∈ errorPairs := by cases c <;> decide

/-- No cause records the code of "none". -/
theorem causeCode_ne_zero (c : Cause) : causeCode c ≠ 0#8 := by cases c <;> decide

/-- "None" is a pair of R241. -/
theorem noErrorPair_mem : (0#8, 0#8) ∈ errorPairs := by decide

/-- IDLE is a code of both units. -/
theorem unitPhase_idle (k : UnitKind) : unitPhase k phIdle := by cases k <;> simp [unitPhase]

/-- Every successor but those of E_FIN and D_FIN is a code of the instruction's unit other than IDLE. -/
theorem successor_legal {i : Instr} (hE : i ≠ .eFin) (hD : i ≠ .dFin) {q : BitVec 5}
    (h : q ∈ instrSuccessors i) : unitPhase (instrUnit i) q ∧ q ≠ 0#5 := by
  revert q
  cases i <;> simp_all [instrSuccessors, unitPhase, instrUnit]

/-! The operations of a unit. -/

/-- A unit whose PHASE is not IDLE is busy. -/
theorem PortInv.busy_of_phase {k : UnitKind} {p : Port} (h : PortInv k p) (hp : p.phase ≠ 0#5) :
    p.busy = true := by
  cases hb : p.busy with
  | true => rfl
  | false => exact absurd (h.idleIff.2 hb) hp

/-- OBUF stored to and PHASE kept. -/
theorem PortInv.after_stored {k : UnitKind} {p q : Port} (h : PortInv k p) (e : Stored p q)
    (hp : unitPhase k q.phase) (hi : q.phase = 0#5 ↔ q.busy = false) : PortInv k q := by
  obtain ⟨hq, hform, hbound⟩ := e
  rw [hq] at hi ⊢
  exact { h with obufForm := hform h.obufForm, obufBound := hbound h.obufBound, phaseLegal := hp, idleIff := hi }

/-- The error exit. -/
theorem PortInv.after_errorExit {k : UnitKind} {p : Port} (h : PortInv k p) (c : Cause) :
    PortInv k (errorExit p c) :=
  { h with
    phaseLegal := unitPhase_idle k
    idleIff := iff_of_true rfl rfl
    busyClear := nofun
    errHasCode := fun _ => causeCode_ne_zero c
    noErrNoCode := nofun
    failedCommand := fun _ _ => ⟨rfl, rfl, rfl⟩
    errPair := causePair_mem c
    nogainDone := nofun
    nogainOnE := fun _ => rfl }

/-- The successful completion of a running command. -/
theorem PortInv.after_complete {k : UnitKind} {p : Port} (h : PortInv k p) (hb : p.busy = true) (n : Word64)
    {g : Bool} (hg : k = .D → g = false) : PortInv k (complete p n g) := by
  obtain ⟨-, herr, -, -, -⟩ := h.busyClear hb
  exact { h with
    phaseLegal := unitPhase_idle k
    idleIff := iff_of_true rfl rfl
    busyClear := nofun
    failedCommand := fun he => absurd he (by simp [complete, herr])
    nogainDone := fun _ => rfl
    nogainOnE := hg }

/-- A phase that goes on to a code of its unit, or takes the error exit. -/
theorem PortInv.after_phaseEnd {k : UnitKind} {p q : Port} {succ : List (BitVec 5)} (h : PortInv k p)
    (hb : p.busy = true) (e : PhaseEnd succ p q) (hs : ∀ x ∈ succ, unitPhase k x ∧ x ≠ 0#5) : PortInv k q := by
  cases e with
  | goes hx e =>
    obtain ⟨hlegal, hne⟩ := hs _ hx
    exact h.after_stored e hlegal (iff_of_false hne (by rw [e.port]; simp [hb]))
  | fails c p' _ hph e hq =>
    rw [hq]
    have hbusy : p'.busy = p.busy := by rw [e.port]
    exact (h.after_stored e (hph ▸ h.phaseLegal) (by rw [hph, hbusy]; exact h.idleIff)).after_errorExit c

/-! The commands. -/

/-- The record cleared, on an idle unit. -/
theorem PortInv.after_clearResult {k : UnitKind} {p : Port} (h : PortInv k p) (hb : p.busy = false) :
    PortInv k (clearResult p) :=
  { h with
    busyClear := fun hb' => absurd (hb.symm.trans hb') nofun
    errHasCode := nofun
    noErrNoCode := fun _ => ⟨rfl, rfl⟩
    failedCommand := nofun
    errPair := noErrorPair_mem
    nogainDone := nofun
    nogainOnE := fun _ => rfl }

/-- ENC or DEC accepted. -/
theorem PortInv.after_acceptCommand {k : UnitKind} {p : Port} (h : PortInv k p) {q : BitVec 5}
    (hq : unitPhase k q) (hne : q ≠ 0#5) : PortInv k (acceptCommand p q) :=
  { h with
    phaseLegal := hq
    idleIff := iff_of_false hne nofun
    busyClear := fun _ => ⟨rfl, rfl, rfl, rfl, rfl⟩
    errHasCode := nofun
    noErrNoCode := fun _ => ⟨rfl, rfl⟩
    failedCommand := nofun
    errPair := noErrorPair_mem
    nogainDone := nofun
    nogainOnE := fun _ => rfl }

/-- A refused opcode recorded, on an idle unit. -/
theorem PortInv.after_recordRefused {k : UnitKind} {p : Port} (h : PortInv k p) (hb : p.busy = false) :
    PortInv k (recordRefused p) :=
  { h with
    busyClear := fun hb' => absurd (hb.symm.trans hb') nofun
    errHasCode := fun _ => causeCode_ne_zero .illegalCommand
    noErrNoCode := nofun
    failedCommand := fun _ hc => absurd rfl hc
    errPair := causePair_mem .illegalCommand }

/-! The host. -/

/-- IN_LEN written. -/
theorem PortInv.after_setInLen {k : UnitKind} {p : Port} (h : PortInv k p) (n : Word64) :
    PortInv k { p with inLen := n } := { h with }

/-- IBUF written within MAX_IN. -/
theorem PortInv.after_writeIbuf {k : UnitKind} {p : Port} (h : PortInv k p) {a : Nat} {bs : List Byte}
    (hb : a + bs.length ≤ p.capIn.toNat) :
    PortInv k { p with ibuf := Memory.writeList p.ibuf a bs } :=
  { h with ibufForm := wf_writeList h.ibufForm a bs, ibufBound := bound_writeList h.ibufBound hb }

/-- Bytes presented within MAX_IN: IBUF and IN_LEN written. -/
theorem PortInv.after_presentBytes {k : UnitKind} {p : Port} (h : PortInv k p) {bs : List Byte}
    (hb : bs.length ≤ p.capIn.toNat) :
    PortInv k { p with ibuf := Memory.writeList p.ibuf 0 bs, inLen := BitVec.ofNat 64 bs.length } :=
  (h.after_writeIbuf (a := 0) (by rwa [Nat.zero_add])).after_setInLen _

/-- Right after reset, with capacities in the range of R8. -/
theorem portInv_reset (k : UnitKind) {a b : Word64} (ha : 1 ≤ a.toNat ∧ a.toNat < 2 ^ 56) (hb : 1 ≤ b.toNat) :
    PortInv k (Port.reset a b) where
  ibufForm := List.Pairwise.nil
  obufForm := List.Pairwise.nil
  ibufBound := nofun
  obufBound := nofun
  capInRange := ha
  capOutRange := hb
  phaseLegal := unitPhase_idle k
  idleIff := iff_of_true rfl rfl
  busyClear := nofun
  errHasCode := nofun
  noErrNoCode := fun _ => ⟨rfl, rfl⟩
  failedCommand := nofun
  errPair := noErrorPair_mem
  nogainDone := nofun
  nogainOnE := fun _ => rfl

end Sys2Proof.Machine
end

section
/-! PROOFS. The invariant of the machine: it holds after reset, and every instruction and every host access
keeps it. -/

namespace Sys2Proof.Machine

/-- The invariant, unit by unit. -/
theorem inv_iff {s : State} : Inv s ↔ ∀ k, PortInv k (s.port k) :=
  ⟨fun h k => by cases k; exacts [h.1, h.2], fun h => ⟨h .E, h .D⟩⟩

/-- The invariant speaks of the two units only. -/
theorem Inv.of_units {s t : State} (h : Inv s) (he : t.e = s.e) (hd : t.d = s.d) : Inv t := by
  unfold Inv
  rw [he, hd]
  exact h

/-- A unit's port replaced by one that meets the invariant. -/
theorem Inv.withPort {s : State} (h : Inv s) {k : UnitKind} {p : Port} (hp : PortInv k p) :
    Inv (s.withPort k p) := by
  cases k
  · exact ⟨hp, h.2⟩
  · exact ⟨h.1, hp⟩

/-! Instructions. -/

/-- A phase operation of unit E keeps the invariant. -/
theorem Inv.after_phaseE {i : Instr} {s t : State} (h : Inv s) (hs : instrSuccessors i ≠ []) (hu : instrUnit i = .E)
    (hb : s.e.port.busy = true) (hx : exec i s = .next t) : Inv t := by
  by_cases hf : i = .eFin
  · subst hf
    rw [eFin_end hx]
    exact ⟨h.1.after_complete hb _ nofun, h.2⟩
  · obtain ⟨hend, ht⟩ := phaseE_end hs hu hf hx
    have hD : i ≠ .dFin := by rintro rfl; cases hu
    rw [ht]
    exact ⟨h.1.after_phaseEnd hb hend fun q hq => hu ▸ successor_legal hf hD hq, h.2⟩

/-- A phase operation of unit D keeps the invariant. -/
theorem Inv.after_phaseD {i : Instr} {s t : State} (h : Inv s) (hs : instrSuccessors i ≠ []) (hu : instrUnit i = .D)
    (hb : s.d.port.busy = true) (hx : exec i s = .next t) : Inv t := by
  by_cases hf : i = .dFin
  · subst hf
    obtain ⟨ht, ⟨-, hp⟩ | ⟨-, hp⟩⟩ := dFin_end hx <;> rw [ht, hp]
    · exact ⟨h.1, h.2.after_complete hb _ h.2.nogainOnE⟩
    · exact ⟨h.1, h.2.after_errorExit _⟩
  · obtain ⟨hend, ht⟩ := phaseD_end hs hu hf hx
    have hE : i ≠ .eFin := by rintro rfl; cases hu
    rw [ht]
    exact ⟨h.1, h.2.after_phaseEnd hb hend fun q hq => hu ▸ successor_legal hE hf hq⟩

/-- A command, IDLE or a container keeps the invariant. -/
theorem Inv.after_command {i : Instr} {s t : State} (h : Inv s) (hs : instrSuccessors i = [])
    (hx : exec i s = .next t) : Inv t := by
  rcases command_end hs hx with rfl | ⟨hb, p, rfl, hp⟩
  · exact h
  have hport := inv_iff.1 h (instrUnit i)
  apply h.withPort
  rcases hp with ⟨rfl | rfl, q, rfl, hE, hD⟩ | rfl | rfl | ⟨c, rfl, hlen, rfl⟩
  · obtain rfl := hE rfl
    exact hport.after_acceptCommand (by simp [unitPhase, instrUnit]) (by decide)
  · obtain rfl := hD rfl
    exact hport.after_acceptCommand (by simp [unitPhase, instrUnit]) (by decide)
  · exact hport.after_recordRefused hb
  · exact hport.after_clearResult hb
  · exact h.2.after_presentBytes hlen

/-- Every instruction keeps the invariant, a phase operation where PHASE is not IDLE. -/
theorem Inv.after_exec {i : Instr} {s t : State} (h : Inv s)
    (hp : instrSuccessors i ≠ [] → (s.port (instrUnit i)).phase ≠ 0#5) (hx : exec i s = .next t) : Inv t := by
  by_cases hs : instrSuccessors i = []
  · exact h.after_command hs hx
  have hb := (inv_iff.1 h (instrUnit i)).busy_of_phase (hp hs)
  cases hu : instrUnit i with
  | E => exact h.after_phaseE hs hu (by simpa [hu] using hb) hx
  | D => exact h.after_phaseD hs hu (by simpa [hu] using hb) hx

/-! Host accesses. -/

/-- Everything a REG write can leave: the port as it was, or, on an idle unit, IN_LEN written. -/
theorem writeReg_eq_some {p q : Port} {off : Nat} {v : Word64} (h : writeReg p off v = some q) :
    q = p ∨ (off = 0x18 ∧ p.busy = false ∧ q = { p with inLen := v }) := by
  unfold writeReg at h
  split_ifs at h with h18 hb hro
  · exact .inl (by simpa [eq_comm] using h)
  · exact .inr ⟨h18, by simpa using hb, by simpa [eq_comm] using h⟩
  · exact .inl (by simpa [eq_comm] using h)

/-- Everything a host write to IBUF can leave. -/
theorem writeIbuf_eq_next {s t : State} {u : UnitKind} {i : Nat} {b : Byte} :
    writeIbuf s u i b = .next t ↔ (s.port u).busy = false ∧ i < (s.port u).capIn.toNat ∧
      t = s.withPort u { s.port u with ibuf := Memory.write (s.port u).ibuf i b } := by
  unfold writeIbuf
  cases hb : (s.port u).busy with
  | true => simp [hb]
  | false => by_cases hi : i < (s.port u).capIn.toNat <;> simp [hb, hi, eq_comm]

/-- The machine after a read that may take a free value: the units as they were. -/
theorem byteOrFree_units (s : State) (b : Option Byte) :
    (byteOrFree s b).2.e = s.e ∧ (byteOrFree s b).2.d = s.d := by
  cases b <;> exact ⟨rfl, rfl⟩

/-- A host read of OBUF leaves the units as they were. -/
theorem readObuf_units {s : State} {u : UnitKind} {i : Nat} {x : Byte × State}
    (h : readObuf s u i = .val x) : x.2.e = s.e ∧ x.2.d = s.d := by
  unfold readObuf at h
  split_ifs at h
  obtain rfl : _ = x := by simpa using h
  exact byteOrFree_units s _

/-- A host read of IBUF leaves the units as they were. -/
theorem readIbuf_units {s : State} {u : UnitKind} {i : Nat} {x : Byte × State}
    (h : readIbuf s u i = .val x) : x.2.e = s.e ∧ x.2.d = s.d := by
  unfold readIbuf at h
  split_ifs at h
  obtain rfl : _ = x := by simpa using h
  exact byteOrFree_units s _

/-- A read that answers a next state gave a byte. -/
theorem afterRead_eq_next {r : Got (Byte × State)} {t : State} :
    afterRead r = .next t ↔ ∃ b, r = .val (b, t) := by
  cases r with
  | val x => obtain ⟨b, u⟩ := x; simp [afterRead]
  | _ => simp [afterRead]

/-- POLL leaves the units as they were. -/
theorem pollUnit_units (s : State) (u : UnitKind) : (pollUnit s u).e = s.e ∧ (pollUnit s u).d = s.d := by
  unfold pollUnit
  simp only
  split_ifs <;> exact ⟨rfl, rfl⟩

/-- A host write to IBUF keeps the invariant. -/
theorem Inv.after_writeIbuf {s t : State} (h : Inv s) {u : UnitKind} {i : Nat} {b : Byte}
    (hx : writeIbuf s u i b = .next t) : Inv t := by
  obtain ⟨-, hi, rfl⟩ := writeIbuf_eq_next.1 hx
  exact h.withPort ((inv_iff.1 h u).after_writeIbuf (bs := [b]) hi)

/-- The bytes of COPY keep the invariant. -/
theorem Inv.after_copyLoop {n i : Nat} {s t : State} (h : Inv s) (hx : copyLoop n i s = .next t) : Inv t := by
  induction n generalizing i s with
  | zero =>
    obtain rfl : s = t := by simpa [copyLoop] using hx
    exact h
  | succ n ih =>
    rw [copyLoop] at hx
    cases hr : readObuf s .E i with
    | fault f => simp [hr] at hx
    | refuse r => simp [hr] at hx
    | val x =>
      obtain ⟨he, hd⟩ := readObuf_units hr
      simp only [hr] at hx
      cases hw : writeIbuf x.2 .D i x.1 with
      | fault f => simp [hw] at hx
      | refused r => simp [hw] at hx
      | next v =>
        simp only [hw] at hx
        exact ih ((h.of_units he hd).after_writeIbuf hw) hx

/-- COPY keeps the invariant. -/
theorem Inv.after_copyResult {s t : State} (h : Inv s) (hx : copyResult s = .next t) : Inv t := by
  unfold copyResult at hx
  simp only at hx
  split at hx
  next v hv =>
    obtain rfl : _ = t := by simpa using hx
    have hinv : Inv v := Inv.after_copyLoop (h.of_units (t := s.see _) rfl rfl) hv
    refine hinv.withPort (k := .D) ?_
    split_ifs
    · exact hinv.2
    · exact hinv.2.after_setInLen _
  next hne => exact absurd hx (hne t)

/-- A unit's reset keeps the invariant. -/
theorem Inv.after_resetUnit {s : State} (h : Inv s) (u : UnitKind) : Inv (resetUnit s u) := by
  cases u
  · exact ⟨portInv_reset .E h.1.capInRange h.1.capOutRange, h.2⟩
  · exact ⟨h.1, portInv_reset .D h.2.capInRange h.2.capOutRange⟩

/-- Every host access keeps the invariant. -/
theorem Inv.after_hostAccess {l : HostLine} {s t : State} (h : Inv s) (hx : hostAccess l s = .next t) : Inv t := by
  cases l with
  | wrReg u off v =>
    simp only [hostAccess] at hx
    cases hw : writeReg (s.port u) off v with
    | none => simp [hw] at hx
    | some p =>
      obtain rfl : s.withPort u p = t := by simpa [hw] using hx
      rcases writeReg_eq_some hw with rfl | ⟨-, -, rfl⟩
      · exact h.withPort (inv_iff.1 h u)
      · exact h.withPort ((inv_iff.1 h u).after_setInLen v)
  | rdReg u off =>
    simp only [hostAccess] at hx
    cases hr : readReg u (s.port u) off with
    | none => simp [hr] at hx
    | some v =>
      obtain rfl : s.see _ = t := by simpa [hr] using hx
      exact h.of_units rfl rfl
  | wrIbuf u i b => exact h.after_writeIbuf hx
  | rdIbuf u i =>
    obtain ⟨b, hb⟩ := afterRead_eq_next.1 hx
    obtain ⟨he, hd⟩ := readIbuf_units hb
    exact h.of_units he hd
  | wrObuf u i b =>
    simp only [hostAccess] at hx
    split_ifs at hx
    obtain rfl : s = t := by simpa using hx
    exact h
  | rdObuf u i =>
    obtain ⟨b, hb⟩ := afterRead_eq_next.1 hx
    obtain ⟨he, hd⟩ := readObuf_units hb
    exact h.of_units he hd
  | poll u =>
    obtain rfl : pollUnit s u = t := by simpa [hostAccess] using hx
    exact h.of_units (pollUnit_units s u).1 (pollUnit_units s u).2
  | copy => exact h.after_copyResult hx
  | container bs =>
    obtain ⟨-, hlen, rfl⟩ := presentBytes_eq_next.1 hx
    exact ⟨h.1, h.2.after_presentBytes hlen⟩
  | reset u =>
    obtain rfl : resetUnit s u = t := by simpa [hostAccess] using hx
    exact h.after_resetUnit u

/-- Settles O54: by what a step can be, an instruction, a host access or nothing. -/
theorem everyStepKeepsTheInvariant : Obligations.EveryStepKeepsTheInvariant := by
  intro s t h hx
  obtain ⟨s', he, hd, hcase⟩ := step_cases hx
  have hs' : Inv s' := h.of_units he hd
  rcases hcase with ⟨i, hi, hp⟩ | ⟨l, hl⟩ | rfl
  · refine hs'.after_exec (fun hs => ?_) hi
    have hport : s'.port (instrUnit i) = s.port (instrUnit i) := by cases instrUnit i <;> simp [he, hd]
    rw [hport]
    exact hp hs
  · exact hs'.after_hostAccess hl
  · exact hs'

/-- Settles O53: both units right after reset, with 65536 for MAX_IN and MAX_OUT. -/
theorem resetMeetsTheInvariant : Obligations.ResetMeetsTheInvariant :=
  ⟨portInv_reset .E (by decide) (by decide), portInv_reset .D (by decide) (by decide)⟩

end Sys2Proof.Machine
end

section
/-! PROOFS. The units share nothing (spec 10_state.md R20, 60_exceptions.md R260): what an instruction leaves
alone, and that its outcome for its own unit rests on that unit and the next free value only. -/

namespace Sys2Proof.Machine

/-! What an instruction leaves alone. -/

/-- A phase operation of unit E writes that unit and the count of free values. -/
theorem phaseE_frame {i : Instr} {s t : State} (hs : instrSuccessors i ≠ []) (hu : instrUnit i = .E)
    (h : exec i s = .next t) : t = { s with e := t.e, free := t.free } := by
  by_cases hf : i = .eFin
  · subst hf
    rw [eFin_end h]
  · rw [(phaseE_end hs hu hf h).2]

/-- A phase operation of unit D writes that unit. -/
theorem phaseD_frame {i : Instr} {s t : State} (hs : instrSuccessors i ≠ []) (hu : instrUnit i = .D)
    (h : exec i s = .next t) : t = { s with d := t.d } := by
  by_cases hf : i = .dFin
  · subst hf
    rw [(dFin_end h).1]
  · exact (phaseD_end hs hu hf h).2

/-- A unit's port written leaves the other unit as it is. -/
theorem withPort_other_unit (s : State) (k : UnitKind) (p : Port) :
    (k = .E → (s.withPort k p).d = s.d) ∧ (k = .D → (s.withPort k p).e = s.e) := by
  cases k
  · exact ⟨fun _ => rfl, nofun⟩
  · exact ⟨nofun, fun _ => rfl⟩

/-- What every instruction leaves as it is: the other unit, the script, the schedule, what the host has seen. -/
theorem exec_frame {i : Instr} {s t : State} (h : exec i s = .next t) :
    (instrUnit i = .E → t.d = s.d) ∧ (instrUnit i = .D → t.e = s.e) ∧
    t.script = s.script ∧ t.sched = s.sched ∧ t.seen = s.seen := by
  by_cases hs : instrSuccessors i = []
  · rcases command_end hs h with rfl | ⟨-, p, rfl, -⟩
    · exact ⟨fun _ => rfl, fun _ => rfl, rfl, rfl, rfl⟩
    · obtain ⟨hE, hD⟩ := withPort_other_unit s (instrUnit i) p
      exact ⟨hE, hD, by simp⟩
  · cases hu : instrUnit i with
    | E =>
      rw [phaseE_frame hs hu h]
      exact ⟨fun _ => rfl, nofun, rfl, rfl, rfl⟩
    | D =>
      rw [phaseD_frame hs hu h]
      exact ⟨nofun, fun _ => rfl, rfl, rfl, rfl⟩

/-! What an instruction depends on. -/

/-- The two machines have the same unit k and the same next free value; the rest may differ. -/
def SameUnit (k : UnitKind) (s r : State) : Prop :=
  (k = .E → s.e = r.e) ∧ (k = .D → s.d = r.d) ∧ s.free = r.free

/-- Two outcomes are one for unit k: next states that have it the same, or the same stop. -/
def SameOutcome (k : UnitKind) (x y : Host.Outcome State Fault Refusal) : Prop :=
  (∀ t, x = .next t → ∃ t', y = .next t' ∧ SameUnit k t' t) ∧
  (∀ f, x = .fault f → y = .fault f) ∧ ∀ z, x = .refused z → y = .refused z

theorem SameUnit.symm {k : UnitKind} {s r : State} (h : SameUnit k s r) : SameUnit k r s :=
  ⟨fun hk => (h.1 hk).symm, fun hk => (h.2.1 hk).symm, h.2.2.symm⟩

theorem SameUnit.port {k : UnitKind} {s r : State} (h : SameUnit k s r) : s.port k = r.port k := by
  cases k
  · exact congrArg UnitE.port (h.1 rfl)
  · exact congrArg UnitD.port (h.2.1 rfl)

/-- The same port written into both. -/
theorem SameUnit.withPort {k : UnitKind} {s r : State} (h : SameUnit k s r) (p : Port) :
    SameUnit k (s.withPort k p) (r.withPort k p) := by
  cases k
  · exact ⟨fun _ => congrArg (fun u : UnitE => { u with port := p }) (h.1 rfl), nofun, h.2.2⟩
  · exact ⟨nofun, fun _ => congrArg (fun u : UnitD => { u with port := p }) (h.2.1 rfl), h.2.2⟩

theorem SameOutcome.next {k : UnitKind} {s r : State} (h : SameUnit k s r) :
    SameOutcome k (.next s) (.next r) := by
  refine ⟨?_, nofun, nofun⟩
  rintro t ⟨⟩
  exact ⟨r, rfl, h.symm⟩

theorem SameOutcome.refused (k : UnitKind) (x : Refusal) : SameOutcome k (.refused x) (.refused x) := by
  refine ⟨?_, ?_, fun _ h => h⟩ <;> rintro _ ⟨⟩

/-- A phase of unit E with the same result. -/
theorem SameOutcome.finishE {s r : State} {p q : Res UnitE} (hq : p = q) (hf : s.free = r.free) :
    SameOutcome .E (s.finishE p) (r.finishE q) := by
  subst hq
  obtain ⟨hnext, hfault, hrefused⟩ := finishE_same p hf
  refine ⟨fun t ht => ?_, hfault, hrefused⟩
  obtain ⟨t', ht', he, hfree⟩ := hnext t ht
  exact ⟨t', ht', fun _ => he, nofun, hfree⟩

/-- A phase of unit D with the same result. -/
theorem SameOutcome.finishD {s r : State} {p q : Res UnitD} (hq : p = q) (hf : s.free = r.free) :
    SameOutcome .D (s.finishD p) (r.finishD q) := by
  subst hq
  obtain ⟨hnext, hfault, hrefused⟩ := finishD_same p hf
  refine ⟨fun t ht => ?_, hfault, hrefused⟩
  obtain ⟨t', ht', hd, hfree⟩ := hnext t ht
  exact ⟨t', ht', nofun, fun _ => hd, hfree⟩

/-- E_MERGE takes a free value, or not, as its unit's collection says. -/
theorem execEMerge_same {s r : State} (he : s.e = r.e) (hf : s.free = r.free) :
    SameOutcome .E (execEMerge s) (execEMerge r) := by
  unfold execEMerge
  rw [he, hf]
  refine SameOutcome.finishE rfl ?_
  split_ifs
  · exact congrArg (· + 1) hf
  · exact hf

/-- A command that a busy unit ignores and an idle one answers by writing its own port. -/
theorem SameOutcome.command {k : UnitKind} {s r : State} (h : SameUnit k s r) (f : Port → Port) :
    SameOutcome k (if (s.port k).busy then .next s else .next (s.withPort k (f (s.port k))))
      (if (r.port k).busy then .next r else .next (r.withPort k (f (r.port k)))) := by
  rw [h.port]
  split_ifs
  · exact .next h
  · exact .next (h.withPort _)

/-- Bytes presented to unit D. -/
theorem presentBytes_same {s r : State} (h : SameUnit .D s r) (bs : List Byte) :
    SameOutcome .D (presentBytes s bs) (presentBytes r bs) := by
  simp only [presentBytes, h.port]
  split_ifs
  · exact .refused _ _
  · exact .next (h.withPort _)
  · exact .refused _ _

/-- What an instruction does to its unit is the same in machines that have the unit and the next free value
the same. -/
theorem exec_same {i : Instr} {s r : State} (h : SameUnit (instrUnit i) s r) :
    SameOutcome (instrUnit i) (exec i s) (exec i r) := by
  have ⟨he, hd, hf⟩ := h
  cases i with
  | nop u => exact .next h
  | idle u => exact .next h
  | enc u =>
    cases u
    · exact .command h (acceptCommand · phEInit)
    · exact .command h recordRefused
  | dec u =>
    cases u
    · exact .command h recordRefused
    · exact .command h (acceptCommand · phDInit)
  | clr u => exact .command h acknowledge
  | reservedCmd u op => exact .command h recordRefused
  | huf1Container c => exact presentBytes_same h _
  | eMerge => exact execEMerge_same (he rfl) hf
  | eSort => exact .finishE (congrArg phaseESort (he rfl)) hf
  | eFin => exact .finishE (congrArg phaseEFin (he rfl)) hf
  | eInit | eScan | eLeaf | eSingle | eWalk | eCanon | eSize | eHdr | eTbl | ePbc | ePack | eFlush =>
    exact .finishE (congrArg _ (he rfl)) hf
  | dInit | dMagic | dOlen | dScnt | dTbl | dPbc | dSize | dCanon | dEmpty | dSingle | dWalk | dFin =>
    exact .finishD (congrArg _ (hd rfl)) hf

/-- Settles O49: by the frame of every instruction, and by what its outcome depends on. -/
theorem unitsShareNothing : Obligations.UnitsShareNothing :=
  ⟨fun _ _ _ h => exec_frame h, fun _ _ _ he hd hf => exec_same ⟨he, hd, hf⟩⟩

end Sys2Proof.Machine
end

section
/-! PROOFS. The host's view of a unit: the layout of STATUS and ERR, the REG space, and reset
(spec 10_state.md section 2 and R51, 20_memory.md R63, R69, 70_reset_and_hazards.md R270, R271). -/

namespace Sys2Proof.Machine

/-! STATUS and ERR. -/

/-- A flag stands in bit 0 of its word. -/
theorem getLsbD_flagWord (b : Bool) (i : Nat) : (flagWord b).getLsbD i = (decide (i = 0) && b) := by
  cases b <;> simp [flagWord]

/-- The bits of STATUS. -/
theorem getLsbD_statusWord (p : Port) (i : Nat) :
    (statusWord p).getLsbD i =
      (if i = 0 then p.busy else if i = 1 then p.done else if i = 2 then p.err else if i = 3 then p.nogain
        else if 8 ≤ i ∧ i ≤ 12 then p.phase.getLsbD (i - 8) else false) := by
  simp only [statusWord, BitVec.getLsbD_or, BitVec.getLsbD_shiftLeft, BitVec.getLsbD_setWidth,
    getLsbD_flagWord]
  by_cases hi : i < 13
  · interval_cases i <;> simp
  · have hphase : p.phase.getLsbD (i - 8) = false := BitVec.getLsbD_of_ge _ _ (by omega)
    have h0 : i ≠ 0 := by omega
    have h1 : i - 1 ≠ 0 := by omega
    have h2 : i - 2 ≠ 0 := by omega
    have h3 : i - 3 ≠ 0 := by omega
    have hrest : i ≠ 1 ∧ i ≠ 2 ∧ i ≠ 3 := by omega
    simp [hphase, h0, h1, h2, h3, hrest]

/-- The bits of ERR. -/
theorem getLsbD_errWord (p : Port) (i : Nat) :
    (errWord p).getLsbD i =
      (if i < 8 then p.errCode.getLsbD i else if i < 16 then p.errSub.getLsbD (i - 8) else false) := by
  simp only [errWord, BitVec.getLsbD_or, BitVec.getLsbD_shiftLeft, BitVec.getLsbD_setWidth]
  split_ifs with hcode hsub
  · have h64 : i < 64 := by omega
    simp [hcode, h64]
  · have hlow : p.errCode.getLsbD i = false := BitVec.getLsbD_of_ge _ _ (by omega)
    have h64 : i < 64 := by omega
    have h64' : i - 8 < 64 := by omega
    simp [hlow, hcode, h64, h64']
  · have hlow : p.errCode.getLsbD i = false := BitVec.getLsbD_of_ge _ _ (by omega)
    have hhigh : p.errSub.getLsbD (i - 8) = false := BitVec.getLsbD_of_ge _ _ (by omega)
    simp [hlow, hhigh]

/-- Settles O56: bit by bit. -/
theorem statusAndErrLayout : Obligations.StatusAndErrLayout :=
  fun p i => ⟨getLsbD_statusWord p i, getLsbD_errWord p i⟩

/-! The REG space. -/

/-- The eight registers in the order of their offsets. -/
theorem readReg_eq (k : UnitKind) (p : Port) (off : Nat) :
    readReg k p off =
      if off % 8 = 0 then
        [0#64, statusWord p, errWord p, p.inLen, p.outLen, p.capIn, p.capOut, unitIdWord k][off / 8]?
      else none := by
  by_cases hoff : off < 64
  · interval_cases off <;> rfl
  · rw [List.getElem?_eq_none (by simp; omega), ite_self]
    have hne : off ≠ 0x00 ∧ off ≠ 0x08 ∧ off ≠ 0x10 ∧ off ≠ 0x18 ∧ off ≠ 0x20 ∧ off ≠ 0x28 ∧ off ≠ 0x30 ∧
        off ≠ 0x38 := by omega
    simp [readReg, hne]

/-- A host read of a register is seen, and that is all. -/
theorem step_rdReg {s : State} {u : UnitKind} {off : Nat} {v : Word64} {rest : List HostLine}
    (ha : nextAgent s = .host) (hl : s.script = .rdReg u off :: rest)
    (hr : readReg u (s.port u) off = some v) :
    step s = .next { s with sched := s.sched.tail, script := rest, seen := .reg u off v :: s.seen } := by
  rw [step_hostAccess ha hl fun _ _ _ => rfl]
  simp [hostAccess, hr, State.see]

/-- A host read of no register is refused. -/
theorem step_rdReg_none {s : State} {u : UnitKind} {off : Nat} {rest : List HostLine}
    (ha : nextAgent s = .host) (hl : s.script = .rdReg u off :: rest)
    (hr : readReg u (s.port u) off = none) : step s = .refused .badRegAccess := by
  rw [step_hostAccess ha hl fun _ _ _ => rfl]
  simp [hostAccess, hr]

/-- A host write to a register other than CMD. -/
theorem step_wrReg {s : State} {u : UnitKind} {off : Nat} {v : Word64} {p : Port} {rest : List HostLine}
    (ha : nextAgent s = .host) (hl : s.script = .wrReg u off v :: rest) (hoff : off ≠ 0x00)
    (hw : writeReg (s.port u) off v = some p) :
    step s = .next (({ s with sched := s.sched.tail, script := rest } : State).withPort u p) := by
  rw [step_hostAccess ha hl fun _ _ _ => by simp [fetchLine, hoff]]
  simp [hostAccess, hw]

/-- A host write that leaves the port as it was changes nothing. -/
theorem step_wrReg_ignored {s : State} {u : UnitKind} {off : Nat} {v : Word64} {rest : List HostLine}
    (ha : nextAgent s = .host) (hl : s.script = .wrReg u off v :: rest) (hoff : off ≠ 0x00)
    (hw : writeReg (s.port u) off v = some (s.port u)) :
    step s = .next { s with sched := s.sched.tail, script := rest } := by
  rw [step_wrReg ha hl hoff hw]
  cases u <;> rfl

/-- A host write to no register is refused. -/
theorem step_wrReg_none {s : State} {u : UnitKind} {off : Nat} {v : Word64} {rest : List HostLine}
    (ha : nextAgent s = .host) (hl : s.script = .wrReg u off v :: rest) (hoff : off ≠ 0x00)
    (hw : writeReg (s.port u) off v = none) : step s = .refused .badRegAccess := by
  rw [step_hostAccess ha hl fun _ _ _ => by simp [fetchLine, hoff]]
  simp [hostAccess, hw]

/-- A write to a read-only register changes nothing. -/
theorem writeReg_readOnly {p : Port} {off : Nat} {v : Word64}
    (h : off ∈ [0x08, 0x10, 0x20, 0x28, 0x30, 0x38]) : writeReg p off v = some p := by
  simp only [List.mem_cons, List.not_mem_nil, or_false] at h
  rcases h with rfl | rfl | rfl | rfl | rfl | rfl <;> rfl

/-- There is no register at any other offset. -/
theorem writeReg_none {p : Port} {off : Nat} {v : Word64}
    (h : off ∉ [0x00, 0x08, 0x10, 0x18, 0x20, 0x28, 0x30, 0x38]) : writeReg p off v = none := by
  simp only [List.mem_cons, List.not_mem_nil, or_false, not_or] at h
  simp [writeReg, h]

/-- Settles O57: by the value each offset reads and what a write to it does. -/
theorem regAccessesReachOnlyInLen : Obligations.RegAccessesReachOnlyInLen := by
  intro s u off rest ha
  refine ⟨fun hl => ?_, fun v hl => ⟨?_, ?_, ?_, ?_⟩⟩
  · split
    next v hv =>
      split_ifs with hoff
      · exact step_rdReg ha hl (by rw [readReg_eq, if_pos hoff, hv])
      · exact step_rdReg_none ha hl (by rw [readReg_eq, if_neg hoff])
    next hv => exact step_rdReg_none ha hl (by rw [readReg_eq, hv, ite_self])
  · rintro rfl hb
    exact step_wrReg ha hl (by decide) (by simp [writeReg, hb])
  · rintro rfl hb
    exact step_wrReg_ignored ha hl (by decide) (by simp [writeReg, hb])
  · intro hoff
    exact step_wrReg_ignored ha hl (by rintro rfl; simp at hoff) (writeReg_readOnly hoff)
  · intro hoff
    exact step_wrReg_none ha hl (by rintro rfl; simp at hoff) (writeReg_none hoff)

/-! Reset. -/

/-- What the host reads of a unit right after reset. -/
theorem reset_reads (a b : Word64) :
    statusWord (Port.reset a b) = 0#64 ∧ errWord (Port.reset a b) = 0#64 ∧ (Port.reset a b).inLen = 0#64 ∧
      (Port.reset a b).outLen = 0#64 ∧ (Port.reset a b).phase = 0x00#5 := 
  ⟨by simp [statusWord, flagWord, Port.reset], by simp [errWord, Port.reset], rfl, rfl, rfl⟩

/-- The port of a unit reset. -/
theorem port_resetUnit (s : State) (u : UnitKind) :
    (resetUnit s u).port u = Port.reset (s.port u).capIn (s.port u).capOut := by cases u <;> rfl

/-- Settles O60. -/
theorem resetReturnsAUnitToIdle : Obligations.ResetReturnsAUnitToIdle := by
  constructor
  · intro u
    cases u <;> exact reset_reads _ _
  · intro s u rest ha hl
    refine ⟨_, step_hostAccess ha hl fun _ _ _ => rfl, ?_⟩
    rw [port_resetUnit]
    obtain ⟨hstatus, herr, hin, hout, hphase⟩ := reset_reads (s.port u).capIn (s.port u).capOut
    refine ⟨hstatus, herr, hin, hout, hphase, ?_⟩
    cases u
    · exact ⟨rfl, rfl, fun _ => rfl, nofun, rfl, rfl⟩
    · exact ⟨rfl, rfl, nofun, fun _ => rfl, rfl, rfl⟩

end Sys2Proof.Machine
end

section
/-! PROOFS. The payload (spec 44_encoder.md R180, 43_bitstream.md R156 to R160): E_PACK leaves unit E as the
writer of the whole input's codewords. -/

namespace Sys2Proof.Machine

/-- E_PACK, where its full bytes fit OBUF: the codewords of the input stand in the stream opened at WPTR. -/
theorem phaseEPack_eq_ok {u : UnitE} {bs : List Byte} (hin : hasInput u.port bs)
    (hfit : u.wptr.toNat + (packedBits u bs).length / 8 ≤ u.port.capOut.toNat) :
    ∃ v, phaseEPack u = .ok (v.goto phEFlush) ∧ Writer u u.wptr.toNat (packedBits u bs) v ∧
      v.idx = BitVec.ofNat 64 bs.length := by
  have hopen : Writer u u.wptr.toNat [] { bsInit u u.wptr with idx := 0#64 } :=
    (writer_bsInit u u.wptr).setIdx 0#64
  obtain ⟨v, hv⟩ := packBytes_completes (bs := bs) hopen (by simpa using hfit)
  obtain ⟨hw, hidx⟩ := writer_packBytes hopen hv
  refine ⟨v, ?_, hw, by simpa using hidx⟩
  rw [phaseEPack, memRead_input hin, thenDo_val, hv, thenDo_val]

/-- Settles O27: what the writer of all the codewords holds. -/
theorem ePackPacksTheCodewords : Obligations.EPackPacksTheCodewords := by
  rintro s bs bits hin rfl hfit
  obtain ⟨v, hv, hw, hidx⟩ := phaseEPack_eq_ok hin hfit
  have ⟨_, hcap, _⟩ := hin
  have hlen : bs.length < 2 ^ 64 := Nat.lt_of_le_of_lt hcap s.e.port.capIn.isLt
  refine ⟨s.withE (v.goto phEFlush), finishE_eq_next.2 (.inl ⟨_, hv, rfl⟩), rfl, hw.wptr, hw.bitcnt, hw.nbits,
    ?_, hw.bytes, hw.acc⟩
  rw [withE_e, gotoE_idx, hidx, BitVec.toNat_ofNat, Nat.mod_eq_of_lt hlen]

end Sys2Proof.Machine
end

section
/-! PROOFS. Who writes an input (spec 20_memory.md R61, 10_state.md R30, R32): no operation of a unit writes
IBUF, IN_LEN or a capacity, and a host write to IBUF reaches one byte. -/

namespace Sys2Proof.Machine

/-! The operations of a unit. -/

/-- q has the input and the capacities of p. -/
structure SameInput (p q : Port) : Prop where
  ibuf   : q.ibuf = p.ibuf
  inLen  : q.inLen = p.inLen
  capIn  : q.capIn = p.capIn
  capOut : q.capOut = p.capOut

theorem SameInput.refl (p : Port) : SameInput p p := ⟨rfl, rfl, rfl, rfl⟩

/-- Storing to OBUF. -/
theorem Stored.sameInput {p q : Port} (e : Stored p q) : SameInput p q := by
  rw [e.port]
  exact ⟨rfl, rfl, rfl, rfl⟩

/-- The end of a phase, be it the error exit. -/
theorem PhaseEnd.sameInput {succ : List (BitVec 5)} {p q : Port} (e : PhaseEnd succ p q) : SameInput p q := by
  cases e with
  | goes _ e => exact e.sameInput
  | fails c p' _ _ e hq =>
    obtain ⟨hibuf, hinLen, hcapIn, hcapOut⟩ := e.sameInput
    rw [hq]
    exact ⟨hibuf, hinLen, hcapIn, hcapOut⟩

/-- A port replaced by one with the same input, seen at any unit. -/
theorem SameInput.withPort {s : State} {k : UnitKind} {p : Port} (h : SameInput (s.port k) p) (u : UnitKind) :
    SameInput (s.port u) ((s.withPort k p).port u) := by
  by_cases hu : u = k
  · subst hu
    rwa [port_withPort_same]
  · rw [port_withPort_other _ _ _ _ hu]
    exact .refl _

/-! Instructions. -/

/-- A command or IDLE. -/
theorem command_sameInput {i : Instr} {s t : State} (hs : instrSuccessors i = [])
    (hc : ∀ c, i ≠ .huf1Container c) (hx : exec i s = .next t) (u : UnitKind) : SameInput (s.port u) (t.port u) := by
  rcases command_end hs hx with rfl | ⟨-, p, rfl, hp⟩
  · exact .refl _
  apply SameInput.withPort
  rcases hp with ⟨-, q, rfl, -, -⟩ | rfl | rfl | ⟨c, hi, -⟩
  · exact ⟨rfl, rfl, rfl, rfl⟩
  · exact ⟨rfl, rfl, rfl, rfl⟩
  · exact ⟨rfl, rfl, rfl, rfl⟩
  · exact absurd hi (hc c)

/-- A phase operation of unit E, at its own port. -/
theorem phaseE_sameInput {i : Instr} {s t : State} (hs : instrSuccessors i ≠ []) (hu : instrUnit i = .E)
    (hx : exec i s = .next t) : SameInput s.e.port t.e.port := by
  by_cases hf : i = .eFin
  · subst hf
    rw [eFin_end hx]
    exact ⟨rfl, rfl, rfl, rfl⟩
  · exact (phaseE_end hs hu hf hx).1.sameInput

/-- A phase operation of unit D, at its own port. -/
theorem phaseD_sameInput {i : Instr} {s t : State} (hs : instrSuccessors i ≠ []) (hu : instrUnit i = .D)
    (hx : exec i s = .next t) : SameInput s.d.port t.d.port := by
  by_cases hf : i = .dFin
  · subst hf
    obtain ⟨-, ⟨-, hp⟩ | ⟨-, hp⟩⟩ := dFin_end hx <;> rw [hp] <;> exact ⟨rfl, rfl, rfl, rfl⟩
  · exact (phaseD_end hs hu hf hx).1.sameInput

/-- Every instruction but a container keeps the input and the capacities of both units. -/
theorem exec_sameInput {i : Instr} {s t : State} (hc : ∀ c, i ≠ .huf1Container c) (hx : exec i s = .next t)
    (u : UnitKind) : SameInput (s.port u) (t.port u) := by
  by_cases hs : instrSuccessors i = []
  · exact command_sameInput hs hc hx u
  obtain ⟨hD, hE, -⟩ := exec_frame hx
  cases hi : instrUnit i <;> cases u
  · exact phaseE_sameInput hs hi hx
  · rw [port_D, port_D, hD hi]
    exact .refl _
  · rw [port_E, port_E, hE hi]
    exact .refl _
  · exact phaseD_sameInput hs hi hx

/-- Settles O50: the four fields of `SameInput`. -/
theorem unitsNeverWriteTheirInput : Obligations.UnitsNeverWriteTheirInput := by
  intro i s t u hc hx
  obtain ⟨hibuf, hinLen, hcapIn, hcapOut⟩ := exec_sameInput hc hx u
  exact ⟨hibuf, hinLen, hcapIn, hcapOut⟩

/-! The host. -/

/-- The host writes IBUF of a busy unit: refused (R277). -/
theorem writeIbuf_busy {s : State} {u : UnitKind} (i : Nat) (b : Byte) (hb : (s.port u).busy = true) :
    writeIbuf s u i b = .refused .ibufWriteWhileBusy := by
  simp [writeIbuf, hb]

/-- The host writes beyond MAX_IN: refused (R287). -/
theorem writeIbuf_outOfRange {s : State} {u : UnitKind} {i : Nat} (b : Byte) (hb : (s.port u).busy = false)
    (hi : (s.port u).capIn.toNat ≤ i) : writeIbuf s u i b = .refused .indexOutOfRange := by
  simp [writeIbuf, hb, Nat.not_lt.2 hi]

/-- Settles O58: the memory after the write is the one `Memory.write` leaves. -/
theorem ibufWritesReachOneByte : Obligations.IbufWritesReachOneByte := by
  intro s u i b rest ha hl
  have hport := port_setTurn s s.sched.tail rest u
  rw [show step s = writeIbuf { s with sched := s.sched.tail, script := rest } u i b from
    step_hostAccess ha hl fun _ _ _ => rfl]
  refine ⟨fun hb => writeIbuf_busy i b (by rwa [hport]),
    fun hb hi => writeIbuf_outOfRange b (by rwa [hport]) (by rwa [hport]), fun hb hi => ?_⟩
  refine ⟨Memory.write (s.port u).ibuf i b, ?_, read_write_same _ _ _, fun k hk => read_write_other _ _ _ _ hk⟩
  exact writeIbuf_eq_next.2 ⟨by rwa [hport], by rwa [hport], by rw [hport]⟩

end Sys2Proof.Machine
end

section
/-! PROOFS. The result read back (spec 20_memory.md R62, 70_reset_and_hazards.md R287). -/

namespace Sys2Proof.Machine

/-- A byte of a finished result is what R62 gives to the read. -/
theorem obufResult_finished {p : Port} {i : Nat} (hb : p.busy = false) (hd : p.done = true)
    (hi : i < p.outLen.toNat) : obufResult p i = Memory.read p.obuf i := if_pos ⟨hb, hd, hi⟩

/-- A read that the rules give a byte returns it, takes no free value, and is seen. -/
theorem readObuf_result {s : State} {u : UnitKind} {i : Nat} {b : Byte} (hi : i < (s.port u).capOut.toNat)
    (hr : obufResult (s.port u) i = some b) : readObuf s u i = .val (b, s.see (.obuf u i b)) := by
  simp [readObuf, hi, hr, byteOrFree]

/-- Settles O59: the read's byte is given by the rules, so no free value is taken. -/
theorem resultBytesAreReadBack : Obligations.ResultBytesAreReadBack := by
  intro s u i b rest ha hl hb hd hi hcap hread
  rw [step_hostAccess ha hl fun _ _ _ => rfl]
  refine afterRead_eq_next.2 ⟨b, readObuf_result ?_ ?_⟩
  · rwa [port_setTurn]
  · rw [port_setTurn, obufResult_finished hb hd hi, hread]

end Sys2Proof.Machine
end

section
/-! PROOFS. The encodings (spec 30_encoding.md): what each form of bits is decoded to, and that the encoder and
the decoder agree on every well-formed instruction. -/

namespace Sys2Proof.Machine

/-! Commands (R95, R96). -/

/-- OP is bits [7:0] of the value written (R95). -/
theorem op_eq_ofNat (w : Word64) : (w.setWidth 8 : Byte) = BitVec.ofNat 8 (w.toNat % 256) := by
  apply BitVec.eq_of_toNat_eq
  rw [BitVec.toNat_setWidth, BitVec.toNat_ofNat, Nat.mod_mod]

/-- An OP from 4 on names the reserved opcode with this OP (R96). -/
theorem decodeCmd_reserved (u : UnitKind) {w : Word64} (h : 4 ≤ w.toNat % 256) :
    decodeCmd u w = .reservedCmd u (BitVec.ofNat 8 (w.toNat % 256)) := by
  have hne : ∀ n < 4, BitVec.ofNat 8 (w.toNat % 256) ≠ BitVec.ofNat 8 n := by
    intro n hn he
    have := congrArg BitVec.toNat he
    simp only [BitVec.toNat_ofNat] at this
    omega
  rw [decodeCmd, op_eq_ofNat]
  simp only [hne 0 (by omega), hne 1 (by omega), hne 2 (by omega), hne 3 (by omega), if_false]

/-- Settles O3: only OP is looked at, and the four named OP values stand in the opcode table. -/
theorem commandOpcodeTable : Obligations.CommandOpcodeTable := by
  intro u w
  have named : ∀ n, w.toNat % 256 = n → decode (.cmd u w) = decode (.cmd u (BitVec.ofNat 64 n)) := by
    rintro n rfl
    simp [decode, decodeCmd, op_eq_ofNat]
  exact ⟨⟨named 0, named 1, named 2, named 3⟩, fun h => congrArg Except.ok (decodeCmd_reserved u h)⟩

/-! Phase codes (R98). -/

/-- The table of a unit's phase codes has a row exactly for the codes the unit takes. -/
theorem phaseRows_lookup_isSome (u : UnitKind) (p : BitVec 5) :
    ((phaseRows u).lookup p).isSome = true ↔ unitPhase u p := by
  revert p
  cases u <;> (simp only [unitPhase]; decide)

/-- Settles O4: a row of the table is an instruction with this code, and a code without a row is no
instruction. -/
theorem phaseCodesNameOneOperation : Obligations.PhaseCodesNameOneOperation := by
  intro u p
  rw [← phaseRows_lookup_isSome]
  cases hrow : (phaseRows u).lookup p with
  | some i =>
    have hdec : decodePhase u p = .ok i := by rw [decodePhase, hrow]
    obtain ⟨-, -, -, henc⟩ := decodePhase_unit hdec
    exact ⟨fun _ => ⟨i, hdec, henc⟩, fun h => absurd rfl h⟩
  | none =>
    have hdec : decodePhase u p = .error .unusedPhase := by rw [decodePhase, hrow]
    exact ⟨nofun, fun _ => hdec⟩

/-! Containers (R80 to R92). -/

/-- The checks of the decoder with the bound on SymbolCount are the rules of a container (R80 to R87). -/
theorem wf_iff_checked {c : Container} :
    c.wf = true ↔ c.table.length ≤ 256 ∧ checkContainer c = .ok c := by
  simp [Container.wf, Container.countOk, checkContainer_ok, and_assoc]

/-- Eight bytes are the big-endian form of the word that holds their value. -/
theorem beBytes_word_fromBe {bs : List Byte} (h : bs.length = 8) :
    beBytes 8 (BitVec.ofNat 64 (fromBe bs)).toNat = bs := by
  have hlt : fromBe bs < 2 ^ 64 := by simpa [h] using fromBe_lt bs
  rw [BitVec.toNat_ofNat, Nat.mod_eq_of_lt hlt, ← h, beBytes_fromBe]

/-- A word is the value of its eight big-endian bytes. -/
theorem word_fromBe_beBytes (v : Word64) : BitVec.ofNat 64 (fromBe (beBytes 8 v.toNat)) = v := by
  rw [fromBe_beBytes 8 _ v.isLt, BitVec.ofNat_toNat, BitVec.setWidth_eq]

/-- The encoding of a well-formed container is read as this container. -/
theorem decodeContainer_encodeContainer {c : Container} (h : c.wf = true) :
    decodeContainer (encodeContainer c) = .ok c := by
  obtain ⟨hcount, hcheck⟩ := wf_iff_checked.1 h
  have hscnt : fromBe (beBytes 2 c.table.length) = c.table.length := fromBe_beBytes 2 _ (by omega)
  simp only [decodeContainer, encodeContainer, List.append_assoc, takeBytes_append Config.magic _ 4 rfl,
    takeBytes_append _ _ _ (length_beBytes _ _), hscnt, takeEntries_append, Nat.not_lt.2 hcount,
    word_fromBe_beBytes, hcheck, ne_eq, not_true_eq_false, if_false]

/-- Bytes read as a container are the encoding of this container, which is well-formed. -/
theorem encodeContainer_of_decodeContainer {bs : List Byte} {c : Container} (h : decodeContainer bs = .ok c) :
    c.wf = true ∧ encodeContainer c = bs := by
  unfold decodeContainer at h
  split at h
  · cases h
  next magic bs₁ hmagic =>
  split_ifs at h with hm
  split at h
  · cases h
  next olen bs₂ holen =>
  split at h
  · cases h
  next scnt bs₃ hscnt =>
  split_ifs at h with hcount
  split at h
  · cases h
  next table bs₄ htable =>
  split at h
  · cases h
  next pbc payload hpbc =>
  obtain rfl := checkContainer_id h
  obtain ⟨rfl, -⟩ := takeBytes_ok hmagic
  obtain ⟨rfl, hlenOlen⟩ := takeBytes_ok holen
  obtain ⟨rfl, hlenScnt⟩ := takeBytes_ok hscnt
  obtain ⟨rfl, hlenTable⟩ := takeEntries_ok htable
  obtain ⟨rfl, hlenPbc⟩ := takeBytes_ok hpbc
  have hcountBytes : beBytes 2 table.length = scnt := by rw [hlenTable, ← hlenScnt, beBytes_fromBe]
  refine ⟨wf_iff_checked.2 ⟨?_, h⟩, ?_⟩
  · show table.length ≤ 256
    omega
  · simp only [encodeContainer, beBytes_word_fromBe hlenOlen, beBytes_word_fromBe hlenPbc, hcountBytes,
      ← not_not.1 hm, List.append_assoc]

/-- A well-formed container has 22 + 2 x SymbolCount + ceil8(PayloadBitCount) bytes (R87). -/
theorem length_encodeContainer {c : Container} (h : c.wf = true) :
    (encodeContainer c).length = 22 + 2 * c.table.length + (c.pbc.toNat + 7) / 8 := by
  obtain ⟨-, -, -, hpayload⟩ := checkContainer_ok.1 (wf_iff_checked.1 h).2
  have hpayload : c.payload.length = (c.pbc.toNat + 7) / 8 := by simpa [Container.payloadOk] using hpayload
  simp only [encodeContainer, List.length_append, length_beBytes, length_tableBytes, hpayload]
  have : Config.magic.length = 4 := rfl
  omega

/-- Bytes decode to a container instruction exactly where they are read as that container. -/
theorem decode_bytes_eq_ok {bs : List Byte} {c : Container} :
    decode (.bytes bs) = .ok (.huf1Container c) ↔ decodeContainer bs = .ok c := by
  cases h : decodeContainer bs <;> simp [decode, h]

/-- Settles O2: the bytes read are the encoding, whose length is known. -/
theorem containerBytesAreCanonical : Obligations.ContainerBytesAreCanonical := by
  intro bs c h
  obtain ⟨hwf, rfl⟩ := encodeContainer_of_decodeContainer (decode_bytes_eq_ok.1 h)
  exact ⟨hwf, rfl, length_encodeContainer hwf⟩

/-! Every instruction. -/

/-- Settles O1: an opcode from 4 on is no named one, a container is read back field by field, and every other
instruction has one code, which the tables give back. -/
theorem decodeEncodeRoundTrip : Obligations.DecodeEncodeRoundTrip := by
  intro i hwf
  cases i with
  | reservedCmd u op =>
    have hop : (op.setWidth 64 : Word64).toNat % 256 = op.toNat := by
      rw [BitVec.toNat_setWidth_of_le (by omega), Nat.mod_eq_of_lt op.isLt]
    have hlegal : 4 ≤ op.toNat := of_decide_eq_true hwf
    have hdec := decodeCmd_reserved u (w := op.setWidth 64) (by rwa [hop])
    rw [hop, BitVec.ofNat_toNat, BitVec.setWidth_eq] at hdec
    exact congrArg Except.ok hdec
  | huf1Container c => exact decode_bytes_eq_ok.2 (decodeContainer_encodeContainer hwf)
  | idle u => cases u <;> rfl
  | _ => rfl

/-! The container placed in IBUF of unit D (R80, R101; log entry 9). -/

/-- Bytes presented to a busy unit D: refused (R277). -/
theorem presentBytes_busy {s : State} (bs : List Byte) (h : s.d.port.busy = true) :
    presentBytes s bs = .refused .ibufWriteWhileBusy := by
  simp [presentBytes, h]

/-- More bytes than IBUF has, presented to an idle unit D: refused (R287). -/
theorem presentBytes_outOfRange {s : State} {bs : List Byte} (h : s.d.port.busy = false)
    (hlen : s.d.port.capIn.toNat < bs.length) : presentBytes s bs = .refused .indexOutOfRange := by
  simp [presentBytes, h, Nat.not_le.2 hlen]

/-- HUF1_CONTAINER presents its encoding to unit D. -/
theorem exec_huf1Container (c : Container) (s : State) :
    exec (.huf1Container c) s = presentBytes s (encodeContainer c) := rfl

/-- Settles O44: what presenting bytes to unit D answers, busy, without room and with room. -/
theorem containerIsPlacedInIbufOfD : Obligations.ContainerIsPlacedInIbufOfD := by
  intro s c bs hbs
  have hexec : exec (.huf1Container c) s = presentBytes s bs := by
    rw [exec_huf1Container, Encoded.bytes.inj hbs]
  rw [hexec]
  refine ⟨presentBytes_busy bs, presentBytes_outOfRange, fun hidle hroom => ?_⟩
  refine ⟨_, presentBytes_eq_next.2 ⟨hidle, hroom, rfl⟩, rfl, ?_, ?_⟩
  · exact holdsBytes_writeList s.d.port.ibuf 0 bs
  · exact sameOutside_writeList s.d.port.ibuf 0 bs

end Sys2Proof.Machine
end

section
/-! PROOFS. The frequency scan (spec 40_frequency_scan.md R111, R112; 10_state.md R35, R36): E_SCAN leaves unit
E as the counter of the whole input, and no count is too large for its register. -/

namespace Sys2Proof.Machine

/-! What the counter of `pre` holds, as numbers. -/

/-- FREQ has room for the occurrences in fewer than 2^56 bytes. -/
theorem Counted.freq_toNat {u₀ u : UnitE} {pre : List Byte} (w : Counted u₀ pre u) (hl : pre.length < 2 ^ 56)
    (b : Byte) : (symRead u.freq b).toNat = pre.count b := by
  have hcount : pre.count b ≤ pre.length := List.count_le_length
  rw [w.freq, BitVec.toNat_ofNat, Nat.mod_eq_of_lt (by omega)]

/-- Nine bits have room for a number of distinct symbols. -/
theorem toNat_ofNat_dedup_length (bs : List Byte) :
    (BitVec.ofNat 9 bs.dedup.length).toNat = bs.dedup.length := by
  have hle := dedup_le bs
  rw [BitVec.toNat_ofNat, Nat.mod_eq_of_lt (by omega)]

theorem Counted.nsym_toNat {u₀ u : UnitE} {pre : List Byte} (w : Counted u₀ pre u) :
    u.nsym.toNat = pre.dedup.length := by
  rw [w.nsym, toNat_ofNat_dedup_length]

theorem Counted.seq_toNat {u₀ u : UnitE} {pre : List Byte} (w : Counted u₀ pre u) {b : Byte} (hb : b ∈ pre) :
    (symRead u.seq b).toNat = (pre.takeWhile (fun c => c ≠ b)).dedup.length := by
  rw [w.seq b hb, toNat_ofNat_dedup_length]

theorem Counted.idx_toNat {u₀ u : UnitE} {pre : List Byte} (w : Counted u₀ pre u) (hl : pre.length < 2 ^ 56) :
    u.idx.toNat = pre.length := by
  rw [w.idx, BitVec.toNat_ofNat, Nat.mod_eq_of_lt (by omega)]

/-- No symbol has been counted only where no byte has been read. -/
theorem Counted.nsym_eq_zero {u₀ u : UnitE} {pre : List Byte} (w : Counted u₀ pre u) :
    u.nsym = 0#9 ↔ pre = [] := by
  rw [← BitVec.toNat_inj, w.nsym_toNat, BitVec.toNat_ofNat, Nat.zero_mod, List.length_eq_zero_iff,
    List.dedup_eq_nil]

/-! The phase. -/

/-- Cleared counts are those of no bytes. -/
theorem counted_nil {u : UnitE} (hfreq : ∀ b, symRead u.freq b = 0#64) (hnsym : u.nsym = 0#9) :
    Counted u [] { u with idx := 0#64 } where
  freq := hfreq
  nsym := hnsym
  seq := nofun
  idx := rfl
  frame := rfl

/-- E_SCAN, from cleared counts: the unit has counted the whole input and goes on by whether there was any. -/
theorem phaseEScan_eq_ok {u : UnitE} {bs : List Byte} (hin : hasInput u.port bs) (hl : bs.length < 2 ^ 56)
    (hfreq : ∀ b, symRead u.freq b = 0#64) (hnsym : u.nsym = 0#9) :
    ∃ v, phaseEScan u = .ok (v.goto (if bs = [] then phESize else phELeaf)) ∧ Counted u bs v := by
  have hw : Counted u bs (scanBytes { u with idx := 0#64 } bs) := counted_scan (counted_nil hfreq hnsym) hl
  refine ⟨_, ?_, hw⟩
  simp only [phaseEScan, memRead_input hin, thenDo_val, hw.nsym_eq_zero]

/-- Settles O13: what the counter of the whole input holds. -/
theorem eScanCountsTheInput : Obligations.EScanCountsTheInput := by
  intro s bs hin hl hfreq hnsym
  obtain ⟨v, hv, hw⟩ := phaseEScan_eq_ok hin hl hfreq hnsym
  exact ⟨s.withE (v.goto (if bs = [] then phESize else phELeaf)), finishE_eq_next.2 (.inl ⟨_, hv, rfl⟩),
    hw.freq_toNat hl, hw.nsym_toNat, fun _ hb => hw.seq_toNat hb, hw.idx_toNat hl, rfl⟩

end Sys2Proof.Machine
end

section
/-! PROOFS. The tree build (spec 41_tree_build.md): E_LEAF leaves unit E with the leaf of every present symbol,
E_MERGE with the tree that its loop keeps, and E_SINGLE with the one-bit code. -/

namespace Sys2Proof.Machine

/-! The leaves (R122). -/

/-- Before the first symbol nothing has been made. -/
theorem leafed_nil (u : UnitE) : Leafed u [] u where
  inq := by simp
  node := fun _ _ => rfl
  leaf := nofun
  frame := rfl

/-- E_LEAF, with the sequence numbers of the present symbols in the arena: the leaves of all symbols are made,
and NSYM says what follows. -/
theorem phaseELeaf_eq_ok {u : UnitE} (h : ∀ b, symRead u.freq b ≠ 0#64 → (symRead u.seq b).toNat < 511) :
    ∃ v, phaseELeaf u = .ok (UnitE.goto { v with nnode := u.nsym } (if u.nsym = 1#9 then phESingle else phEMerge)) ∧
      Leafed u allSymbols v := by
  obtain ⟨v, hv, hleafed⟩ := leafLoop_spec (bs := allSymbols) (leafed_nil u) h
  have hnsym : v.nsym = u.nsym := by rw [hleafed.frame]
  refine ⟨v, ?_, hleafed⟩
  rw [phaseELeaf, hv, thenDo_val, hnsym]

/-- Settles O14: what `Leafed` says of the loop over all symbols. -/
theorem eLeafMakesTheLeaves : Obligations.ELeafMakesTheLeaves := by
  intro s harena
  obtain ⟨v, hv, hleafed⟩ := phaseELeaf_eq_ok harena
  refine ⟨_, finishE_eq_next.2 (.inl ⟨_, hv, rfl⟩), rfl, rfl, ?leaves, ?collection, ?others⟩
  case leaves => exact fun hdistinct b => hleafed.leaf hdistinct b (mem_allSymbols b)
  case collection => exact fun h => by simpa using hleafed.inq h
  case others => exact fun h hother => hleafed.node h fun b _ => hother b

/-! The merge (R123 to R126, R128). -/

/-- E_MERGE's loop, from a collection it is ready for, ends at one member, and every turn kept `Merged`. -/
theorem mergeLoop_eq_val {u : UnitE} (hready : mergeReady u) :
    ∃ v root, mergeLoop (members u.inq).length u = .val v ∧ Merged u v ∧ members v.inq = [root] := by
  obtain ⟨v, hv, hmerged, hone⟩ := merged_loop hready _ (merged_refl hready) (Nat.le_succ _)
  obtain ⟨root, hroot⟩ := List.length_eq_one_iff.1 hone
  exact ⟨v, root, hv, hmerged, hroot⟩

/-- E_MERGE as an instruction: ROOT is the one member that the loop ends at, and E_WALK follows. -/
theorem exec_eMerge_of_mergeReady {s : State} (hready : mergeReady s.e) :
    ∃ v root, exec .eMerge s = .next (s.withE (UnitE.goto { v with root := root } phEWalk)) ∧
      Merged s.e v ∧ members v.inq = [root] := by
  obtain ⟨v, root, hv, hmerged, hroot⟩ := mergeLoop_eq_val hready
  refine ⟨v, root, ?_, hmerged, hroot⟩
  have hphase : ∀ free, phaseEMerge free s.e = .ok (UnitE.goto { v with root := root } phEWalk) := by
    intro free
    rw [phaseEMerge, hv, thenDo_val, hroot, List.headD_cons]
  have hfree : (if (members s.e.inq).isEmpty then s.takeFree else s) = s :=
    if_neg (by simpa using hready.1)
  show State.finishE (if (members s.e.inq).isEmpty then s.takeFree else s) _ = _
  rw [hfree, hphase]
  rfl

/-- The one member at the end is the last node created, where one was. -/
theorem Merged.root_eq_last {u₀ u : UnitE} {root : Handle} (w : Merged u₀ u) (hroot : members u.inq = [root])
    (h : u₀.nnode.toNat < u.nnode.toNat) : root.toNat = u.nnode.toNat - 1 := by
  obtain ⟨g, hg, hlast⟩ := w.last h
  rw [hroot, List.mem_singleton] at hg
  rwa [← hg]

/-- A node that is in the collection no more is the child of exactly one created node (R128). -/
theorem Merged.existsUnique_parent {u₀ u : UnitE} (w : Merged u₀ u) {c : Handle}
    (hc : c ∈ members u₀.inq ∨ (u₀.nnode.toNat ≤ c.toNat ∧ c.toNat < u.nnode.toNat)) (hout : c ∉ members u.inq) :
    ∃! h : Handle, u₀.nnode.toNat ≤ h.toNat ∧ h.toNat < u.nnode.toNat ∧ isChild u.node c h := by
  have hparent : ∃ h : Handle, u₀.nnode.toNat ≤ h.toNat ∧ h.toNat < u.nnode.toNat ∧ isChild u.node c h := by
    by_contra hnone
    exact hout ((w.free c hc).2 fun g hlow hhigh hchild => hnone ⟨g, hlow, hhigh, hchild⟩)
  obtain ⟨h, hlow, hhigh, hchild⟩ := hparent
  refine ⟨h, ⟨hlow, hhigh, hchild⟩, ?_⟩
  rintro g ⟨hlow', hhigh', hchild'⟩
  exact w.one c g h hlow' hhigh' hlow hhigh hchild' hchild

/-- A created node joins the two least of the nodes that had no parent yet (R124). -/
theorem Merged.joins_two_least {u₀ u : UnitE} (w : Merged u₀ u) {h l r : Handle} {f : Word64}
    (hlow : u₀.nnode.toNat ≤ h.toNat) (hhigh : h.toNat < u.nnode.toNat)
    (hread : nodeRead u.node h = some (.internal f l r)) :
    keyBefore u.node l r ∧
      ∀ c : Handle, (c ∈ members u₀.inq ∨ (u₀.nnode.toNat ≤ c.toNat ∧ c.toNat < h.toNat)) → c ≠ l → c ≠ r →
        (∀ g : Handle, u₀.nnode.toNat ≤ g.toNat → g.toNat < h.toNat → ¬ isChild u.node c g) →
        keyBefore u.node l c ∧ keyBefore u.node r c := by
  obtain ⟨f', l', r', nl, nr, hread', -, hl, hr, -, -, -, hless, hleast⟩ := w.made h hlow hhigh
  obtain ⟨rfl, rfl, rfl⟩ : f' = f ∧ l' = l ∧ r' = r := by simpa using hread'.symm.trans hread
  have harena : h.toNat < 511 := by have := u.nnode.isLt; omega
  have hl' : l'.toNat < 511 := hl.trans harena
  have hr' : r'.toNat < 511 := hr.trans harena
  refine ⟨(keyBefore_iff hl' hr').2 hless, fun c hc hcl hcr hfree => ?_⟩
  have hc' : c.toNat < 511 := hc.elim members_lt fun hmade => hmade.2.trans harena
  obtain ⟨hlc, hrc⟩ := hleast c hc hcl hcr hfree
  exact ⟨(keyBefore_iff hl' hc').2 hlc, (keyBefore_iff hr' hc').2 hrc⟩

/-- Settles O15: what `Merged` says of the loop where one member is left. -/
theorem eMergeBuildsTheTree : Obligations.EMergeBuildsTheTree := by
  intro s hready
  obtain ⟨v, root, hexec, hmerged, hroot⟩ := exec_eMerge_of_mergeReady hready
  have hcount : v.nnode.toNat + 1 = s.e.nnode.toNat + (members s.e.inq).length := by
    simpa [hroot] using hmerged.count
  refine ⟨_, hexec, Nat.eq_sub_of_add_eq hcount, hroot, ?last, rfl, hmerged.old, ?made, ?parent⟩
  case last => exact fun htwo => hmerged.root_eq_last hroot (by omega)
  case made =>
    intro h hlow hhigh
    obtain ⟨f, l, r, nl, nr, hread, hne, hl, hr, hnl, hnr, hsum, -⟩ := hmerged.made h hlow hhigh
    exact ⟨f, l, r, nl, nr, hread, hne, hl, hr, hnl, hnr, hsum⟩
  case parent =>
    intro c hc hne
    exact hmerged.existsUnique_parent hc (by rwa [hroot, List.mem_singleton])

/-- Settles O16: each created node was made from the two least members. -/
theorem eMergeJoinsTheTwoLeast : Obligations.EMergeJoinsTheTwoLeast := by
  intro s t hready ht h f l r hlow hhigh hread
  obtain ⟨v, root, hexec, hmerged, -⟩ := exec_eMerge_of_mergeReady hready
  obtain rfl : _ = t := Host.Outcome.next.inj (hexec.symm.trans ht)
  exact hmerged.joins_two_least hlow hhigh hread

/-! The single symbol (R127). -/

/-- Settles O17: NODE[0] is a leaf, so E_SINGLE writes its symbol's code. -/
theorem eSingleGivesTheOneBitCode : Obligations.ESingleGivesTheOneBitCode := by
  intro s b f hleaf
  show s.finishE (phaseESingle s.e) = _
  rw [phaseESingle, hleaf]
  rfl

end Sys2Proof.Machine
end

section
/-! PROOFS. The tree walk (spec 42_code_generation.md R136, R137): what E_WALK's visit of a node leaves of the
LEN and TPAT of each symbol. -/

namespace Sys2Proof.Machine

/-! The leaves below a node. -/

theorem leafAt_of_leaf {node : Vector Node 511} {h : Handle} {b c : Byte} {f : Word64} {q : List Bool}
    (hn : nodeRead node h = some (.leaf b f)) : LeafAt node h q c ↔ q = [] ∧ c = b := by
  constructor
  · intro hleaf
    cases hleaf with
    | here hread => cases hn.symm.trans hread; exact ⟨rfl, rfl⟩
    | left hread _ => cases hn.symm.trans hread
    | right hread _ => cases hn.symm.trans hread
  · rintro ⟨rfl, rfl⟩
    exact .here hn

theorem leafAt_of_internal {node : Vector Node 511} {h l r : Handle} {b : Byte} {f : Word64} {q : List Bool}
    (hn : nodeRead node h = some (.internal f l r)) :
    LeafAt node h q b ↔ (∃ p, q = false :: p ∧ LeafAt node l p b) ∨ ∃ p, q = true :: p ∧ LeafAt node r p b := by
  constructor
  · intro hleaf
    cases hleaf with
    | here hread => cases hn.symm.trans hread
    | left hread hl => cases hn.symm.trans hread; exact .inl ⟨_, rfl, hl⟩
    | right hread hr => cases hn.symm.trans hread; exact .inr ⟨_, rfl, hr⟩
  · rintro (⟨p, rfl, hl⟩ | ⟨p, rfl, hr⟩)
    · exact .left hn hl
    · exact .right hn hr

/-- A path to a leaf is no longer than the tree is deep. -/
theorem LeafAt.length_le {node : Vector Node 511} {n : Nat} {h : Handle} {p : List Bool} {b : Byte}
    (hleaf : LeafAt node h p b) (ht : TreeWithin node n h) : p.length ≤ n := by
  induction ht generalizing p with
  | leaf hn =>
    obtain ⟨rfl, -⟩ := (leafAt_of_leaf hn).1 hleaf
    exact Nat.zero_le _
  | internal hn _ _ ihl ihr =>
    obtain ⟨q, rfl, hl⟩ | ⟨q, rfl, hr⟩ := (leafAt_of_internal hn).1 hleaf
    · exact Nat.succ_le_succ (ihl hl)
    · exact Nat.succ_le_succ (ihr hr)

/-! The visit. -/

/-- From unit u to unit v, symbol b has been given the length and the path of a leaf below node h, which stands
at path p; or there is no leaf of b below h, and b has kept both. -/
def Visited (u v : UnitE) (h : Handle) (p : List Bool) (b : Byte) : Prop :=
  (∃ q, LeafAt u.node h q b ∧
    symRead v.len b = BitVec.ofNat 8 (p ++ q).length ∧ symRead v.tpat b = p ++ q) ∨
  ((∀ q, ¬ LeafAt u.node h q b) ∧ symRead v.len b = symRead u.len b ∧ symRead v.tpat b = symRead u.tpat b)

/-- The writes at a leaf are those of its symbol. -/
theorem visited_leaf {u : UnitE} {h : Handle} {s : Byte} {f : Word64} (hn : nodeRead u.node h = some (.leaf s f))
    (p : List Bool) (b : Byte) :
    Visited u { u with len := symWrite u.len s (BitVec.ofNat 8 p.length), tpat := symWrite u.tpat s p } h p b := by
  by_cases hb : b = s
  · subst hb
    exact .inl ⟨[], .here hn, by simp, by simp⟩
  · exact .inr ⟨fun q hq => hb ((leafAt_of_leaf hn).1 hq).2, symRead_symWrite_other _ _ _ _ hb,
      symRead_symWrite_other _ _ _ _ hb⟩

/-- A visit to the left child and one to the right child after it are a visit to their parent: what the right
one has found stands, else what the left one has. -/
theorem Visited.of_children {u v w : UnitE} {h l r : Handle} {f : Word64} {p : List Bool} {b : Byte}
    (hn : nodeRead u.node h = some (.internal f l r)) (hnode : v.node = u.node)
    (hl : Visited u v l (p ++ [false]) b) (hr : Visited v w r (p ++ [true]) b) : Visited u w h p b := by
  simp only [Visited, hnode, List.append_assoc, List.singleton_append] at hl hr
  obtain ⟨q, hleaf, hlen, htpat⟩ | ⟨hnone, hlen, htpat⟩ := hr
  · exact .inl ⟨true :: q, .right hn hleaf, hlen, htpat⟩
  rw [← hlen, ← htpat] at hl
  obtain ⟨q, hleaf, hlen', htpat'⟩ | ⟨hnone', hlen', htpat'⟩ := hl
  · exact .inl ⟨false :: q, .left hn hleaf, hlen', htpat'⟩
  · refine .inr ⟨fun q hq => ?_, hlen', htpat'⟩
    obtain ⟨q', -, hq'⟩ | ⟨q', -, hq'⟩ := (leafAt_of_internal hn).1 hq
    · exact hnone' q' hq'
    · exact hnone q' hq'

/-- The visit of a tree that is not too deep completes and records every leaf of it. -/
theorem visit_eq_val {u : UnitE} {n : Nat} {h : Handle} (ht : TreeWithin u.node n h) (p : List Bool) :
    ∃ v, visit (n + 1) u h p = .val v ∧ ∀ b, Visited u v h p b := by
  generalize hnode : u.node = node at ht
  induction ht generalizing u p with
  | leaf hn =>
    rw [← hnode] at hn
    exact ⟨_, by rw [visit, hn], visited_leaf hn p⟩
  | internal hn _ _ ihl ihr =>
    rw [← hnode] at hn
    obtain ⟨v, hv, hleft⟩ := ihl (p ++ [false]) hnode
    have hkept : v.node = u.node := by rw [visit_frame hv]
    obtain ⟨w, hw, hright⟩ := ihr (p ++ [true]) (hkept.trans hnode)
    refine ⟨w, ?_, fun b => (hleft b).of_children hn hkept (hright b)⟩
    rw [visit, hn]
    exact andThen_eq_val.2 ⟨v, hv, hw⟩

/-- Settles O18: the visit of ROOT, whose paths have at most 255 edges and so fit LEN. -/
theorem eWalkRecordsDepthsAndPaths : Obligations.EWalkRecordsDepthsAndPaths := by
  intro s htree
  obtain ⟨v, hv, hvisited⟩ := visit_eq_val htree []
  have hphase : phaseEWalk s.e = .ok (v.goto phESort) := by rw [phaseEWalk, hv, thenDo_val]
  refine ⟨s.withE (v.goto phESort), finishE_eq_next.2 (.inl ⟨_, hphase, rfl⟩), rfl, ?oneLeaf, ?noLeaf⟩
  case oneLeaf =>
    intro b p hleaf hunique
    obtain ⟨q, hq, hlen, htpat⟩ | ⟨hnone, -⟩ := hvisited b
    · obtain rfl := hunique q hq
      have hdepth := hq.length_le htree
      refine ⟨?_, htpat⟩
      rw [withE_e, gotoE_len, hlen, List.nil_append, BitVec.toNat_ofNat, Nat.mod_eq_of_lt (by omega)]
    · exact absurd hleaf (hnone p)
  case noLeaf =>
    intro b hnone
    obtain ⟨q, hq, -⟩ | ⟨-, hkept⟩ := hvisited b
    · exact absurd hq (hnone q)
    · exact hkept

end Sys2Proof.Machine
end

section
/-! PROOFS. The sort (spec 42_code_generation.md R139 to R141): what stands in the list that E_SORT writes to
CCL, in which order, and that it fits. -/

namespace Sys2Proof.Machine

/-- `for s in 0..255` goes up. -/
theorem allSymbols_ascend : allSymbols.Pairwise (fun a b => a.toNat < b.toNat) := by
  rw [allSymbols, List.pairwise_map]
  refine List.pairwise_lt_range.imp_of_mem ?_
  intro i j hi hj hij
  rw [List.mem_range] at hi hj
  simpa [Nat.mod_eq_of_lt hi, Nat.mod_eq_of_lt hj] using hij

/-- The symbols of one length, in the order in which E_SORT takes them (R140). -/
theorem sortedEntries_eq (len : SymFile Byte) :
    sortedEntries len = (List.range 255).flatMap fun k =>
      ((allSymbols.map fun b => (⟨b, symRead len b⟩ : Entry)).filter (fun e => e.len ≠ 0#8)).filter
        (fun e => e.len.toNat = k + 1) := by
  rw [sortedEntries, toList_eq_map, List.zipWith_map_right, List.zipWith_self]

theorem mem_sortedEntries {len : SymFile Byte} {e : Entry} :
    e ∈ sortedEntries len ↔ e.len ≠ 0#8 ∧ symRead len e.sym = e.len := by
  simp only [sortedEntries_eq, List.mem_flatMap, List.mem_filter, List.mem_map, mem_allSymbols, true_and,
    List.mem_range, decide_eq_true_eq]
  constructor
  · rintro ⟨k, -, ⟨⟨b, rfl⟩, hne⟩, -⟩
    exact ⟨hne, rfl⟩
  · rintro ⟨hne, hlen⟩
    have hpos : e.len.toNat ≠ 0 := fun h => hne (BitVec.eq_of_toNat_eq h)
    have hlt := e.len.isLt
    exact ⟨e.len.toNat - 1, by omega, ⟨⟨e.sym, by rw [hlen]⟩, hne⟩, by omega⟩

theorem sortedEntries_ascend (len : SymFile Byte) : (sortedEntries len).Pairwise Entry.Before := by
  rw [sortedEntries_eq, List.pairwise_flatMap]
  constructor
  · intro k _
    have hsym : (allSymbols.map fun b => (⟨b, symRead len b⟩ : Entry)).Pairwise
        (fun a b => a.sym.toNat < b.sym.toNat) := List.pairwise_map.2 allSymbols_ascend
    refine ((hsym.filter _).filter _).imp_of_mem ?_
    intro a b ha hb hab
    have hla : a.len.toNat = k + 1 := by simpa using (List.mem_filter.1 ha).2
    have hlb : b.len.toNat = k + 1 := by simpa using (List.mem_filter.1 hb).2
    exact .inr ⟨hla.trans hlb.symm, hab⟩
  · refine List.pairwise_lt_range.imp ?_
    intro j k hjk a ha b hb
    have hla : a.len.toNat = j + 1 := by simpa using (List.mem_filter.1 ha).2
    have hlb : b.len.toNat = k + 1 := by simpa using (List.mem_filter.1 hb).2
    exact .inl (by omega)

/-- The order is strict. -/
theorem nodup_of_ascend {es : List Entry} (h : es.Pairwise Entry.Before) : es.Nodup :=
  h.imp fun hab e => by subst e; unfold Entry.Before at hab; omega

/-- Every symbol has one entry at most, so the list fits the 256 entries of CCL. -/
theorem length_sortedEntries_le (len : SymFile Byte) : (sortedEntries len).length ≤ 256 := by
  have hsyms : ((sortedEntries len).map Entry.sym).Nodup := by
    refine List.Nodup.map_on ?_ (nodup_of_ascend (sortedEntries_ascend len))
    rintro ⟨s, l⟩ ha ⟨_, l'⟩ hb (rfl : s = _)
    have hlen : l = l' := (mem_sortedEntries.1 ha).2.symm.trans (mem_sortedEntries.1 hb).2
    rw [hlen]
  have hsub : (sortedEntries len).map Entry.sym ⊆ allSymbols := fun b _ => mem_allSymbols b
  simpa [allSymbols] using (hsyms.subperm hsub).length_le

/-- Settles O19: the list is written to CCL from its first entry on. -/
theorem eSortListsEverySymbolInOrder : Obligations.ESortListsEverySymbolInOrder := by
  intro s
  obtain ⟨hread, hkept⟩ := cclWriteList_read s.e.ccl 0 (sortedEntries s.e.len)
    (by simpa using length_sortedEntries_le s.e.len)
  refine ⟨_, sortedEntries s.e.len, finishE_eq_next.2 (.inl ⟨_, rfl, rfl⟩), rfl, sortedEntries_ascend _,
    fun _ => mem_sortedEntries, fun i e he => ?_, fun i hi => hkept i (.inr (by omega))⟩
  simpa using hread i e he

end Sys2Proof.Machine
end

section
/-! PROOFS. The canonical codes (spec 42_code_generation.md R142 to R147): E_CANON and D_CANON leave what the
regeneration over CCL leaves, and no codeword that it assigns begins another. -/

namespace Sys2Proof.Machine

/-! The two phases. -/

/-- E_CANON answers a next state exactly where the regeneration gives every entry its code. -/
theorem exec_eCanon_eq_next {s t : State} {es : List Entry} (hes : cclPrefix s.e.ccl s.e.nsym.toNat = some es) :
    exec .eCanon s = .next t ↔ (canonLoop s.e.code 0#256 none es).2.2 = .done ∧
      t = s.withE (UnitE.goto { s.e with
        code := (canonLoop s.e.code 0#256 none es).1, run := (canonLoop s.e.code 0#256 none es).2.1 } phESize) := by
  show s.finishE (phaseECanon s.e) = .next t ↔ _
  rw [phaseECanon, hes, ofOption_some, thenDo_val]
  obtain ⟨code, run, ending⟩ := canonLoop s.e.code 0#256 none es
  cases ending <;> simp [canonEndE, State.finishE, eq_comm]

/-- D_CANON, also where it ends in InvalidCode, leaves the codes and the RUN of the regeneration. -/
theorem exec_dCanon_writes {s t : State} {es : List Entry} (hes : cclPrefix s.d.ccl s.d.symcnt.toNat = some es)
    (ht : exec .dCanon s = .next t) :
    t.d.code = (canonLoop s.d.code 0#256 none es).1 ∧ t.d.run = (canonLoop s.d.code 0#256 none es).2.1 := by
  change s.finishD (phaseDCanon s.d) = .next t at ht
  rw [phaseDCanon, hes, ofOption_some, thenDo_val] at ht
  generalize canonLoop s.d.code 0#256 none es = r at ht ⊢
  obtain ⟨code, run, ending⟩ := r
  cases ending with
  | done =>
    rw [canonEndD] at ht
    split at ht <;> cases ht <;> exact ⟨rfl, rfl⟩
  | overSubscribed => cases ht; exact ⟨rfl, rfl⟩
  | descends => cases ht

/-- Settles O20: `CanonFacts` of the regeneration over CCL. -/
theorem eCanonAssignsTheCanonicalCodes : Obligations.ECanonAssignsTheCanonicalCodes := by
  intro s es hes hasc hnodup hsum
  have facts := canon_facts es s.e.code hasc
  have hsum' : 0 + kraft es ≤ 2 ^ 255 := by rwa [Nat.zero_add]
  have hdone := facts.ends.trans (if_pos hsum')
  refine ⟨_, (exec_eCanon_eq_next hes).2 ⟨hdone, rfl⟩, rfl, ?codes, ?run, facts.others⟩
  case codes => exact fun i e he => (facts.codes hsum' hnodup i e he).trans (Nat.zero_add _)
  case run => exact fun e he => (facts.run hsum' e he).trans (Nat.zero_add _)

/-- Settles O22: the regeneration does not look at what CODE held before. -/
theorem bothUnitsAssignTheSameCodes : Obligations.BothUnitsAssignTheSameCodes := by
  intro s t t' es hesE hesD hE hD
  obtain ⟨hdone, rfl⟩ := (exec_eCanon_eq_next hesE).1 hE
  obtain ⟨hcode, hrun⟩ := exec_dCanon_writes hesD hD
  obtain ⟨hsame, hcodes⟩ := canonLoop_code_irrelevant es s.e.code s.d.code 0#256 none
  refine ⟨?_, fun e he => ?_⟩
  · rw [hrun, ← hsame]
    rfl
  · rw [hcode]
    exact hcodes hdone e.sym (.inl (List.mem_map_of_mem he))

/-! No codeword begins another (R147). -/

/-- A codeword that begins another has the other's value within its own range at 255 bits. -/
theorem lt_of_codeBits_prefix {a b : CodeWord} {la lb : Nat} (h : codeBits a la <+: codeBits b lb)
    (ha : a.toNat < 2 ^ la) (hb : b.toNat < 2 ^ lb) (hlb : lb ≤ 255) :
    b.toNat * 2 ^ (255 - lb) < (a.toNat + 1) * 2 ^ (255 - la) := by
  have hle := (codeBits_prefix h).1
  have hquot : b.toNat < (a.toNat + 1) * 2 ^ (lb - la) := by
    rw [div_of_codeBits_prefix h ha hb, Nat.mul_comm]
    exact Nat.lt_mul_div_succ _ (Nat.two_pow_pos _)
  calc b.toNat * 2 ^ (255 - lb)
      < (a.toNat + 1) * 2 ^ (lb - la) * 2 ^ (255 - lb) := Nat.mul_lt_mul_of_pos_right hquot (Nat.two_pow_pos _)
    _ = (a.toNat + 1) * 2 ^ (255 - la) := by
        rw [Nat.mul_assoc, ← Nat.pow_add]
        congr 2
        omega

section

variable {code : SymFile CodeWord} {es : List Entry} {r : SymFile CodeWord × RunWord × CanonEnd}
  {i j : Nat} {a b : Entry}

/-- The codes stand in the order of the table with room between them: at 255 bits, a codeword and everything that
it begins lies below every later codeword. -/
theorem CanonFacts.code_succ_le (facts : CanonFacts code 0 es r) (hsum : 0 + kraft es ≤ 2 ^ 255)
    (hnodup : (es.map Entry.sym).Nodup) (ha : es[i]? = some a) (hb : es[j]? = some b) (hij : i < j) :
    ((symRead r.1 a.sym).toNat + 1) * 2 ^ (255 - a.len.toNat) ≤
      (symRead r.1 b.sym).toNat * 2 ^ (255 - b.len.toNat) := by
  calc ((symRead r.1 a.sym).toNat + 1) * 2 ^ (255 - a.len.toNat)
      = kraft (es.take (i + 1)) := by
        rw [Nat.add_mul, Nat.one_mul, facts.codes hsum hnodup i a ha, Nat.zero_add, kraft_take_succ es i a ha]
    _ ≤ kraft (es.take j) := kraft_take_mono es hij
    _ = (symRead r.1 b.sym).toNat * 2 ^ (255 - b.len.toNat) := by
        rw [facts.codes hsum hnodup j b hb, Nat.zero_add]

/-- No codeword begins a later one. -/
theorem CanonFacts.not_prefix_later (facts : CanonFacts code 0 es r) (hsum : 0 + kraft es ≤ 2 ^ 255)
    (hnodup : (es.map Entry.sym).Nodup) (ha : es[i]? = some a) (hb : es[j]? = some b) (hij : i < j) :
    ¬ codeBits (symRead r.1 a.sym) a.len.toNat <+: codeBits (symRead r.1 b.sym) b.len.toNat := by
  intro hprefix
  have hfits := facts.fits hsum hnodup
  have hbelow := lt_of_codeBits_prefix hprefix (hfits a (List.mem_of_getElem? ha)) (hfits b (List.mem_of_getElem? hb))
    (Nat.le_of_lt_succ b.len.isLt)
  exact Nat.not_le_of_lt hbelow (facts.code_succ_le hsum hnodup ha hb hij)

end

/-- Settles O21: of two entries the earlier one's codeword is no longer than the later one's and does not begin it,
so neither begins the other. -/
theorem canonicalCodesArePrefixFree : Obligations.CanonicalCodesArePrefixFree := by
  intro s t es hes hasc hnodup ht a ha b hb hprefix
  obtain ⟨hdone, rfl⟩ := (exec_eCanon_eq_next hes).1 ht
  have facts := canon_facts es s.e.code hasc
  have hsum : 0 + kraft es ≤ 2 ^ 255 := by
    by_contra hover
    cases hdone.symm.trans (facts.ends.trans (if_neg hover))
  obtain ⟨i, hi⟩ := List.mem_iff_getElem?.1 ha
  obtain ⟨j, hj⟩ := List.mem_iff_getElem?.1 hb
  rcases Nat.lt_trichotomy i j with hij | rfl | hji
  · exact absurd hprefix (facts.not_prefix_later hsum hnodup hi hj hij)
  · exact Option.some.inj (hi.symm.trans hj)
  · have hlen : b.len.toNat ≤ a.len.toNat := by
      obtain ⟨hj', rfl⟩ := List.getElem?_eq_some_iff.1 hj
      obtain ⟨hi', rfl⟩ := List.getElem?_eq_some_iff.1 hi
      exact List.pairwise_iff_getElem.1 hasc.2 j i hj' hi' hji
    have hequal := hprefix.eq_of_length_le (by simpa using hlen)
    exact absurd (hequal ▸ List.prefix_rfl) (facts.not_prefix_later hsum hnodup hj hi hji)

end Sys2Proof.Machine
end

section
/-! PROOFS. The end of the payload (spec 44_encoder.md R181, 43_bitstream.md R159): E_FLUSH writes the byte that
is not full, where there is one. -/

namespace Sys2Proof.Machine

/-- Where Flush answers a unit, E_FLUSH leaves that unit and E_FIN follows. -/
theorem exec_eFlush_of_flushBits {s : State} {v : UnitE} (h : flushBits s.e = .val v) :
    exec .eFlush s = .next (s.withE (v.goto phEFin)) :=
  finishE_eq_next.2 (.inl ⟨_, thenDo_eq_ok.2 ⟨v, h, rfl⟩, rfl⟩)

/-- Settles O28: the two cases of Flush. WPTR does not wrap, since the byte fits below MAX_OUT. -/
theorem eFlushWritesThePartialByte : Obligations.EFlushWritesThePartialByte := by
  intro s
  constructor
  · intro hempty
    exact exec_eFlush_of_flushBits (flushBits_eq_val.2 (.inl ⟨hempty, rfl⟩))
  · intro hbits hroom
    have hwptr : (s.e.wptr + 1#64).toNat = s.e.wptr.toNat + 1 :=
      BitVec.toNat_add_of_lt (Nat.lt_of_le_of_lt hroom s.e.port.capOut.isLt)
    exact ⟨_, exec_eFlush_of_flushBits (flushBits_eq_val.2 (.inr ⟨hbits, hroom, rfl⟩)), rfl, rfl, rfl, hwptr, rfl,
      read_write_same _ _ _⟩

end Sys2Proof.Machine
end

section
/-! PROOFS. Entering and leaving ENC (spec 44_encoder.md R171, R175, R182): E_INIT, E_SIZE and E_FIN each leave one
known next state. -/

namespace Sys2Proof.Machine

/-- Settles O12: E_INIT's two branches. -/
theorem eInitChecksAndClears : Obligations.EInitChecksAndClears := by
  intro s
  constructor
  · intro hlarge
    exact finishE_eq_next.2 (.inr ⟨_, _, if_pos hlarge, rfl⟩)
  · intro hfits
    exact finishE_eq_next.2 (.inl ⟨_, if_neg (Nat.not_lt.2 hfits), rfl⟩)

/-- The payload's bits, symbol by symbol (42_code_generation.md R150). -/
theorem payloadBits_eq_sum (freq : SymFile Word64) (len : SymFile Byte) :
    payloadBits freq len = (allSymbols.map fun b => (symRead freq b).toNat * (symRead len b).toNat).sum := by
  rw [payloadBits, toList_eq_map freq, toList_eq_map len, List.zipWith_map, List.zipWith_self]

/-- Settles O23: the sizes are those that E_SIZE computes, and its check has two branches. -/
theorem eSizeComputesAndChecks : Obligations.ESizeComputesAndChecks := by
  intro s pbc osize hpbc hosize
  rw [← payloadBits_eq_sum] at hpbc
  rw [← ceil8_eq] at hosize
  subst hpbc hosize
  constructor
  · intro hlarge
    exact finishE_eq_next.2 (.inr ⟨_, _, if_pos hlarge, rfl⟩)
  · intro hfits
    exact finishE_eq_next.2 (.inl ⟨_, if_neg (Nat.not_lt.2 hfits), rfl⟩)

/-- Settles O29: the completion with OSIZE bytes, of which `noGainFlag` is the test against IN_LEN. -/
theorem eFinCompletesTheCommand : Obligations.EFinCompletesTheCommand := fun _ => rfl

end Sys2Proof.Machine
end

section
/-! PROOFS. The container's fields before the payload (spec 44_encoder.md R177 to R179): E_HDR, E_TBL and E_PBC each
store one run of bytes to OBUF. -/

namespace Sys2Proof.Machine

/-! What a memory holds. -/

/-- Two runs of bytes, one after the other. -/
theorem holdsBytes_append {m : Memory} {a : Nat} {xs ys : List Byte} :
    holdsBytes m a (xs ++ ys) ↔ holdsBytes m a xs ∧ holdsBytes m (a + xs.length) ys := by
  constructor
  · intro h
    refine ⟨fun i b hb => h i b ?_, fun i b hb => ?_⟩
    · rw [List.getElem?_append_left (List.getElem?_eq_some_iff.1 hb).1, hb]
    · rw [Nat.add_assoc]
      exact h _ b (by rwa [List.getElem?_append_right (Nat.le_add_right ..), Nat.add_sub_cancel_left])
  · rintro ⟨hx, hy⟩ i b hb
    rcases Nat.lt_or_ge i xs.length with hi | hi
    · exact hx i b (by rwa [List.getElem?_append_left hi] at hb)
    · rw [List.getElem?_append_right hi] at hb
      rw [show a + i = a + xs.length + (i - xs.length) by omega]
      exact hy _ b hb

/-- The bytes of a big-endian number that a memory holds (R66). -/
theorem read_of_holds_be {m : Memory} {a n v i : Nat} (h : holdsBytes m a (beBytes n v)) (hi : i < n) :
    Memory.read m (a + i) = some (BitVec.ofNat 8 (v / 2 ^ (8 * (n - 1 - i)))) :=
  h i _ (get_beBytes n v i hi)

/-- WPTR does not wrap where the bytes stored from it on end below MAX_OUT. -/
theorem toNat_add_of_fits {w cap : Word64} {n : Nat} (h : w.toNat + n ≤ cap.toNat) :
    (w + BitVec.ofNat 64 n).toNat = w.toNat + n := by
  have hcap := cap.isLt
  rw [BitVec.toNat_add, BitVec.toNat_ofNat, Nat.add_mod_mod, Nat.mod_eq_of_lt (by omega)]

/-! The header (R177). -/

/-- E_HDR's 14 bytes: Magic, OriginalLength, SymbolCount. -/
def headerBytes (u : UnitE) : List Byte :=
  Config.magic ++ beBytes 8 u.port.inLen.toNat ++ beBytes 2 u.nsym.toNat

/-- E_HDR, where OBUF has 14 bytes: its three stores are one run of bytes from OBUF[0] on. -/
theorem phaseEHdr_eq_ok {u : UnitE} (hroom : 14 ≤ u.port.capOut.toNat) :
    phaseEHdr u = .ok (UnitE.goto { u with
      port := { u.port with obuf := Memory.writeList u.port.obuf 0 (headerBytes u) }, wptr := 14#64 } phETbl) := by
  have hmagic : Config.magic.length = 4 := rfl
  rw [headerBytes, writeList_append, writeList_append, List.length_append, length_beBytes, hmagic]
  refine thenDo_eq_ok.2 ⟨_, memWrite_eq_val.2 ⟨?_, rfl⟩, thenDo_eq_ok.2 ⟨_, memWrite_eq_val.2 ⟨?_, rfl⟩,
    thenDo_eq_ok.2 ⟨_, memWrite_eq_val.2 ⟨?_, rfl⟩, rfl⟩⟩⟩ <;> simp only [length_beBytes, hmagic] <;> omega

/-- A memory that holds the header holds its three fields, each big-endian. -/
theorem read_of_holds_header {m : Memory} {u : UnitE} (h : holdsBytes m 0 (headerBytes u)) :
    holdsBytes m 0 Config.magic ∧
      (∀ i, i < 8 → Memory.read m (4 + i) = some (BitVec.ofNat 8 (u.port.inLen.toNat / 2 ^ (8 * (7 - i))))) ∧
      Memory.read m 12 = some (BitVec.ofNat 8 (u.nsym.toNat / 256)) ∧
      Memory.read m 13 = some (BitVec.ofNat 8 u.nsym.toNat) := by
  obtain ⟨hfront, hcount⟩ := holdsBytes_append.1 h
  obtain ⟨hmagic, hlen⟩ := holdsBytes_append.1 hfront
  rw [List.length_append, length_beBytes] at hcount
  have hhigh : Memory.read m 12 = _ := read_of_holds_be (i := 0) hcount (by decide)
  have hlow : Memory.read m 13 = _ := read_of_holds_be (i := 1) hcount (by decide)
  exact ⟨hmagic, fun i hi => read_of_holds_be hlen hi, hhigh, by simpa using hlow⟩

/-- Settles O24: the memory holds the header's bytes. -/
theorem eHdrWritesTheHeader : Obligations.EHdrWritesTheHeader := by
  intro s hroom
  exact ⟨_, finishE_eq_next.2 (.inl ⟨_, phaseEHdr_eq_ok hroom, rfl⟩), rfl, rfl,
    read_of_holds_header (holdsBytes_writeList _ _ _)⟩

/-! The table (R178). -/

/-- E_TBL, where OBUF has room for the table. -/
theorem phaseETbl_eq_ok {u : UnitE} {es : List Entry} (hes : cclPrefix u.ccl u.nsym.toNat = some es)
    (hroom : u.wptr.toNat + 2 * es.length ≤ u.port.capOut.toNat) :
    phaseETbl u = .ok (UnitE.goto { u with
      port := { u.port with obuf := Memory.writeList u.port.obuf u.wptr.toNat (tableBytes es) },
      wptr := u.wptr + BitVec.ofNat 64 (2 * es.length) } phEPbc) := by
  rw [phaseETbl, hes, ofOption_some, thenDo_val, emitEntries_spec u es hroom, thenDo_val]

/-- Settles O25: the bytes stored are the table's, two for each entry. -/
theorem eTblWritesTheTable : Obligations.ETblWritesTheTable := by
  intro s es hes hroom
  refine ⟨_, finishE_eq_next.2 (.inl ⟨_, phaseETbl_eq_ok hes hroom, rfl⟩), toNat_add_of_fits hroom, rfl,
    fun i e he => ?_⟩
  have htable := holdsBytes_writeList s.e.port.obuf s.e.wptr.toNat (tableBytes es)
  obtain ⟨hsym, hlen⟩ := get_tableBytes es i e he
  exact ⟨htable _ _ hsym, htable _ _ hlen⟩

/-! The bit count (R179). -/

/-- E_PBC, where OBUF has 8 bytes from WPTR on. -/
theorem phaseEPbc_eq_ok {u : UnitE} (hroom : u.wptr.toNat + 8 ≤ u.port.capOut.toNat) :
    phaseEPbc u = .ok (UnitE.goto { u with
      port := { u.port with obuf := Memory.writeList u.port.obuf u.wptr.toNat (beBytes 8 u.pbc.toNat) },
      wptr := u.wptr + 8#64 } phEPack) :=
  thenDo_eq_ok.2 ⟨_, emit_eq_val.2 ⟨by rwa [length_beBytes], by rw [length_beBytes]⟩, rfl⟩

/-- Settles O26: the eight bytes stored are those of PBC. -/
theorem ePbcWritesTheBitCount : Obligations.EPbcWritesTheBitCount := by
  intro s hroom
  exact ⟨_, finishE_eq_next.2 (.inl ⟨_, phaseEPbc_eq_ok hroom, rfl⟩), toNat_add_of_fits hroom, rfl,
    fun i hi => read_of_holds_be (holdsBytes_writeList _ _ _) hi⟩

end Sys2Proof.Machine
end

section
/-! PROOFS. The decoder's fixed fields (spec 45_decoder.md R190 to R194, R197 to R200): D_INIT, D_MAGIC, D_OLEN,
D_SCNT, D_PBC and D_SIZE each leave one known next state. -/

namespace Sys2Proof.Machine

/-! What is left of the input, and what is read of it. -/

/-- Fewer than n bytes are left (R190). -/
theorem remBytes_lt_iff {u : UnitD} {n : Nat} (hn : 0 < n) :
    remBytes u < n ↔ u.port.inLen.toNat < u.rptr.toNat + n := by
  unfold remBytes
  omega

/-- At least n bytes are left. -/
theorem not_remBytes_lt {u : UnitD} {n : Nat} (h : u.rptr.toNat + n ≤ u.port.inLen.toNat) : ¬ remBytes u < n := by
  unfold remBytes
  omega

/-- Bytes that IBUF holds within the input are read as they are (20_memory.md R64). -/
theorem memRead_of_holds {p : Port} {a n : Nat} {bs : List Byte} (hin : a + n ≤ p.inLen.toNat)
    (hcap : p.inLen.toNat ≤ p.capIn.toNat) (hlen : bs.length = n) (hholds : holdsBytes p.ibuf a bs) :
    memRead p a n = .val bs :=
  memRead_eq_val.2 ⟨⟨hin, hin.trans hcap⟩, hlen, hholds⟩

/-- The eight big-endian bytes of a word are read where IBUF holds them (R66). -/
theorem memRead_word {p : Port} {a : Nat} {v : Word64} (hin : a + 8 ≤ p.inLen.toNat)
    (hcap : p.inLen.toNat ≤ p.capIn.toNat)
    (hread : ∀ i, i < 8 → Memory.read p.ibuf (a + i) = some (BitVec.ofNat 8 (v.toNat / 2 ^ (8 * (7 - i))))) :
    memRead p a 8 = .val (beBytes 8 v.toNat) :=
  memRead_of_holds hin hcap (length_beBytes _ _) (holds_be _ _ _ _ hread)

/-- Two bytes are read where IBUF holds them. -/
theorem memRead_pair {p : Port} {a : Nat} {x y : Byte} (hin : a + 2 ≤ p.inLen.toNat)
    (hcap : p.inLen.toNat ≤ p.capIn.toNat) (hx : Memory.read p.ibuf a = some x)
    (hy : Memory.read p.ibuf (a + 1) = some y) : memRead p a 2 = .val [x, y] := by
  refine memRead_of_holds hin hcap rfl fun i b hb => ?_
  match i with
  | 0 => exact hx.trans hb
  | 1 => exact hy.trans hb
  | i + 2 => simp at hb

/-- Two bytes side by side in a 16-bit register are the big-endian number (R66). -/
theorem toNat_append_byte (hi lo : Byte) : (hi ++ lo).toNat = hi.toNat * 256 + lo.toNat := by
  rw [BitVec.toNat_append, ← Nat.shiftLeft_add_eq_or_of_lt lo.isLt, Nat.shiftLeft_eq]

theorem ofNat_fromBe_pair (hi lo : Byte) : BitVec.ofNat 16 (fromBe [hi, lo]) = hi ++ lo := by
  have hvalue : fromBe [hi, lo] = (hi ++ lo).toNat := by simp [fromBe, toNat_append_byte]
  rw [hvalue, BitVec.ofNat_toNat, BitVec.setWidth_eq]

/-! The phases. -/

/-- Settles O30: D_INIT's two branches. -/
theorem dInitChecksAndClears : Obligations.DInitChecksAndClears := by
  intro s
  constructor
  · intro hlarge
    exact finishD_eq_next.2 (.inr ⟨_, _, if_pos hlarge, rfl⟩)
  · intro hfits
    exact finishD_eq_next.2 (.inl ⟨_, if_neg (Nat.not_lt.2 hfits), rfl⟩)

/-- D_MAGIC, where four bytes are left and read. -/
theorem phaseDMagic_of_read {u : UnitD} {bs : List Byte} (hleft : ¬ remBytes u < 4)
    (hread : memRead u.port 0 4 = .val bs) :
    phaseDMagic u = if bs ≠ Config.magic then .raised u .badMagic
      else .ok (UnitD.goto { u with rptr := 4#64 } phDOlen) := by
  rw [phaseDMagic, if_neg hleft, hread, thenDo_val]

/-- Settles O31: the four bytes read are compared with the marker. -/
theorem dMagicChecksTheMarker : Obligations.DMagicChecksTheMarker := by
  intro s
  constructor
  · intro hshort
    exact finishD_eq_next.2 (.inr ⟨_, _, if_pos ((remBytes_lt_iff (by decide)).2 hshort), rfl⟩)
  · intro bs hleft hcap hlen hholds
    have hphase := phaseDMagic_of_read (not_remBytes_lt hleft)
      (memRead_of_holds (by omega) hcap hlen hholds)
    constructor
    · intro hbad
      exact finishD_eq_next.2 (.inr ⟨_, _, hphase.trans (if_pos hbad), rfl⟩)
    · intro hgood
      exact finishD_eq_next.2 (.inl ⟨_, hphase.trans (if_neg (not_not.2 hgood)), rfl⟩)

/-- D_OLEN, where eight bytes are left and a word's bytes are read. -/
theorem phaseDOlen_of_read {u : UnitD} {v : Word64} (hleft : ¬ remBytes u < 8)
    (hread : memRead u.port 4 8 = .val (beBytes 8 v.toNat)) :
    phaseDOlen u = .ok (UnitD.goto { u with origlen := v, rptr := 12#64 } phDScnt) := by
  rw [phaseDOlen, if_neg hleft, hread, thenDo_val, word_fromBe_beBytes]

/-- Settles O32: ORIGLEN is the word whose bytes are read. -/
theorem dOlenReadsTheLength : Obligations.DOlenReadsTheLength := by
  intro s
  constructor
  · intro hshort
    exact finishD_eq_next.2 (.inr ⟨_, _, if_pos ((remBytes_lt_iff (by decide)).2 hshort), rfl⟩)
  · intro v hleft hin hcap hread
    exact finishD_eq_next.2 (.inl ⟨_, phaseDOlen_of_read (not_remBytes_lt hleft) (memRead_word hin hcap hread), rfl⟩)

/-- D_SCNT, where two bytes are left and read. -/
theorem phaseDScnt_of_read {u : UnitD} {hi lo : Byte} (hleft : ¬ remBytes u < 2)
    (hread : memRead u.port 12 2 = .val [hi, lo]) :
    phaseDScnt u = if 256 < hi.toNat * 256 + lo.toNat then
        .raised { u with symcnt := hi ++ lo, rptr := 14#64 } .unsupportedSymbolCount
      else .ok (UnitD.goto { u with symcnt := hi ++ lo, rptr := 14#64 } phDTbl) := by
  simp only [phaseDScnt, if_neg hleft, hread, thenDo_val, ofNat_fromBe_pair, toNat_append_byte]

/-- Settles O33: SYMCNT is the number read, and the test against 256 has two branches. -/
theorem dScntReadsTheCount : Obligations.DScntReadsTheCount := by
  intro s
  constructor
  · intro hshort
    exact finishD_eq_next.2 (.inr ⟨_, _, if_pos ((remBytes_lt_iff (by decide)).2 hshort), rfl⟩)
  · intro hi lo hleft hin hcap hhi hlo
    have hphase := phaseDScnt_of_read (not_remBytes_lt hleft) (memRead_pair hin hcap hhi hlo)
    by_cases hmany : 256 < hi.toNat * 256 + lo.toNat
    · rw [if_pos hmany] at hphase ⊢
      exact finishD_eq_next.2 (.inr ⟨_, _, hphase, rfl⟩)
    · rw [if_neg hmany] at hphase ⊢
      exact finishD_eq_next.2 (.inl ⟨_, hphase, rfl⟩)

/-- D_PBC, where eight bytes are left and a word's bytes are read. -/
theorem phaseDPbc_of_read {u : UnitD} {v : Word64} (hleft : ¬ remBytes u < 8)
    (hread : memRead u.port u.rptr.toNat 8 = .val (beBytes 8 v.toNat)) :
    phaseDPbc u = .ok (UnitD.goto { u with pbc := v, rptr := u.rptr + 8#64 } phDSize) := by
  rw [phaseDPbc, if_neg hleft, hread, thenDo_val, word_fromBe_beBytes]

/-- Settles O37: PBC is the word whose bytes are read. -/
theorem dPbcReadsTheBitCount : Obligations.DPbcReadsTheBitCount := by
  intro s
  constructor
  · intro hshort
    exact finishD_eq_next.2 (.inr ⟨_, _, if_pos ((remBytes_lt_iff (by decide)).2 hshort), rfl⟩)
  · intro v hleft hcap hread
    exact finishD_eq_next.2 (.inl ⟨_, phaseDPbc_of_read (not_remBytes_lt hleft) (memRead_word hleft hcap hread), rfl⟩)

/-- The bytes left are exactly those of the payload (R198). -/
theorem remBytes_eq_ceil8_iff {u : UnitD} (h : u.rptr.toNat ≤ u.port.inLen.toNat) :
    remBytes u = ceil8 u.pbc.toNat ↔ u.port.inLen.toNat = u.rptr.toNat + (u.pbc.toNat + 7) / 8 := by
  rw [ceil8_eq, remBytes]
  omega

/-- The phase that D_SIZE dispatches to, by SYMCNT as a number (R200). -/
theorem dispatch_eq (n : BitVec 16) :
    (if n = 0#16 then phDEmpty else if n = 1#16 then phDSingle else phDCanon) =
      if n.toNat = 0 then 0x18#5 else if n.toNat = 1 then 0x19#5 else 0x17#5 := by
  simp only [← BitVec.toNat_inj, BitVec.toNat_ofNat, Nat.zero_mod, Nat.one_mod]

/-- Settles O38: the two tests in order, then the dispatch. -/
theorem dSizeChecksAndDispatches : Obligations.DSizeChecksAndDispatches := by
  intro s hptr
  refine ⟨fun hsize => ?_, fun hsize => ?_⟩
  · have hsize' := mt (remBytes_eq_ceil8_iff hptr).1 hsize
    exact finishD_eq_next.2 (.inr ⟨_, _, if_pos hsize', rfl⟩)
  · have hsize' := not_not.2 ((remBytes_eq_ceil8_iff hptr).2 hsize)
    refine ⟨fun hlarge => ?_, fun hfits => ?_⟩
    · exact finishD_eq_next.2 (.inr ⟨_, _, (if_neg hsize').trans (if_pos hlarge), rfl⟩)
    · rw [← dispatch_eq]
      exact finishD_eq_next.2 (.inl ⟨_, (if_neg hsize').trans (if_neg (Nat.not_lt.2 hfits)), rfl⟩)

end Sys2Proof.Machine
end

section
/-! PROOFS. The decoder's table (spec 45_decoder.md R195, R196): D_TBL takes a good table whole, stops at the first
bad entry, and what it passes is good. -/

namespace Sys2Proof.Machine

/-! A bad entry. -/

theorem tableEntry_badLength {u : UnitD} {e : Entry} (i : Nat) (hzero : e.len = 0#8) :
    tableEntry u i e = .raised u .badCodeLength := if_pos hzero

/-- An entry out of order or with a symbol taken before (R195). -/
theorem tableEntry_badOrder {u₀ u : UnitD} {done : List Entry} {e : Entry} (w : Taken u₀ done u)
    (hlen : e.len ≠ 0#8)
    (hbad : (∃ g, done.getLast? = some g ∧ ¬ Entry.Before g e) ∨ e.sym ∈ done.map Entry.sym) :
    tableEntry u done.length e = .raised u .badTableOrder := by
  rw [← outOfOrder_iff w, ← seen_iff w] at hbad
  rw [tableEntry, if_neg hlen]
  by_cases horder : outOfOrder u done.length e = true
  · rw [if_pos horder]
  · rw [if_neg horder, if_pos (hbad.resolve_left horder)]

/-- The loop stops where an entry is bad. -/
theorem tableLoop_eq_raised {u v : UnitD} {e : Entry} {c : Cause} {i : Nat} (n : Nat)
    (hread : memRead u.port u.rptr.toNat 2 = .val [e.sym, e.len]) (hbad : tableEntry u i e = .raised v c) :
    tableLoop (n + 1) i u = .raised v c := by
  rw [tableLoop, hread, thenDo_val, List.headD_cons, List.getD_cons_succ, List.getD_cons_zero, hbad]

/-! The registers that the loop moves. -/

/-- The loop leaves the port alone. -/
theorem Taken.port {u₀ u : UnitD} {done : List Entry} (w : Taken u₀ done u) : u.port = u₀.port := by
  rw [w.frame]

/-- RPTR does not wrap within the input. -/
theorem Taken.rptr_toNat {u₀ u : UnitD} {done : List Entry} (w : Taken u₀ done u)
    (hin : u₀.rptr.toNat + 2 * done.length ≤ u₀.port.inLen.toNat) :
    u.rptr.toNat = u₀.rptr.toNat + 2 * done.length := by
  rw [w.rptr, toNat_add_of_fits hin]

/-- CCL begins with the entries taken. -/
theorem Taken.cclPrefix {u₀ u : UnitD} {done : List Entry} (w : Taken u₀ done u) :
    cclPrefix u.ccl done.length = some done := cclPrefix_eq_some.2 ⟨rfl, w.ccl⟩

/-! The loop from its start. -/

/-- From a cleared LEN a good run of entries is taken whole, then the loop goes on. -/
theorem tableLoop_good_from_start {u : UnitD} {es : List Entry} (n : Nat) (hclear : ∀ b, symRead u.len b = 0#8)
    (hholds : holdsBytes u.port.ibuf u.rptr.toNat (tableBytes es))
    (hleft : u.rptr.toNat + 2 * es.length ≤ u.port.inLen.toNat) (hcap : u.port.inLen.toNat ≤ u.port.capIn.toNat)
    (hmax : es.length ≤ 256) (hnonzero : ∀ e ∈ es, e.len ≠ 0#8) (hsorted : es.Pairwise Entry.Before)
    (hnodup : (es.map Entry.sym).Nodup) :
    ∃ v, Taken u es v ∧ tableLoop (es.length + n) 0 u = tableLoop n es.length v := by
  simpa using tableLoop_good (m := n) (taken_nil hclear) hholds hleft hcap (by simpa using hmax) hnonzero hsorted hnodup

/-! The phase. -/

/-- D_TBL as its loop, where the table is not longer than what is left. -/
theorem phaseDTbl_of_loop {u v : UnitD} (hleft : ¬ remBytes u < 2 * u.symcnt.toNat)
    (hloop : tableLoop u.symcnt.toNat 0 u = .ok v) :
    phaseDTbl u = .ok (UnitD.goto { v with paybase := BitVec.ofNat 64 (22 + 2 * v.symcnt.toNat) } phDPbc) := by
  rw [phaseDTbl, if_neg hleft, hloop]

theorem phaseDTbl_of_loop_raised {u v : UnitD} {c : Cause} (hleft : ¬ remBytes u < 2 * u.symcnt.toNat)
    (hloop : tableLoop u.symcnt.toNat 0 u = .raised v c) : phaseDTbl u = .raised v c := by
  rw [phaseDTbl, if_neg hleft, hloop]

/-- Settles O34: the loop takes the whole table, and `Taken` says what it leaves. -/
theorem dTblTakesASortedTable : Obligations.DTblTakesASortedTable := by
  intro s
  constructor
  · intro hshort hpos
    exact finishD_eq_next.2 (.inr ⟨_, _, if_pos ((remBytes_lt_iff (by omega)).2 hshort), rfl⟩)
  · intro es hleft hcap hlen hmax hholds hnonzero hsorted hnodup hclear
    have hleft' : s.d.rptr.toNat + 2 * es.length ≤ s.d.port.inLen.toNat := by rwa [hlen]
    obtain ⟨v, hv, hloop⟩ :=
      tableLoop_good_from_start 0 hclear hholds hleft' hcap hmax hnonzero hsorted hnodup
    rw [Nat.add_zero, hlen] at hloop
    have hphase := phaseDTbl_of_loop (not_remBytes_lt hleft) hloop
    refine ⟨_, finishD_eq_next.2 (.inl ⟨_, hphase, rfl⟩), rfl, hv.rptr_toNat hleft', ?paybase, hv.cclPrefix,
      hv.len, hv.rest⟩
    case paybase =>
      have hsymcnt : v.symcnt = s.d.symcnt := by rw [hv.frame]
      rw [withD_d, gotoD_paybase, hsymcnt, ← hlen, BitVec.toNat_ofNat, Nat.mod_eq_of_lt (by omega)]

/-- A table, and one more entry. -/
theorem tableBytes_append (es fs : List Entry) : tableBytes (es ++ fs) = tableBytes es ++ tableBytes fs := by
  induction es with
  | nil => rfl
  | cons e es ih => simp [tableBytes, ih]

/-- After the good entries the loop is at the next one, whose two bytes it reads. -/
theorem exists_taken_before_entry {u : UnitD} {good : List Entry} {e : Entry} {n : Nat}
    (hcount : u.symcnt.toNat = good.length + 1 + n) (hmax : u.symcnt.toNat ≤ 256)
    (hleft : u.rptr.toNat + 2 * u.symcnt.toNat ≤ u.port.inLen.toNat) (hcap : u.port.inLen.toNat ≤ u.port.capIn.toNat)
    (hholds : holdsBytes u.port.ibuf u.rptr.toNat (tableBytes (good ++ [e])))
    (hnonzero : ∀ g ∈ good, g.len ≠ 0#8) (hsorted : good.Pairwise Entry.Before) (hnodup : (good.map Entry.sym).Nodup)
    (hclear : ∀ b, symRead u.len b = 0#8) :
    ∃ v, Taken u good v ∧ memRead v.port v.rptr.toNat 2 = .val [e.sym, e.len] ∧
      tableLoop u.symcnt.toNat 0 u = tableLoop (n + 1) good.length v := by
  rw [tableBytes_append, holdsBytes_append, length_tableBytes] at hholds
  obtain ⟨hgood, hnext⟩ := hholds
  obtain ⟨v, hv, hloop⟩ :=
    tableLoop_good_from_start (n + 1) hclear hgood (by omega) hcap (by omega) hnonzero hsorted hnodup
  have hrptr : v.rptr.toNat = u.rptr.toNat + 2 * good.length := hv.rptr_toNat (by omega)
  refine ⟨v, hv, ?_, ?_⟩
  · exact read_entry (bs := []) (by rwa [hv.port, hrptr]) (by rw [hv.port, hrptr]; omega) (by rwa [hv.port])
  · rwa [hcount, Nat.add_assoc, Nat.add_comm 1 n]

/-- Settles O35: the loop comes to the bad entry and stops there. -/
theorem dTblReportsTheFirstBadEntry : Obligations.DTblReportsTheFirstBadEntry := by
  intro s good e n hcount hmax hleft hcap hholds hnonzero hsorted hnodup hclear
  obtain ⟨v, hv, hread, hloop⟩ :=
    exists_taken_before_entry hcount hmax hleft hcap hholds hnonzero hsorted hnodup hclear
  have hexit : ∀ c, tableEntry v good.length e = .raised v c →
      ∃ t, exec .dTbl s = .next t ∧ t.d.port = errorExit s.d.port c := by
    intro c hbad
    have hphase := phaseDTbl_of_loop_raised (not_remBytes_lt hleft)
      (hloop.trans (tableLoop_eq_raised n hread hbad))
    exact ⟨_, finishD_eq_next.2 (.inr ⟨_, _, hphase, rfl⟩), by rw [withD_d, hv.port]⟩
  constructor
  · intro hzero
    exact hexit _ (tableEntry_badLength _ hzero)
  · intro hlen hbad
    exact hexit _ (tableEntry_badOrder hv hlen hbad)

/-- Settles O36: the exit to D_PBC is the loop's good end, and `Taken` holds there. -/
theorem dTblEstablishesASortedTable : Obligations.DTblEstablishesASortedTable := by
  intro s t hclear hnext hphase
  obtain ⟨v, hv, rfl⟩ | ⟨v, c, -, rfl⟩ := finishD_eq_next.1 (show s.finishD (phaseDTbl s.d) = .next t from hnext)
  case inr => exact absurd hphase (show phIdle ≠ 0x15#5 by decide)
  rw [phaseDTbl] at hv
  split at hv
  · cases hv
  split at hv
  next v' hloop =>
    obtain rfl : _ = v := Res.ok.inj hv
    obtain ⟨es, hlen, htaken⟩ := tableLoop_taken (done := []) (taken_nil hclear) hloop
    rw [List.nil_append] at htaken
    exact ⟨es, hlen ▸ htaken.cclPrefix, htaken.sorted, htaken.nonzero, htaken.nodup⟩
  next r hbad => exact absurd hv (hbad v)

end Sys2Proof.Machine
end

section
/-! PROOFS. The decoder's code (spec 45_decoder.md R201): RUN at the end of the regeneration is the power of two that
D_CANON asks for exactly where the sum of 2^(-length) is 1. -/

namespace Sys2Proof.Machine

/-- RUN = 2^L at the last entry says that the code is complete. -/
theorem CanonFacts.complete_iff {code : SymFile CodeWord} {es : List Entry}
    {r : SymFile CodeWord × RunWord × CanonEnd} (facts : CanonFacts code 0 es r) (hsum : kraft es ≤ 2 ^ 255)
    (hne : es ≠ []) :
    some r.2.1.toNat = es.getLast?.map (fun e => 2 ^ e.len.toNat) ↔ kraft es = 2 ^ 255 := by
  have he := List.getLast?_eq_some_getLast hne
  generalize es.getLast hne = e at he
  have hrun := facts.run (by rwa [Nat.zero_add]) e he
  have hlen : e.len.toNat ≤ 255 := Nat.le_of_lt_succ e.len.isLt
  have hscale : 2 ^ e.len.toNat * 2 ^ (255 - e.len.toNat) = 2 ^ 255 := by rw [← Nat.pow_add, Nat.add_sub_cancel' hlen]
  rw [Nat.zero_add] at hrun
  rw [he, Option.map_some, Option.some_inj, ← hrun, ← hscale]
  exact (Nat.mul_left_inj (Nat.two_pow_pos _).ne').symm

/-- D_CANON on a table whose lengths ascend: the codes of the regeneration, and D_WALK or InvalidCode. -/
theorem phaseDCanon_eq {u : UnitD} {es : List Entry} (hes : cclPrefix u.ccl u.symcnt.toNat = some es)
    (hne : es ≠ []) (hasc : lengthsAscend es) :
    ∃ v : UnitD, v.port = u.port ∧ v.code = (canonLoop u.code 0#256 none es).1 ∧
      phaseDCanon u = if kraft es = 2 ^ 255 then .ok (v.goto phDWalk) else .raised v .invalidCode := by
  have facts := canon_facts es u.code hasc
  have hends := facts.ends
  rw [Nat.zero_add] at hends
  rw [phaseDCanon, hes, ofOption_some, thenDo_val]
  by_cases hsum : kraft es ≤ 2 ^ 255
  · have hiff := facts.complete_iff hsum hne
    rw [if_pos hsum] at hends
    generalize canonLoop u.code 0#256 none es = r at hends hiff ⊢
    obtain ⟨code, run, ending⟩ := r
    obtain rfl : ending = .done := hends
    refine ⟨{ u with code := code, run := run }, rfl, rfl, ?_⟩
    rw [canonEndD]
    exact if_congr hiff rfl rfl
  · rw [if_neg hsum] at hends
    simp only [if_neg (fun h : kraft es = 2 ^ 255 => hsum (Nat.le_of_eq h))]
    generalize canonLoop u.code 0#256 none es = r at hends ⊢
    obtain ⟨code, run, ending⟩ := r
    obtain rfl : ending = .overSubscribed := hends
    exact ⟨{ u with code := code, run := run }, rfl, rfl, rfl⟩

/-- Settles O39: the test on RUN is the test on the sum. -/
theorem dCanonAcceptsExactlyCompleteCodes : Obligations.DCanonAcceptsExactlyCompleteCodes := by
  intro s es hes htwo hasc
  obtain ⟨v, hport, hcode, hphase⟩ := phaseDCanon_eq hes (List.ne_nil_of_length_pos (by omega)) hasc
  by_cases hsum : kraft es = 2 ^ 255
  · rw [if_pos hsum] at hphase
    refine ⟨_, finishD_eq_next.2 (.inl ⟨_, hphase, rfl⟩), fun _ => ⟨?port, ?codes⟩, fun h => absurd hsum h⟩
    case port => rw [withD_d, gotoD_port, hport]
    case codes =>
      intro hnodup i e he
      rw [withD_d, gotoD_code, hcode, (canon_facts es s.d.code hasc).codes (by omega) hnodup i e he, Nat.zero_add]
  · rw [if_neg hsum] at hphase
    refine ⟨_, finishD_eq_next.2 (.inr ⟨_, _, hphase, rfl⟩), fun h => absurd h hsum, fun _ => ?_⟩
    rw [withD_d, hport]
    rfl

end Sys2Proof.Machine
end

section
/-! PROOFS. The decoder's output without a tree, and its end (spec 45_decoder.md R203, R204, R206): D_EMPTY, D_SINGLE
and D_FIN. -/

namespace Sys2Proof.Machine

/-- Settles O40: D_EMPTY's two branches. -/
theorem dEmptyPromisesNothing : Obligations.DEmptyPromisesNothing := by
  intro s
  constructor
  · intro hpromise
    exact finishD_eq_next.2 (.inr ⟨_, _, if_pos hpromise, rfl⟩)
  · intro hnothing
    exact finishD_eq_next.2 (.inl ⟨_, if_neg (not_not.2 hnothing), rfl⟩)

/-- The first entry of CCL, which D_SINGLE takes. -/
theorem symRead_zero_of_cclRead {x : Vector Entry 256} {e : Entry} (h : cclRead x 0 = some e) :
    symRead x 0#8 = e := by
  simpa [cclRead, symRead] using h

/-- D_SINGLE, where ORIGLEN bytes fit OBUF: one run of the symbol from OCNT on. -/
theorem phaseDSingle_eq_ok {u : UnitD} {e : Entry} (he : cclRead u.ccl 0 = some e)
    (hle : u.ocnt.toNat ≤ u.origlen.toNat) (hroom : u.origlen.toNat ≤ u.port.capOut.toNat) :
    phaseDSingle u = .ok (UnitD.goto { u with
      port := { u.port with
        obuf := Memory.writeList u.port.obuf u.ocnt.toNat
          (List.replicate (u.origlen.toNat - u.ocnt.toNat) e.sym) },
      ocnt := u.origlen, bitpos := u.pbc } phDFin) := by
  have hocnt : u.ocnt + BitVec.ofNat 64 (u.origlen.toNat - u.ocnt.toNat) = u.origlen := by
    apply BitVec.eq_of_toNat_eq
    rw [toNat_add_of_fits (cap := u.origlen) (by omega)]
    omega
  rw [phaseDSingle, symRead_zero_of_cclRead he, singleLoop_spec _ _ _ (by omega), thenDo_val, hocnt]

/-- Settles O41: every byte of the run is the symbol. -/
theorem dSingleRepeatsTheSymbol : Obligations.DSingleRepeatsTheSymbol := by
  intro s e he hle hroom
  refine ⟨_, finishD_eq_next.2 (.inl ⟨_, phaseDSingle_eq_ok he hle hroom, rfl⟩), rfl, rfl, rfl, fun i hlow hhigh => ?_⟩
  rw [show i = s.d.ocnt.toNat + (i - s.d.ocnt.toNat) by omega]
  exact read_writeList_at _ _ _ _ _ (by rw [List.getElem?_replicate, if_pos (by omega)])

/-- Settles O43: D_FIN's two branches. -/
theorem dFinCompletesTheCommand : Obligations.DFinCompletesTheCommand := by
  intro s
  constructor
  · intro hcount
    exact finishD_eq_next.2 (.inr ⟨_, _, if_pos hcount, rfl⟩)
  · intro hcount
    exact finishD_eq_next.2 (.inl ⟨_, if_neg (not_not.2 hcount), rfl⟩)

end Sys2Proof.Machine
end

section
/-! PROOFS. The decoder's walk (spec 45_decoder.md R202, R205; 43_bitstream.md R161, R163): D_WALK over the codewords
of an output, to ORIGLEN symbols or to the end of the bits. -/

namespace Sys2Proof.Machine

/-! What the walk reads and where it starts. -/

/-- The codewords of the symbols `out`, one after the other. -/
def codewords (u : UnitD) (out : List Byte) : List Bool := out.flatMap (fun b => codewordOf u.code u.len b)

/-- Unit D is to read the bits `bits` of the payload `pay`, under a code that the decoder can walk. -/
structure HasPayload (u : UnitD) (pay : List Byte) (bits : List Bool) : Prop where
  prefixFree : prefixCode u.code u.len
  held       : holdsBytes u.port.ibuf u.paybase.toNat pay
  inInput    : u.paybase.toNat + pay.length ≤ u.port.inLen.toNat
  capIn      : u.port.inLen.toNat ≤ u.port.capIn.toNat
  counted    : bits.length ≤ u.pbc.toNat
  fits       : u.pbc.toNat ≤ 8 * pay.length
  packed     : ∀ k, k < bits.length → packedBit pay k = bits.getD k false

/-- At the root, with nothing consumed and nothing out. -/
theorem walkAt_start {u : UnitD} (hbitpos : u.bitpos = 0#64) (hcurv : u.curv = 0#255) (hcurl : u.curl = 0#8) :
    walkAt u 0 [] 0 0#255 = u := by
  obtain ⟨⟩ := u
  subst hbitpos hcurv hcurl
  simp [walkAt, Memory.writeList]

theorem walkLoop_at_start {u : UnitD} (hbitpos : u.bitpos = 0#64) (hcurv : u.curv = 0#255)
    (hcurl : u.curl = 0#8) :
    walkLoop (u.pbc - u.bitpos).toNat u = walkLoop u.pbc.toNat (walkAt u 0 [] 0 0#255) := by
  rw [walkAt_start hbitpos hcurv hcurl, hbitpos, BitVec.sub_zero]

/-! How the walk ends. -/

/-- With ORIGLEN symbols out, whatever bits are left. -/
theorem walkLoop_of_done {u : UnitD} (n : Nat) (h : u.origlen.toNat ≤ u.ocnt.toNat) : walkLoop n u = .ok u := by
  cases n with
  | zero => exact if_neg (Nat.not_lt.2 h)
  | succ n => exact if_neg (Nat.not_lt.2 h)

/-- With no bit left and symbols missing. -/
theorem walkLoop_zero_of_missing {u : UnitD} (h : u.ocnt.toNat < u.origlen.toNat) :
    walkLoop 0 u = .raised u .bitCountMismatch := if_pos h

/-! The walk over an output and over the beginning of one more codeword. -/

/-- The bits of whole codewords are consumed, and their symbols are out. -/
theorem walkLoop_codewords {u : UnitD} {pay out : List Byte} {more : List Bool} (n : Nat)
    (w : HasPayload u pay (codewords u out ++ more))
    (hlisted : ∀ b ∈ out, symRead u.len b ≠ 0#8) (hout : u.ocnt.toNat + out.length ≤ u.origlen.toNat)
    (hroom : u.origlen.toNat ≤ u.port.capOut.toNat) :
    walkLoop (n + (codewords u out).length) (walkAt u 0 [] 0 0#255) =
      walkLoop n (walkAt u (codewords u out).length out 0 0#255) := by
  unfold codewords at w ⊢
  obtain ⟨hprefix, hheld, hin, hcap, hcounted, hfits, hpacked⟩ := w
  have hpbc := u.pbc.isLt
  rw [List.length_append] at hcounted hpacked
  have hwalk := walkLoop_out u pay out [] 0 n hprefix hlisted hheld hin hcap (by omega) (by omega)
    (fun i hi => ?bits) hout hroom
  case bits =>
    rw [Nat.zero_add, hpacked i (by omega), List.getD_append _ _ _ _ hi]
  rw [Nat.zero_add] at hwalk
  exact hwalk

/-- The first bits of a codeword that has more, or none: they are consumed, and no symbol follows. -/
theorem walkLoop_beginning {u : UnitD} {pay out : List Byte} {bits part : List Bool}
    (w : HasPayload u pay (bits ++ part))
    (hpart : part = [] ∨ ∃ b, symRead u.len b ≠ 0#8 ∧ part <+: codewordOf u.code u.len b ∧
      part ≠ codewordOf u.code u.len b)
    (hout : u.ocnt.toNat + out.length < u.origlen.toNat) (hroom : u.origlen.toNat ≤ u.port.capOut.toNat) :
    ∃ i cv, walkLoop part.length (walkAt u bits.length out 0 0#255) =
      walkLoop 0 (walkAt u (bits ++ part).length out i cv) := by
  obtain ⟨hprefix, hheld, hin, hcap, hcounted, hfits, hpacked⟩ := w
  obtain rfl | ⟨b, -, hbegins, hproper⟩ := hpart
  · exact ⟨0, 0#255, by rw [List.append_nil]; rfl⟩
  have hpbc := u.pbc.isLt
  have hshorter : part.length < (symRead u.len b).toNat := by
    have hlt := hbegins.length_le.lt_of_ne fun heq => hproper (hbegins.eq_of_length heq)
    rwa [codewordOf, length_codeBits] at hlt
  rw [List.length_append] at hcounted hpacked ⊢
  have hwalk := walkLoop_part u pay out b bits.length 0 part.length hprefix hheld hin hcap hshorter (by omega)
    (by omega) (fun i hi => ?bits) hout hroom
  case bits =>
    have hbit : part[i]? = some ((symRead u.code b).getLsbD ((symRead u.len b).toNat - 1 - i)) := by
      rw [List.getElem?_eq_getElem hi, ← List.prefix_iff_getElem?.1 hbegins i hi]
      exact getElem?_codeBits _ _ _ (hi.trans hshorter)
    rw [hpacked _ (by omega), List.getD_append_right _ _ _ _ (Nat.le_add_right ..), Nat.add_sub_cancel_left,
      List.getD_eq_getElem?_getD, hbit, Option.getD_some]
  rw [Nat.zero_add] at hwalk
  exact ⟨_, _, hwalk⟩

/-! The phase. -/

theorem phaseDWalk_of_loop {u v : UnitD} (hloop : walkLoop (u.pbc - u.bitpos).toNat u = .ok v) :
    phaseDWalk u = .ok (v.goto phDFin) := by
  rw [phaseDWalk, hloop]

theorem phaseDWalk_of_loop_raised {u v : UnitD} {c : Cause}
    (hloop : walkLoop (u.pbc - u.bitpos).toNat u = .raised v c) : phaseDWalk u = .raised v c := by
  rw [phaseDWalk, hloop]

/-- D_WALK where ORIGLEN asks for exactly the symbols of the codewords. -/
theorem phaseDWalk_eq_ok {u : UnitD} {pay out : List Byte}
    (w : HasPayload u pay (codewords u out)) (hlisted : ∀ b ∈ out, symRead u.len b ≠ 0#8)
    (hbitpos : u.bitpos = 0#64) (hcurv : u.curv = 0#255) (hcurl : u.curl = 0#8)
    (hout : u.ocnt.toNat + out.length = u.origlen.toNat) (hroom : u.origlen.toNat ≤ u.port.capOut.toNat) :
    phaseDWalk u =
      .ok ((walkAt u (codewords u out).length out 0 0#255).goto phDFin) := by
  have hwalk := walkLoop_codewords (more := []) (u.pbc.toNat - (codewords u out).length)
    (by rwa [List.append_nil]) hlisted (Nat.le_of_eq hout) hroom
  rw [Nat.sub_add_cancel w.counted] at hwalk
  refine phaseDWalk_of_loop ((walkLoop_at_start hbitpos hcurv hcurl).trans (hwalk.trans (walkLoop_of_done _ ?_)))
  exact Nat.le_of_eq (hout.symm.trans (toNat_add_of_fits (Nat.le_of_eq hout)).symm)

/-- D_WALK where ORIGLEN asks for more than the bits hold. -/
theorem phaseDWalk_eq_raised {u : UnitD} {pay out : List Byte} {part : List Bool}
    (w : HasPayload u pay (codewords u out ++ part))
    (hlisted : ∀ b ∈ out, symRead u.len b ≠ 0#8)
    (hpart : part = [] ∨ ∃ b, symRead u.len b ≠ 0#8 ∧ part <+: codewordOf u.code u.len b ∧
      part ≠ codewordOf u.code u.len b)
    (hall : (codewords u out ++ part).length = u.pbc.toNat)
    (hbitpos : u.bitpos = 0#64) (hcurv : u.curv = 0#255) (hcurl : u.curl = 0#8)
    (hout : u.ocnt.toNat + out.length < u.origlen.toNat) (hroom : u.origlen.toNat ≤ u.port.capOut.toNat) :
    ∃ i cv, phaseDWalk u = .raised (walkAt u u.pbc.toNat out i cv) .bitCountMismatch := by
  obtain ⟨i, cv, hbeginning⟩ := walkLoop_beginning (out := out) w hpart hout hroom
  have hwalk := (walkLoop_codewords part.length w hlisted (Nat.le_of_lt hout) hroom).trans hbeginning
  rw [Nat.add_comm, ← List.length_append, hall] at hwalk
  refine ⟨i, cv, phaseDWalk_of_loop_raised
    ((walkLoop_at_start hbitpos hcurv hcurl).trans (hwalk.trans (walkLoop_zero_of_missing ?_)))⟩
  exact lt_of_eq_of_lt (toNat_add_of_fits (Nat.le_of_lt hout)) hout

/-- D_WALK where no bit is left at its start. -/
theorem phaseDWalk_of_no_bits {u : UnitD} (hbitpos : u.bitpos = u.pbc) (hout : u.ocnt.toNat < u.origlen.toNat) :
    phaseDWalk u = .raised u .bitCountMismatch := by
  apply phaseDWalk_of_loop_raised
  rw [hbitpos, BitVec.sub_self]
  exact walkLoop_zero_of_missing hout

/-- Settles O42: the three ends of the walk. -/
theorem dWalkInvertsThePacking : Obligations.DWalkInvertsThePacking := by
  refine ⟨?whole, ?short, ?nothing⟩
  case whole =>
    rintro s pay out bits hprefix hlisted rfl hheld hin hcap hcounted hfits hpacked hbitpos hcurv hcurl hout hroom
    have hphase := phaseDWalk_eq_ok (out := out) ⟨hprefix, hheld, hin, hcap, hcounted, hfits, hpacked⟩ hlisted hbitpos
      hcurv hcurl hout hroom
    refine ⟨_, finishD_eq_next.2 (.inl ⟨_, hphase, rfl⟩), rfl, ?bitpos, ?ocnt, rfl, rfl, holdsBytes_writeList _ _ _⟩
    case bitpos =>
      exact Nat.mod_eq_of_lt (Nat.lt_of_le_of_lt hcounted s.d.pbc.isLt)
    case ocnt =>
      exact BitVec.eq_of_toNat_eq ((toNat_add_of_fits (Nat.le_of_eq hout)).trans hout)
  case short =>
    rintro s pay out part bits hprefix hlisted hpart rfl hheld hin hcap hall hfits hpacked hbitpos hcurv hcurl hout
      hroom
    obtain ⟨i, cv, hphase⟩ := phaseDWalk_eq_raised (out := out)
      ⟨hprefix, hheld, hin, hcap, Nat.le_of_eq hall, hfits, hpacked⟩ hlisted hpart hall hbitpos hcurv hcurl hout hroom
    refine ⟨_, finishD_eq_next.2 (.inr ⟨_, _, hphase, rfl⟩), rfl, ?_, toNat_add_of_fits (Nat.le_of_lt hout),
      holdsBytes_writeList _ _ _⟩
    exact (BitVec.ofNat_toNat ..).trans (BitVec.setWidth_eq _)
  case nothing =>
    intro s hbitpos hout
    exact finishD_eq_next.2 (.inr ⟨_, _, phaseDWalk_of_no_bits hbitpos hout, rfl⟩)

end Sys2Proof.Machine
end

section
/-! PROOFS. What a step runs (spec 46_commands_sequencer.md R227, 30_encoding.md R95, R97): the operation of the unit
whose turn it is, or the command or container of the host's next line. -/

namespace Sys2Proof.Machine

/-- On a unit's turn, the operation that its PHASE names. -/
theorem step_unitTurn {s : State} {u : UnitKind} {i : Instr} (ha : nextAgent s = .unit u)
    (hi : decodePhase u (s.port u).phase = .ok i) : step s = exec i { s with sched := s.sched.tail } := by
  simp only [step, fetch, ha, hi]
  rfl

/-- On a unit's turn, a PHASE that names no operation of the unit stops the machine. -/
theorem step_unusedPhase {s : State} {u : UnitKind} {e : DecodeError} (ha : nextAgent s = .unit u)
    (hi : decodePhase u (s.port u).phase = .error e) : step s = .fault .unusedPhase := by
  simp only [step, fetch, ha, hi]

/-- On the host's turn, a line that is an instruction is this instruction, on the machine without the line. -/
theorem step_hostInstr {s : State} {l : HostLine} {rest : List HostLine} {i : Instr} (ha : nextAgent s = .host)
    (hl : s.script = l :: rest)
    (hf : fetchLine l { s with sched := s.sched.tail, script := rest } =
      .instr i { s with sched := s.sched.tail, script := rest }) :
    step s = exec i { s with sched := s.sched.tail, script := rest } := by
  rw [step, fetch_hostLine ha hl, hf]

/-- A line that writes CMD of an idle unit is the command decoded (R95, R97). -/
theorem fetchLine_cmd_idle {s : State} {u : UnitKind} (v : Word64) (hb : (s.port u).busy = false) :
    fetchLine (.wrReg u 0x00 v) s = .instr (decodeCmd u v) s :=
  if_pos ⟨rfl, hb⟩

/-- A line that writes CMD of a busy unit is an access, whatever is written (R97). -/
theorem fetchLine_cmd_busy {s : State} {u : UnitKind} (v : Word64) (hb : (s.port u).busy = true) :
    fetchLine (.wrReg u 0x00 v) s = .access (.wrReg u 0x00 v) s :=
  if_neg fun h => Bool.false_ne_true (h.2.symm.trans hb)

/-- A line whose bytes decode is the instruction decoded. -/
theorem fetchLine_container {s : State} {bs : List Byte} {i : Instr} (h : decode (.bytes bs) = .ok i) :
    fetchLine (.container bs) s = .instr i s := by
  rw [decode] at h
  rw [fetchLine]
  cases hc : decodeContainer bs with
  | ok c =>
    rw [hc] at h
    cases h
    rfl
  | error e =>
    rw [hc] at h
    cases h

/-- Settles O6: what is fetched on a unit's turn, from a CMD line and from a container line. -/
theorem stepRunsTheDecodedInstruction : Obligations.StepRunsTheDecodedInstruction := by
  intro s i _
  refine ⟨fun u ha hi => step_unitTurn ha hi, fun u v rest ha hl hb hi => ?_, fun bs rest ha hl hi => ?_⟩
  · obtain rfl : decodeCmd u v = i := Except.ok.inj hi
    exact step_hostInstr ha hl (fetchLine_cmd_idle v (by rwa [port_setTurn]))
  · exact step_hostInstr ha hl (fetchLine_container hi)

end Sys2Proof.Machine
end

section
/-! PROOFS. The commands (spec 46_commands_sequencer.md section 2): each looks at BUSY first, then writes its unit's
port or nothing. -/

namespace Sys2Proof.Machine

/-- Settles O7. -/
theorem nopAndIdleChangeNothing : Obligations.NopAndIdleChangeNothing := fun _ _ => ⟨rfl, rfl⟩

/-- Settles O8: the idle branch of ENC on unit E and of DEC on unit D. -/
theorem acceptedCommandsClearAndStart : Obligations.AcceptedCommandsClearAndStart :=
  fun _ => ⟨fun hidle => if_neg (Bool.eq_false_iff.1 hidle), fun hidle => if_neg (Bool.eq_false_iff.1 hidle)⟩

/-- Settles O9: the idle branch of CLR. -/
theorem clrClearsTheRecord : Obligations.ClrClearsTheRecord :=
  fun _ _ hidle => if_neg (Bool.eq_false_iff.1 hidle)

/-- Settles O10: the idle branch of a reserved opcode, of ENC on unit D and of DEC on unit E. -/
theorem refusedOpcodesRecordIllegalCommand : Obligations.RefusedOpcodesRecordIllegalCommand :=
  fun _ => ⟨fun _ _ hidle => if_neg (Bool.eq_false_iff.1 hidle), fun hidle => if_neg (Bool.eq_false_iff.1 hidle),
    fun hidle => if_neg (Bool.eq_false_iff.1 hidle)⟩

/-- A port written back as it was changes nothing. -/
@[simp] theorem withPort_port (s : State) (u : UnitKind) : s.withPort u (s.port u) = s := by cases u <;> rfl

/-- The access to CMD of a busy unit changes nothing (R225). -/
theorem hostAccess_cmd (s : State) (u : UnitKind) (v : Word64) : hostAccess (.wrReg u 0x00 v) s = .next s :=
  congrArg Host.Outcome.next (withPort_port s u)

/-- Settles O11: the busy branch of every command, and the access that a CMD line to a busy unit is. -/
theorem commandsAreIgnoredWhileBusy : Obligations.CommandsAreIgnoredWhileBusy := by
  intro u s hbusy
  refine ⟨fun op => ⟨if_pos hbusy, if_pos hbusy, if_pos hbusy, if_pos hbusy⟩, fun v rest ha hl => ?_⟩
  rw [step, fetch_hostLine ha hl, fetchLine_cmd_busy v (by rwa [port_setTurn])]
  exact hostAccess_cmd _ u v

end Sys2Proof.Machine
end

section
/-! PROOFS. How a phase operation ends (spec 46_commands_sequencer.md R231, R232, R235; 60_exceptions.md R250): at a
successor or through the error exit, E_FIN and D_FIN included. -/

namespace Sys2Proof.Machine

/-- The two ends of a phase, at its unit's port: a successor, with PHASE and OBUF written at most, or the error exit
with the pair of a running command. -/
theorem PhaseEnd.goes_or_fails {succ : List (BitVec 5)} {p q : Port} (e : PhaseEnd succ p q) :
    (q.phase ∈ succ ∧ q = { p with phase := q.phase, obuf := q.obuf }) ∨
      ∃ c, c ≠ .illegalCommand ∧ q = failedWith { p with obuf := q.obuf } (causeCode c) (causeSub c) := by
  cases e with
  | goes h e => exact .inl ⟨h, e.port⟩
  | fails c p' hc _ e hq =>
    refine .inr ⟨c, hc, ?_⟩
    rw [hq, errorExit_eq, e.port]
    rfl

/-- A phase operation other than E_FIN and D_FIN, at its own unit's port. -/
theorem exec_phaseEnd {i : Instr} {s t : State} (hs : instrSuccessors i ≠ []) (hE : i ≠ .eFin) (hD : i ≠ .dFin)
    (hx : exec i s = .next t) :
    PhaseEnd (instrSuccessors i) (s.port (instrUnit i)) (t.port (instrUnit i)) := by
  cases hu : instrUnit i with
  | E => exact (phaseE_end hs hu hE hx).1
  | D => exact (phaseD_end hs hu hD hx).1

/-- An instruction leaves the port of every unit but its own. -/
theorem exec_port_other {i : Instr} {s t : State} {u : UnitKind} (hu : u ≠ instrUnit i) (hx : exec i s = .next t) :
    t.port u = s.port u := by
  obtain ⟨hd, he, -⟩ := exec_frame hx
  cases u <;> cases hi : instrUnit i
  · exact absurd hi.symm hu
  · exact congrArg UnitE.port (he hi)
  · exact congrArg UnitD.port (hd hi)
  · exact absurd hi.symm hu

/-- Settles O51: a port that a phase leaves is the unit's own, which ends in one of two ways, or another's. -/
theorem phasesKeepTheHostRegisters : Obligations.PhasesKeepTheHostRegisters := by
  intro i s t u hs hE hD hx
  by_cases hu : u = instrUnit i
  · subst hu
    obtain ⟨-, hq⟩ | ⟨c, -, hq⟩ := (exec_phaseEnd hs hE hD hx).goes_or_fails
    · rw [hq]
      exact .inl ⟨rfl, rfl, rfl, rfl, rfl, rfl, rfl⟩
    · exact .inr ⟨causeCode c, causeSub c, hq⟩
  · rw [exec_port_other hu hx]
    exact .inl ⟨rfl, rfl, rfl, rfl, rfl, rfl, rfl⟩

/-- Every phase operation goes on to a successor or takes the error exit. -/
theorem exec_goes_or_fails {i : Instr} {s t : State} (hs : instrSuccessors i ≠ []) (hx : exec i s = .next t) :
    (t.port (instrUnit i)).phase ∈ instrSuccessors i ∨
      ∃ c, c ≠ .illegalCommand ∧ t.port (instrUnit i) =
        failedWith { s.port (instrUnit i) with obuf := (t.port (instrUnit i)).obuf } (causeCode c) (causeSub c) := by
  by_cases hE : i = .eFin
  · subst hE
    rw [eFin_end hx]
    exact .inl List.mem_cons_self
  by_cases hD : i = .dFin
  · subst hD
    obtain ⟨-, ⟨-, hp⟩ | ⟨-, hp⟩⟩ := dFin_end hx
    · exact .inl (by simp [instrUnit, hp, complete, instrSuccessors])
    · exact .inr ⟨.bitCountMismatch, by decide, by simp only [instrUnit, port_D, hp]; rfl⟩
  · exact (exec_phaseEnd hs hE hD hx).goes_or_fails.imp_left And.left

/-- Only the refused opcode has the code of IllegalCommand. -/
theorem causeCode_ne_illegal {c : Cause} (h : c ≠ .illegalCommand) : causeCode c ≠ 4#8 := by
  cases c
  case illegalCommand => exact absurd rfl h
  all_goals decide

/-- Settles O52: the ends of a phase, and the pair that each cause records. -/
theorem phasesFollowTheTransitionTables : Obligations.PhasesFollowTheTransitionTables := by
  intro i s t hs hx
  refine (exec_goes_or_fails hs hx).imp_right ?_
  rintro ⟨c, hc, hq⟩
  exact ⟨_, _, causePair_mem c, causeCode_ne_zero c, causeCode_ne_illegal hc, hq⟩

end Sys2Proof.Machine
end

section
/-! PROOFS. A busy unit comes to rest (spec 46_commands_sequencer.md R228, R231, R232; 70_reset_and_hazards.md R288):
every operation of the unit whose turn it is ends at a higher PHASE code or at IDLE. -/

namespace Sys2Proof.Machine

/-- How many phases a unit has besides IDLE (R98). -/
def phaseCount : UnitKind → Nat
  | .E => 15
  | .D => 12

/-- How many operations are left to a unit at most, by its PHASE: the codes of a unit stand in the order of its
phases, and the last is followed by IDLE. -/
def phasesLeft : UnitKind → BitVec 5 → Nat
  | .E, p => if p = 0#5 then 0 else 16 - p.toNat
  | .D, p => if p = 0#5 then 0 else 28 - p.toNat

theorem phasesLeft_idle (k : UnitKind) : phasesLeft k 0#5 = 0 := by cases k <;> rfl

/-- A unit's code other than IDLE leaves at least one operation. -/
theorem phasesLeft_pos {k : UnitKind} {p : BitVec 5} (hk : unitPhase k p) (hp : p ≠ 0#5) : 0 < phasesLeft k p := by
  revert p
  cases k <;> (simp only [unitPhase]; decide)

/-- No code leaves more operations than the unit has phases. -/
theorem phasesLeft_le {k : UnitKind} {p : BitVec 5} (hk : unitPhase k p) : phasesLeft k p ≤ phaseCount k := by
  revert p
  cases k <;> (simp only [unitPhase]; decide)

/-- The successors of the operation that a PHASE names leave fewer. -/
theorem phasesLeft_successor {k : UnitKind} {p q : BitVec 5} {i : Instr} (hi : decodePhase k p = .ok i)
    (hq : q ∈ instrSuccessors i) : phasesLeft k q < phasesLeft k p := by
  obtain ⟨-, -, -, henc⟩ := decodePhase_unit hi
  revert q
  cases i <;> cases henc
  case idle => exact nofun
  all_goals decide

/-- Unit k moves until it is at rest: no schedule, and no busy unit before it (log entry 6). -/
structure HasTheTurn (k : UnitKind) (s : State) : Prop where
  inv     : Inv s
  sched   : s.sched = []
  eAtRest : k = .D → s.e.port.busy = false

/-- It moves while it is busy. -/
theorem HasTheTurn.moves {k : UnitKind} {s : State} (h : HasTheTurn k s) (hb : (s.port k).busy = true) :
    nextAgent s = .unit k := by
  cases k with
  | E => simp only [nextAgent, h.sched]; exact if_pos hb
  | D => simp only [nextAgent, h.sched, h.eAtRest rfl]; exact if_pos hb

/-- A step of a busy unit leaves it the turn, and fewer operations. -/
theorem HasTheTurn.after_step {k : UnitKind} {s t : State} (h : HasTheTurn k s) (hb : (s.port k).busy = true)
    (hx : step s = .next t) :
    HasTheTurn k t ∧ phasesLeft k (t.port k).phase < phasesLeft k (s.port k).phase := by
  have hport := inv_iff.1 h.inv k
  have hne : (s.port k).phase ≠ 0#5 := fun h0 => Bool.false_ne_true ((hport.idleIff.1 h0).symm.trans hb)
  have hinv := everyStepKeepsTheInvariant s t h.inv hx
  cases hi : decodePhase k (s.port k).phase with
  | error e => rw [step_unusedPhase (h.moves hb) hi] at hx; cases hx
  | ok i =>
    obtain ⟨rfl, -, hcommand, -⟩ := decodePhase_unit hi
    have hs : instrSuccessors i ≠ [] := fun hs => hne (hcommand hs).2
    rw [step_unitTurn (h.moves hb) hi] at hx
    obtain ⟨-, he, -, hsched, -⟩ := exec_frame hx
    refine ⟨⟨hinv, ?_, fun hk => ?_⟩, ?_⟩
    · rw [hsched, h.sched]
      rfl
    · rw [he hk]
      exact h.eAtRest hk
    · obtain hq | ⟨c, -, hq⟩ := exec_goes_or_fails hs hx
      · exact phasesLeft_successor hi hq
      · rw [hq]
        exact lt_of_eq_of_lt (phasesLeft_idle _) (phasesLeft_pos hport.phaseLegal hne)

/-- A run of one step more answers a next state where its first step and the run after it do. -/
theorem run_succ_eq_next {M : Host.Core} {k : Nat} {s t : M.State} :
    M.run (k + 1) s = .next t ↔ ∃ s', M.step s = .next s' ∧ M.run k s' = .next t := by
  rw [Host.Core.run]
  cases M.step s <;> simp

/-- A unit that has the turn is at rest after as many steps as it has operations left, or the machine stops. -/
theorem HasTheTurn.comesToRest {k : UnitKind} {n : Nat} {s : State} (h : HasTheTurn k s)
    (hn : phasesLeft k (s.port k).phase ≤ n) :
    ∃ m, m ≤ n ∧ ∀ t, Sys2Proof.core.run m s = .next t → (t.port k).busy = false := by
  induction n generalizing s with
  | zero =>
    have hport := inv_iff.1 h.inv k
    have hidle : (s.port k).phase = 0#5 := by
      by_contra hne
      exact Nat.not_le_of_lt (phasesLeft_pos hport.phaseLegal hne) hn
    refine ⟨0, Nat.le_refl 0, ?_⟩
    rintro t ⟨⟩
    exact hport.idleIff.1 hidle
  | succ n ih =>
    cases hb : (s.port k).busy with
    | false =>
      refine ⟨0, Nat.zero_le _, ?_⟩
      rintro t ⟨⟩
      exact hb
    | true =>
      by_cases hstop : ∃ s', step s = .next s'
      · obtain ⟨s', hx⟩ := hstop
        obtain ⟨h', hless⟩ := h.after_step hb hx
        obtain ⟨m, hm, hrest⟩ := ih h' (by omega)
        refine ⟨m + 1, Nat.succ_le_succ hm, fun t ht => ?_⟩
        obtain ⟨v, hv, hrun⟩ := run_succ_eq_next.1 ht
        obtain rfl : s' = v := Host.Outcome.next.inj (hx.symm.trans hv)
        exact hrest t hrun
      · refine ⟨1, Nat.le_add_left 1 n, fun t ht => ?_⟩
        obtain ⟨s', hx, -⟩ := run_succ_eq_next.1 ht
        exact absurd ⟨s', hx⟩ hstop

/-- Settles O55: unit E has at most 15 operations left, and unit D at most 12. -/
theorem busyUnitsComeToRest : Obligations.BusyUnitsComeToRest := by
  intro s hinv hsched
  constructor
  · intro _
    exact HasTheTurn.comesToRest (k := .E) ⟨hinv, hsched, nofun⟩ (phasesLeft_le hinv.1.phaseLegal)
  · intro he _
    exact HasTheTurn.comesToRest (k := .D) ⟨hinv, hsched, fun _ => he⟩ (phasesLeft_le hinv.2.phaseLegal)

end Sys2Proof.Machine
end

section
/-! PROOFS. The frames of the encoder's phases (spec 46_commands_sequencer.md R235): what each writes, from what its
loop can write. -/

namespace Sys2Proof.Machine

/-! A phase of unit E without an error exit. -/

/-- A phase that begins with a reading answers where the reading gives a value and the rest answers. -/
theorem finishE_thenDo_eq_next {α : Type} {s t : State} {x : Got α} {f : α → Res UnitE} :
    s.finishE (x.thenDo f) = .next t ↔ ∃ a, x = .val a ∧ s.finishE (f a) = .next t := by
  cases x <;> simp [Got.thenDo, State.finishE]

/-- A phase that ends well leaves its unit. -/
theorem finishE_ok_eq_next {s t : State} {u : UnitE} : s.finishE (.ok u) = .next t ↔ t = s.withE u := by
  simp [State.finishE, eq_comm]

/-- The two in one: a phase that reads and then ends well. -/
theorem finishE_thenDo_ok_eq_next {α : Type} {s t : State} {x : Got α} {f : α → UnitE} :
    s.finishE (x.thenDo fun a => .ok (f a)) = .next t ↔ ∃ a, x = .val a ∧ t = s.withE (f a) := by
  simp only [finishE_thenDo_eq_next, finishE_ok_eq_next]

/-! The phases that store nothing. -/

/-- E_MERGE takes the free value where the collection is empty (log entry 12). -/
theorem exec_eMerge (s : State) :
    exec .eMerge s = (if members s.e.inq = [] then s.takeFree else s).finishE
      (phaseEMerge (Config.freeHandle s.free) s.e) := by
  simp only [exec, execEMerge, List.isEmpty_iff]

/-- Settles O46: each phase ends well with what its loop has left of the unit. -/
theorem encoderRegisterPhasesFrame : Obligations.EncoderRegisterPhasesFrame := by
  intro s t
  refine ⟨fun h => ?scan, fun h => ?leaf, fun h hne => ?merge, fun h hempty => ?mergeEmpty, fun h => ?walk,
    fun h => ?sort, fun h => ?canon⟩
  case scan =>
    obtain ⟨bs, -, rfl⟩ := finishE_thenDo_ok_eq_next.1 h
    have hv := scanBytes_frame { s.e with idx := 0#64 } bs
    generalize scanBytes { s.e with idx := 0#64 } bs = v at hv
    rw [hv]
    rfl
  case leaf =>
    obtain ⟨v, hv, rfl⟩ := finishE_thenDo_ok_eq_next.1 h
    rw [leafLoop_frame hv]
    rfl
  case merge =>
    rw [exec_eMerge, if_neg hne] at h
    obtain ⟨v, hv, rfl⟩ := finishE_thenDo_ok_eq_next.1 h
    rw [mergeLoop_frame hv]
    rfl
  case mergeEmpty =>
    rw [exec_eMerge, if_pos hempty] at h
    obtain ⟨v, hv, rfl⟩ := finishE_thenDo_ok_eq_next.1 h
    rw [mergeLoop_empty hempty hv]
    rfl
  case walk =>
    obtain ⟨v, hv, rfl⟩ := finishE_thenDo_ok_eq_next.1 h
    rw [visit_frame hv]
    rfl
  case sort =>
    obtain rfl := finishE_ok_eq_next.1 h
    rfl
  case canon =>
    obtain ⟨es, hes, -⟩ := finishE_thenDo_eq_next.1 h
    obtain ⟨-, rfl⟩ := (exec_eCanon_eq_next (ofOption_eq_val.1 hes)).1 h
    rfl

/-! The phases that store to OBUF. -/

/-- E_HDR, where it answers a next state, found room for the header and stored it. -/
theorem exec_eHdr_writes {s t : State} (h : exec .eHdr s = .next t) :
    t = s.withE (UnitE.goto { s.e with
      port := { s.e.port with obuf := Memory.writeList s.e.port.obuf 0 (headerBytes s.e) }, wptr := 14#64 } phETbl) := by
  obtain ⟨p, hp, hrest⟩ := finishE_thenDo_eq_next.1 h
  obtain ⟨q, hq, hrest⟩ := finishE_thenDo_eq_next.1 hrest
  obtain ⟨r, hr, -⟩ := finishE_thenDo_eq_next.1 hrest
  obtain ⟨-, rfl⟩ := memWrite_eq_val.1 hp
  obtain ⟨-, rfl⟩ := memWrite_eq_val.1 hq
  obtain ⟨hroom, -⟩ := memWrite_eq_val.1 hr
  exact Host.Outcome.next.inj (h.symm.trans (finishE_eq_next.2 (.inl ⟨_, phaseEHdr_eq_ok hroom, rfl⟩)))

/-- The header has 14 bytes (30_encoding.md R80). -/
theorem length_headerBytes (u : UnitE) : (headerBytes u).length = 14 := by
  simp [headerBytes, length_beBytes, Config.magic]

/-- E_PACK, where it answers a next state: the writer of the codewords of the bytes read. -/
theorem exec_ePack_writer {s t : State} (h : exec .ePack s = .next t) :
    ∃ bs v, memRead s.e.port 0 s.e.port.inLen.toNat = .val bs ∧
      Writer s.e s.e.wptr.toNat (packedBits s.e bs) v ∧ t = s.withE (v.goto phEFlush) := by
  obtain ⟨bs, hbs, h⟩ := finishE_thenDo_eq_next.1 h
  obtain ⟨v, hv, rfl⟩ := finishE_thenDo_ok_eq_next.1 h
  have hopen := (writer_bsInit s.e s.e.wptr).setIdx 0#64
  exact ⟨bs, v, hbs, (writer_packBytes hopen hv).1, rfl⟩

/-- Settles O47: one run of bytes, the table's, or the stream's. -/
theorem encoderStoringPhasesFrame : Obligations.EncoderStoringPhasesFrame := by
  intro s t
  refine ⟨fun h => ?hdr, fun h => ?tbl, fun h => ?pbc, fun h => ?pack, fun h => ?flush⟩
  case hdr =>
    obtain rfl := exec_eHdr_writes h
    exact ⟨rfl, length_headerBytes s.e ▸ sameOutside_writeList _ _ _⟩
  case tbl =>
    obtain ⟨es, hes, h⟩ := finishE_thenDo_eq_next.1 h
    obtain ⟨v, hv, rfl⟩ := finishE_thenDo_ok_eq_next.1 h
    obtain ⟨hframe, hobuf⟩ := emitEntries_frame hv
    rw [length_of_cclPrefix (ofOption_eq_val.1 hes)] at hobuf
    exact ⟨by rw [hframe]; rfl, hobuf⟩
  case pbc =>
    obtain ⟨v, hv, rfl⟩ := finishE_thenDo_ok_eq_next.1 h
    obtain ⟨-, rfl⟩ := emit_eq_val.1 hv
    exact ⟨rfl, length_beBytes 8 s.e.pbc.toNat ▸ sameOutside_writeList _ _ _⟩
  case pack =>
    obtain ⟨bs, v, hbs, w, rfl⟩ := exec_ePack_writer h
    refine ⟨by rw [w.frame]; rfl, fun bs' hin => ?_⟩
    obtain rfl : bs = bs' := Got.val.inj (hbs.symm.trans (memRead_input hin))
    exact w.others
  case flush =>
    obtain ⟨v, hv, rfl⟩ := finishE_thenDo_ok_eq_next.1 h
    obtain ⟨hempty, rfl⟩ | ⟨hbits, -, rfl⟩ := flushBits_eq_val.1 hv
    · exact ⟨rfl, fun _ _ => rfl⟩
    · rw [if_neg hbits]
      exact ⟨rfl, sameOutside_writeList _ _ [s.e.acc]⟩

end Sys2Proof.Machine
end

section
/-! PROOFS. The frames of the decoder's phases that loop (spec 46_commands_sequencer.md R235; 45_decoder.md R195, R201,
R204, R205). -/

namespace Sys2Proof.Machine

/-- D_TBL, where it goes on and where it raises: FormatError, with CCL, LEN and RPTR as its loop has left them. -/
theorem phaseDTbl_frame {u v : UnitD} :
    (phaseDTbl u = .ok v → v = { u with
      port := { u.port with phase := phDPbc }, ccl := v.ccl, len := v.len, rptr := v.rptr, paybase := v.paybase }) ∧
    ∀ c, phaseDTbl u = .raised v c → causeCode c = 1#8 ∧
      v = { u with ccl := v.ccl, len := v.len, rptr := v.rptr } := by
  rw [phaseDTbl]
  split
  · refine ⟨nofun, ?_⟩
    rintro c ⟨⟩
    exact ⟨rfl, rfl⟩
  split
  next w hw =>
    refine ⟨?_, nofun⟩
    rintro ⟨⟩
    rw [tableLoop_frame (.inl hw)]
    rfl
  next r hr =>
    refine ⟨fun hv => absurd hv (hr v), fun c hv => ⟨?_, tableLoop_frame (.inr ⟨c, hv⟩)⟩⟩
    obtain rfl | rfl := tableLoop_cause hv <;> rfl

/-- D_CANON, where it goes on and where it raises: InvalidCode, with CODE and RUN as the regeneration has left them. -/
theorem phaseDCanon_frame {u v : UnitD} :
    (phaseDCanon u = .ok v → v = { u with port := { u.port with phase := phDWalk }, code := v.code, run := v.run }) ∧
    ∀ c, phaseDCanon u = .raised v c → c = .invalidCode ∧ v = { u with code := v.code, run := v.run } := by
  constructor
  · intro h
    obtain ⟨es, -, hv⟩ := thenDo_eq_ok.1 h
    unfold canonEndD at hv
    split at hv
    · split_ifs at hv
      cases hv
      rfl
    · cases hv
    · cases hv
  · intro c h
    obtain ⟨es, -, hv⟩ := thenDo_eq_raised.1 h
    unfold canonEndD at hv
    split at hv
    · split_ifs at hv
      cases hv
      exact ⟨rfl, rfl⟩
    · cases hv
      exact ⟨rfl, rfl⟩
    · cases hv

/-- D_WALK goes on where its loop ends well. -/
theorem phaseDWalk_eq_ok_iff {u v : UnitD} :
    phaseDWalk u = .ok v ↔ ∃ w, walkLoop (u.pbc - u.bitpos).toNat u = .ok w ∧ v = w.goto phDFin := by
  rw [phaseDWalk]
  cases walkLoop (u.pbc - u.bitpos).toNat u <;> simp [eq_comm]

/-- D_WALK raises what its loop raises. -/
theorem phaseDWalk_eq_raised_iff {u v : UnitD} {c : Cause} :
    phaseDWalk u = .raised v c ↔ walkLoop (u.pbc - u.bitpos).toNat u = .raised v c := by
  rw [phaseDWalk]
  cases walkLoop (u.pbc - u.bitpos).toNat u <;> simp

/-- Settles O48: each phase goes on, or takes the error exit, with what its loop has left of the unit. -/
theorem decoderLoopPhasesFrame : Obligations.DecoderLoopPhasesFrame := by
  intro s t
  refine ⟨fun h => ?tbl, fun h => ?canon, fun h => ?single, fun h => ?walk⟩
  case tbl =>
    obtain ⟨v, hv, rfl⟩ | ⟨v, c, hv, rfl⟩ := finishD_eq_next.1 h
    · rw [phaseDTbl_frame.1 hv]
      exact ⟨rfl, .inl rfl⟩
    · obtain ⟨hcode, hframe⟩ := phaseDTbl_frame.2 c hv
      rw [hframe, errorExit_eq, hcode]
      exact ⟨rfl, .inr ⟨_, rfl⟩⟩
  case canon =>
    obtain ⟨v, hv, rfl⟩ | ⟨v, c, hv, rfl⟩ := finishD_eq_next.1 h
    · rw [phaseDCanon_frame.1 hv]
      exact ⟨rfl, .inl rfl⟩
    · obtain ⟨rfl, hframe⟩ := phaseDCanon_frame.2 c hv
      rw [hframe]
      exact ⟨rfl, .inr rfl⟩
  case single =>
    obtain ⟨v, hv, rfl⟩ | ⟨v, c, hv, rfl⟩ := finishD_eq_next.1 h
    · obtain ⟨w, hw, ⟨⟩⟩ := thenDo_eq_ok.1 hv
      obtain ⟨hemitted, hframe, hobuf⟩ := singleLoop_frame hw
      refine ⟨?_, hobuf⟩
      rw [hframe, hemitted.port]
      rfl
    · obtain ⟨w, -, ⟨⟩⟩ := thenDo_eq_raised.1 hv
  case walk =>
    obtain ⟨v, hv, rfl⟩ | ⟨v, c, hv, rfl⟩ := finishD_eq_next.1 h
    · obtain ⟨w, hw, rfl⟩ := phaseDWalk_eq_ok_iff.1 hv
      obtain ⟨hemitted, hframe, hobuf⟩ := walkLoop_frame (.inl hw)
      refine ⟨?_, .inl ?_, hobuf⟩
      · rw [hframe]
        rfl
      · rw [withD_d, gotoD_port, hemitted.port]
    · have hw := phaseDWalk_eq_raised_iff.1 hv
      obtain ⟨hemitted, hframe, hobuf⟩ := walkLoop_frame (.inr ⟨c, hw⟩)
      obtain rfl := walkLoop_cause hw
      refine ⟨?_, .inr ?_, hobuf⟩
      · rw [hframe]
        rfl
      · rw [withD_d, hemitted.port]
        rfl

end Sys2Proof.Machine
end

section
/-! PROOFS. Input never written (spec 70_reset_and_hazards.md R274; V5): a phase is refused where a reading it makes
takes in an IBUF byte with no value, before any effect of the phase. -/

namespace Sys2Proof.Machine

/-! Going on where a reading is refused. -/

theorem andThen_of_refuse {α β : Type} {x : Got α} {r : Refusal} (f : α → Got β) (h : x = .refuse r) :
    x.andThen f = .refuse r := by
  rw [h, Got.andThen]

theorem thenDo_of_refuse {α β : Type} {x : Got α} {r : Refusal} (f : α → Res β) (h : x = .refuse r) :
    x.thenDo f = .refuse r := by
  rw [h, Got.thenDo]

theorem finishE_of_refuse {s : State} {q : Res UnitE} {r : Refusal} (h : q = .refuse r) :
    s.finishE q = .refused r := by
  rw [h, State.finishE]

theorem finishD_of_refuse {s : State} {q : Res UnitD} {r : Refusal} (h : q = .refuse r) :
    s.finishD q = .refused r := by
  rw [h, State.finishD]

/-! The phases. -/

/-- The bytes left end at IN_LEN (R190). -/
theorem rptr_add_le_inLen {u : UnitD} {n : Nat} (hn : 0 < n) (hleft : n ≤ remBytes u) :
    u.rptr.toNat + n ≤ u.port.inLen.toNat := by
  rwa [← Nat.not_lt, ← remBytes_lt_iff hn, Nat.not_lt]

/-- The reading of the whole input, with which both passes of unit E begin (R111, R180). -/
theorem memRead_input_unwritten {p : Port} {i : Nat} (hcap : p.inLen.toNat ≤ p.capIn.toNat)
    (hi : i < p.inLen.toNat) (hnone : Memory.read p.ibuf i = none) :
    memRead p 0 p.inLen.toNat = .refuse .inputByteUnwritten :=
  memRead_unwritten hnone (Nat.zero_le i) (by omega) (by omega) hcap

/-- A fixed field of the container (R192 to R194, R197): its n bytes are left, and their reading is refused. -/
theorem field_of_refuse {u : UnitD} {n a : Nat} {c : Cause} {r : Refusal} (f : List Byte → Res UnitD)
    (hleft : n ≤ remBytes u) (hread : memRead u.port a n = .refuse r) :
    (if remBytes u < n then .raised u c else (memRead u.port a n).thenDo f) = .refuse r := by
  rw [if_neg (Nat.not_lt.2 hleft), thenDo_of_refuse f hread]

/-- D_TBL, where the reading of its first entry is refused. -/
theorem phaseDTbl_of_refuse {u : UnitD} {r : Refusal} (hsome : 0 < u.symcnt.toNat)
    (hleft : 2 * u.symcnt.toNat ≤ remBytes u) (hread : memRead u.port u.rptr.toNat 2 = .refuse r) :
    phaseDTbl u = .refuse r := by
  obtain ⟨n, hn⟩ := Nat.exists_eq_add_one.2 hsome
  have hloop : tableLoop u.symcnt.toNat 0 u = .refuse r := by
    rw [hn, tableLoop, thenDo_of_refuse _ hread]
  rw [phaseDTbl, if_neg (Nat.not_lt.2 hleft), hloop]

/-- The next bit of the payload, in a byte never written (R161). -/
theorem getBit_unwritten {u : UnitD} (hcap : u.port.inLen.toNat ≤ u.port.capIn.toNat)
    (hin : u.paybase.toNat + u.bitpos.toNat / 8 < u.port.inLen.toNat)
    (hnone : Memory.read u.port.ibuf (u.paybase.toNat + u.bitpos.toNat / 8) = none) :
    getBit u = .refuse .inputByteUnwritten :=
  andThen_of_refuse _ (andThen_of_refuse _
    (memRead_unwritten hnone (Nat.le_refl _) (Nat.lt_succ_self _) hin hcap))

/-- D_WALK, with a bit left and symbols missing, where the reading of that bit is refused. -/
theorem phaseDWalk_of_refuse {u : UnitD} {r : Refusal} (hbits : u.bitpos ≠ u.pbc)
    (hmissing : u.ocnt.toNat < u.origlen.toNat) (hread : getBit u = .refuse r) :
    phaseDWalk u = .refuse r := by
  have hleft : 0 < (u.pbc - u.bitpos).toNat := by bv_omega
  obtain ⟨n, hn⟩ := Nat.exists_eq_add_one.2 hleft
  have hloop : walkLoop (u.pbc - u.bitpos).toNat u = .refuse r := by
    rw [hn, walkLoop, if_pos hmissing, thenDo_of_refuse _ hread]
  rw [phaseDWalk, hloop]

/-- Settles O45: each phase's first reading takes in the byte. -/
theorem unwrittenInputIsRefused : Obligations.UnwrittenInputIsRefused := by
  intro s i
  constructor
  · intro hcap hi hnone
    have hread := memRead_input_unwritten hcap hi hnone
    exact ⟨finishE_of_refuse (thenDo_of_refuse _ hread), finishE_of_refuse (thenDo_of_refuse _ hread)⟩
  · intro hcap hnone
    refine ⟨fun hi hleft => ?magic, fun hlo hhi hleft hin => ?olen, fun hlo hhi hleft hin => ?scnt,
      fun hlo hhi hsome hleft => ?tbl, fun hlo hhi hleft => ?pbc, fun hi hin hbits hmissing => ?walk⟩
    all_goals apply finishD_of_refuse
    case magic =>
      have hin := rptr_add_le_inLen (by decide) hleft
      exact field_of_refuse _ hleft (memRead_unwritten hnone (Nat.zero_le i) (by omega) (by omega) hcap)
    case olen => exact field_of_refuse _ hleft (memRead_unwritten hnone hlo hhi hin hcap)
    case scnt => exact field_of_refuse _ hleft (memRead_unwritten hnone hlo hhi hin hcap)
    case tbl =>
      have hin : s.d.rptr.toNat + 2 ≤ s.d.port.inLen.toNat := rptr_add_le_inLen (by decide) (by omega)
      exact phaseDTbl_of_refuse hsome hleft (memRead_unwritten hnone hlo hhi hin hcap)
    case pbc =>
      have hin := rptr_add_le_inLen (by decide) hleft
      exact field_of_refuse _ hleft (memRead_unwritten hnone hlo hhi hin hcap)
    case walk =>
      subst hi
      exact phaseDWalk_of_refuse hbits hmissing (getBit_unwritten hcap hin hnone)

end Sys2Proof.Machine
end

section
/-! PROOFS. Words written out (spec 30_encoding.md R90, R96, R98): commands by the opcode table, phase codes and the
empty container by the round trip. -/

namespace Sys2Proof.Machine

/-- The container of the empty input: the magic and eighteen zero bytes (R80, R90). -/
theorem encode_emptyContainer :
    encode (.huf1Container ⟨0#64, [], 0#64, []⟩) =
      .bytes (0x48#8 :: 0x55#8 :: 0x46#8 :: 0x31#8 :: List.replicate 18 0#8) := rfl

/-- Settles O5: a command word by its low byte, and the other words as what the encoder writes. -/
theorem writtenOutWordsDecode : Obligations.WrittenOutWordsDecode := by
  obtain ⟨⟨-, enc, -, -⟩, -⟩ := commandOpcodeTable .E 0x01#64
  obtain ⟨⟨-, -, -, clr⟩, -⟩ := commandOpcodeTable .E 0x103#64
  obtain ⟨-, reserved⟩ := commandOpcodeTable .D 0xFF#64
  have container := decodeEncodeRoundTrip (.huf1Container ⟨0#64, [], 0#64, []⟩) rfl
  rw [encode_emptyContainer] at container
  exact ⟨enc rfl, clr rfl, reserved (by decide), decodeEncodeRoundTrip .eSort rfl,
    decodeEncodeRoundTrip .dWalk rfl, container⟩

end Sys2Proof.Machine
end
